-- ==== Sys2Proof/Word.lean ====
section
/-! DEFINITION. The byte and the fixed-width unsigned words of the VarInt decoder block
(`spec/00_scope.md` R10). Nothing here is signed and no wider unit of storage exists. -/

namespace Sys2Proof

/-- A byte has 8 bits (R10); it is the smallest addressable unit of every byte space (R60). -/
abbrev Byte := BitVec 8

/-- The width of version, index, sequence, lock time, timestamp, bits, nonce and `length` fields (R10). -/
abbrev Word32 := BitVec 32

/-- The width of a VarInt value and of an output value (R10). -/
abbrev Word64 := BitVec 64

end Sys2Proof
end

