-- ==== Sys2Proof/Config.lean ====
section
/-! DEFINITION. The implementation parameters of `spec/00_scope.md` R6 to R9: fixed for the life of
an instance, shown on the `CFG` channel (R40), never written by an operation (R38). The machine
carries them in its state as a constant field, so that every statement over all states holds for
every value of the parameters. -/

namespace Sys2Proof

/-- The parameters. `none` as a capacity is the spec's `INF`. -/
structure Config where
  /-- `MAGIC`, 4 bytes, first wire byte first (R6). -/
  magic : List Byte
  /-- `RXCAP`, the capacity of the receive buffer, at least 24, or `INF` (R7). -/
  rxcap : Option Nat
  /-- `WCAP`, the longest operand of a stand-alone decode, or `INF` (R8). -/
  wcap : Option Nat
  /-- `NSESS`, the number of session instances, at least 1 (R9). -/
  nsess : Nat
  deriving DecidableEq, Repr

/-- The parameters `State.reset` stands with: the defaults of R7, R8 and R9, and for the open
`MAGIC` the example value of the spec's vectors. DESIGN CHOICE (log 1), unsafe: no statement rests
on the value of `MAGIC`. -/
def Config.standard : Config :=
  { magic := [0xf9, 0xbe, 0xb4, 0xd9], rxcap := none, wcap := none, nsess := 1 }

/-- The ranges R6, R7 and R9 give the parameters. -/
def Config.wf (c : Config) : Bool :=
  c.magic.length == 4 && (match c.rxcap with | none => true | some n => decide (24 ≤ n)) &&
    decide (1 ≤ c.nsess)

end Sys2Proof
end

