-- ==== Sys2Proof/Syntax.lean ====
section
/-! DEFINITION. What the block decodes: the wire records (`spec/10_state.md` R34), the word of the
command port (`spec/30_encoding.md` R110, `spec/10_state.md` R41) and `Instr`, one constructor per
row of `spec/opcode_table.json`. -/

namespace Sys2Proof

/-! ### Records of the wire (R34). An integer field is unsigned; a bytes field keeps wire order. -/

/-- A decoded VarInt: its value and the bytes it occupied, 1, 3, 5 or 9 (R34, R93). -/
structure VarInt where
  value : Word64
  width : Nat
  deriving DecidableEq, Repr

/-- One of the four wire forms of a VarInt, with what stands on the wire (R91). -/
inductive ViForm where
  /-- First byte 0x00 to 0xFC: the value itself. -/
  | vi1 (p : Byte)
  /-- First byte 0xFD and a 2-byte little-endian body. -/
  | vi3 (body : BitVec 16)
  /-- First byte 0xFE and a 4-byte little-endian body. -/
  | vi5 (body : Word32)
  /-- First byte 0xFF and an 8-byte little-endian body. -/
  | vi9 (body : Word64)
  deriving DecidableEq, Repr

/-- A frame as `FR` holds it (R32): the header's fields without the magic, and the payload. -/
structure Frame where
  /-- 12 bytes as on the wire, padding included. -/
  command : List Byte
  /-- The declared payload length. -/
  length : Word32
  /-- 4 bytes, in the order the hash produces them. -/
  checksum : List Byte
  payload : List Byte
  deriving DecidableEq, Repr

/-- The 24 bytes in front of every payload (R95), as `ParseHeader` returns them (R162). -/
structure Header where
  magic : List Byte
  command : List Byte
  length : Word32
  checksum : List Byte
  deriving DecidableEq, Repr

/-- A transaction input (R34, R101). -/
structure TxInput where
  prevHash : List Byte
  prevIndex : Word32
  script : List Byte
  sequence : Word32
  deriving DecidableEq, Repr

/-- A transaction output (R34, R102). -/
structure TxOutput where
  value : Word64
  script : List Byte
  deriving DecidableEq, Repr

/-- A transaction (R34, R103). -/
structure Transaction where
  version : Word32
  inputs : List TxInput
  outputs : List TxOutput
  lockTime : Word32
  deriving DecidableEq, Repr

/-- A block header (R34, R104). -/
structure BlockHeader where
  version : Word32
  prevBlock : List Byte
  merkleRoot : List Byte
  timestamp : Word32
  bits : Word32
  nonce : Word32
  deriving DecidableEq, Repr

/-- A block (R34, R105). -/
structure Block where
  header : BlockHeader
  txs : List Transaction
  deriving DecidableEq, Repr

/-! ### The command port -/

/-- What an operation carries on `CMD` beside its code (R41). A byte sequence comes with its length. -/
inductive Operand where
  /-- CONNECT, EXTRACT, ROUTE, CLOSE carry nothing. -/
  | nothing
  /-- FEED, TXDEC, BLKDEC carry a byte sequence. -/
  | bytes (b : List Byte)
  /-- VARINT carries a byte sequence and a natural number. -/
  | bytesAt (buf : List Byte) (offset : Nat)
  deriving DecidableEq, Repr

/-- The operation word `op[3:0]` followed by its operand (R110). -/
structure CmdWord where
  op : BitVec 4
  operand : Operand
  deriving DecidableEq, Repr

/-- Which of the five handlings a command field selects (R97). -/
inductive MsgKind where
  | version | verack | block | tx | unknown
  deriving DecidableEq, Repr

/-! ### The instructions -/

/-- One constructor per row of `spec/opcode_table.json`. The VI rows carry what stands on the wire,
the MH rows the fields of the frame (the command only where the row does not fix it), the OP rows
the operand of R41. -/
inductive Instr where
  /-- VI1: a 1-byte VarInt, the default row of format VI. -/
  | vi1 (p : Byte)
  /-- VI3: a 3-byte VarInt. -/
  | vi3 (body : BitVec 16)
  /-- VI5: a 5-byte VarInt. -/
  | vi5 (body : Word32)
  /-- VI9: a 9-byte VarInt. -/
  | vi9 (body : Word64)
  /-- MSG_VERSION: a `version` frame. -/
  | msgVersion (length : Word32) (checksum payload : List Byte)
  /-- MSG_VERACK: a `verack` frame. -/
  | msgVerack (length : Word32) (checksum payload : List Byte)
  /-- MSG_BLOCK: a `block` frame. -/
  | msgBlock (length : Word32) (checksum payload : List Byte)
  /-- MSG_TX: a `tx` frame. -/
  | msgTx (length : Word32) (checksum payload : List Byte)
  /-- MSG_UNKNOWN: a frame with any other command field, the default row of format MH. -/
  | msgUnknown (command : List Byte) (length : Word32) (checksum payload : List Byte)
  /-- CONNECT, code 0x1. -/
  | connect
  /-- FEED, code 0x2. -/
  | feed (b : List Byte)
  /-- EXTRACT, code 0x3. -/
  | extract
  /-- ROUTE, code 0x4. -/
  | route
  /-- CLOSE, code 0x5. -/
  | close
  /-- VARINT, code 0x8. -/
  | varint (buf : List Byte) (offset : Nat)
  /-- TXDEC, code 0x9. -/
  | txdec (buf : List Byte)
  /-- BLKDEC, code 0xA. -/
  | blkdec (buf : List Byte)
  /-- ILLEGAL_0, an illegal code (R113). -/
  | illegal0
  /-- ILLEGAL_6, an illegal code (R113). -/
  | illegal6
  /-- ILLEGAL_7, an illegal code (R113). -/
  | illegal7
  /-- ILLEGAL_B, an illegal code (R113). -/
  | illegalB
  /-- ILLEGAL_C, an illegal code (R113). -/
  | illegalC
  /-- ILLEGAL_D, an illegal code (R113). -/
  | illegalD
  /-- ILLEGAL_E, an illegal code (R113). -/
  | illegalE
  /-- ILLEGAL_F, an illegal code (R113). -/
  | illegalF
  deriving DecidableEq, Repr

/-- The wire form of a VarInt as the instruction of its row. -/
def ViForm.toInstr : ViForm → Instr
  | .vi1 p => .vi1 p
  | .vi3 b => .vi3 b
  | .vi5 b => .vi5 b
  | .vi9 b => .vi9 b

end Sys2Proof
end

