-- ==== Sys2Proof/Machine/State.lean ====
section
/-! DEFINITION. The state of one session instance (`spec/10_state.md` R20), its result records (R37)
and its reset values (R45); and the reasons a step of the model stops. -/

namespace Sys2Proof.Machine

/-- The handshake phase, `PHASE` (R26). The register values 6 and 7 are never written. -/
inductive Phase where
  /-- 0: reset state. -/
  | init
  /-- 1: CONNECT done, no handshake frame routed yet. -/
  | versionSent
  /-- 2: at least one of `version`, `verack` routed, not yet both. -/
  | awaitingVerack
  /-- 3: both routed. -/
  | handshook
  /-- 4: terminal, peer disconnected or local close. -/
  | closed
  /-- 5: terminal, unrecoverable framing fault. -/
  | error
  deriving DecidableEq, Repr

/-- The four bits of `FLAGS` (R27). -/
structure Flags where
  gotVersion : Bool
  gotVerack : Bool
  peerInfoValid : Bool
  frv : Bool
  deriving DecidableEq, Repr

/-- The working registers `x[0]` to `x[7]` (R21). -/
structure Regs where
  /-- `x[0]`, the cursor. -/
  off : Nat
  /-- `x[1]`, the length of the decode window. -/
  wlen : Nat
  /-- `x[2]`, the value of the last VarInt decoded. -/
  val : Word64
  /-- `x[3]`, the width of the last VarInt decoded. -/
  wid : BitVec 4
  /-- `x[4]`, inputs of the current transaction still to decode. -/
  nin : Word64
  /-- `x[5]`, outputs of the current transaction still to decode. -/
  nout : Word64
  /-- `x[6]`, transactions of the current block still to decode. -/
  ntx : Word64
  /-- `x[7]`, the cursor when the current transaction began. -/
  base : Nat
  deriving DecidableEq, Repr

/-- The three byte spaces (`spec/20_memory.md` R60). Addresses of a space run from 0 to its length
minus 1 with no hole, so the list of its bytes in address order is its one canonical form (log 13). -/
structure Memory where
  /-- `RX`, the receive buffer (R31). -/
  rx : List Byte
  /-- `FR`, the frame register (R32). -/
  fr : Frame
  /-- `W`, the decode window (R33). -/
  w : List Byte
  deriving DecidableEq, Repr

/-- The error kinds (`spec/60_exceptions.md` R215), in the order of their codes 1 to 6. -/
inductive ErrKind where
  | truncatedInput | malformedVarInt | invalidMagic | checksumMismatch | unknownCommand
  | frameTooLarge
  deriving DecidableEq, Repr

/-- What an `Err` record holds (R223). `cause` and `txIndex` are present only for a block decode that
failed inside a transaction (R152). -/
structure ErrInfo where
  kind : ErrKind
  errOff : Nat
  cause : Option ErrKind := none
  txIndex : Option Nat := none
  deriving DecidableEq, Repr

/-- Why a ROUTE ignored its frame (R37). -/
inductive IgnoreReason where
  | unknownCommand | gated | lateHandshake
  deriving DecidableEq, Repr

/-- Why an operation was not performed (R222), in the order of the codes 1 to 7. -/
inductive RefuseReason where
  | notConnected | sessionEnded | frameBusy | noFrame | badPhase | tooLong | illegalOp
  deriving DecidableEq, Repr

/-- Which handshake frame a `Handshake` record speaks of (R37). -/
inductive HandshakeCmd where
  | version | verack
  deriving DecidableEq, Repr

/-- A decoded entity (R17). -/
inductive Entity where
  | tx (t : Transaction)
  | block (b : Block)
  deriving DecidableEq, Repr

/-- The records of the output trace (R37). -/
inductive Record where
  /-- Request: send a `version` message. -/
  | versionReq
  /-- Request: send a `verack` message. -/
  | verackReq
  | ok
  | fed (k : Nat)
  /-- `None`: no complete frame is buffered. -/
  | noFrameYet
  | gotFrame (f : Frame)
  | handshake (cmd : HandshakeCmd) (phase : Phase)
  | entity (e : Entity) (consumed : Nat)
  | varIntResult (v : VarInt)
  | ignored (reason : IgnoreReason)
  | err (info : ErrInfo)
  | refused (reason : RefuseReason)
  deriving DecidableEq, Repr

/-- What the host puts to the instance (R40): `rst` asserted between two operations, or an operation
on `CMD`. -/
inductive HostEvent where
  | rst
  | cmd (word : CmdWord)
  deriving DecidableEq, Repr

/-- One of the three byte spaces, in a fault. -/
inductive Space where
  | rx | fr | w
  deriving DecidableEq, Repr

/-- Why the machine stops with a fault. -/
inductive Fault where
  /-- Raised by any operation whose `MemRead` leaves its byte space: bytes `address` to
  `address + size - 1` of `space` do not all exist. The spec leaves such a read undefined and lets no
  rule make one (R65); no state a run reaches does. Safe: the model stops (log 12). -/
  | outsideSpace (space : Space) (address size : Nat)
  deriving DecidableEq, Repr

/-- Why the model gives a step no meaning. -/
inductive Refusal where
  /-- Raised by `exec` for an instruction that has no meaning yet. Safe. No arm raises it now. -/
  | notModelled (mnemonic : String)
  /-- Raised by `step` when `CMD` carries an operand of a shape that R41 does not give the operation
  code, so that no operation is named. Safe: the model stops (log 10). -/
  | badOperand (word : CmdWord)
  deriving DecidableEq, Repr

/-- The state of one session instance. -/
structure State where
  /-- The parameters (R6 to R9): no step writes them (R38). -/
  cfg : Config
  /-- `x[0]` to `x[7]` (R21). -/
  x : Regs
  /-- `PHASE` (R26). -/
  phase : Phase
  /-- `FLAGS` (R27). -/
  flags : Flags
  /-- `PEER_VERSION` (R28). -/
  peerVersion : Word32
  /-- `PEER_SERVICES` (R28). -/
  peerServices : Word64
  /-- `ERRSEEN`, bit `k` for the kind with code `k` (R29). -/
  errSeen : BitVec 7
  /-- `RX`, `FR`, `W` (R60). -/
  mem : Memory
  /-- `OUT`, oldest record first (R36). -/
  out : List Record
  /-- The model's own field: what the host has put to the instance and the instance has not yet
  taken, oldest first (R40, R42; log 7). -/
  cmd : List HostEvent
  deriving DecidableEq, Repr

/-- The working registers after reset, which R45 leaves unspecified. DESIGN CHOICE (log 3). -/
def Regs.zero : Regs :=
  { off := 0, wlen := 0, val := 0, wid := 0, nin := 0, nout := 0, ntx := 0, base := 0 }

/-- `FR` after reset, which R45 leaves unspecified: zero header fields of their fixed sizes and an
empty payload. DESIGN CHOICE (log 4). -/
def blankFrame : Frame :=
  { command := List.replicate 12 0, length := 0, checksum := List.replicate 4 0, payload := [] }

/-- The state right after `rst` (R45, R261), with nothing pending on the command port. The parameters
keep their values. `W` is unspecified and taken empty: DESIGN CHOICE (log 5). -/
def State.resetWith (c : Config) : State :=
  { cfg := c
    x := Regs.zero
    phase := .init
    flags := { gotVersion := false, gotVerack := false, peerInfoValid := false, frv := false }
    peerVersion := 0
    peerServices := 0
    errSeen := 0
    mem := { rx := [], fr := blankFrame, w := [] }
    out := []
    cmd := [] }

/-- The machine right after reset, with the parameters of `Config.standard`. -/
def State.reset : State := State.resetWith Config.standard

end Sys2Proof.Machine
end

