-- ==== Sys2Proof/Machine/Flags.lean ====
section
/-! DEFINITION. Every flag and status-register computation: the numbers behind `PHASE`, `FLAGS` and
`ERRSEEN` (`spec/10_state.md` R26, R27, R29), `UpdatePhase` (`spec/45_dispatch_handshake.md` R194),
the phase tests of the operations, and the read-only `STATUS` view (R30, R40). -/

namespace Sys2Proof.Machine

/-- The number of a phase on `STATUS` (R26). -/
def Phase.code : Phase → BitVec 3
  | .init => 0
  | .versionSent => 1
  | .awaitingVerack => 2
  | .handshook => 3
  | .closed => 4
  | .error => 5

/-- Closed and Error are terminal (R17). -/
def Phase.terminal : Phase → Bool
  | .init => false
  | .versionSent => false
  | .awaitingVerack => false
  | .handshook => false
  | .closed => true
  | .error => true

/-- `FLAGS` as one word: GOTVERSION, GOTVERACK, PEERINFO_VALID, FRV are bits 0 to 3 (R27). -/
def Flags.word (f : Flags) : BitVec 4 :=
  BitVec.ofNat 4 (f.gotVersion.toNat + 2 * f.gotVerack.toNat + 4 * f.peerInfoValid.toNat +
    8 * f.frv.toNat)

/-- The code of an error kind (`spec/60_exceptions.md` R215). -/
def ErrKind.code : ErrKind → Nat
  | .truncatedInput => 1
  | .malformedVarInt => 2
  | .invalidMagic => 3
  | .checksumMismatch => 4
  | .unknownCommand => 5
  | .frameTooLarge => 6

/-- The code of a refusal reason (R222). -/
def RefuseReason.code : RefuseReason → Nat
  | .notConnected => 1
  | .sessionEnded => 2
  | .frameBusy => 3
  | .noFrame => 4
  | .badPhase => 5
  | .tooLong => 6
  | .illegalOp => 7

/-- The mask of one kind: bit `code`. -/
def errBit (k : ErrKind) : BitVec 7 := BitVec.ofNat 7 (2 ^ k.code)

/-- The `ERRSEEN` bits an error sets under a session operation: its own, and bit 2 when a block's
cause is `MalformedVarInt` (R195, R232). -/
def errBits (e : ErrInfo) : BitVec 7 :=
  errBit e.kind ||| (if e.cause = some .malformedVarInt then errBit .malformedVarInt else 0)

/-- Whether a kind ends the session: `PHASE <- Error` (R215, R232). -/
def ErrKind.fatal : ErrKind → Bool
  | .truncatedInput => false
  | .malformedVarInt => false
  | .invalidMagic => true
  | .checksumMismatch => false
  | .unknownCommand => false
  | .frameTooLarge => true

/-- `UpdatePhase()` (R194), on the flags as already written. -/
def updatePhase (f : Flags) (p : Phase) : Phase :=
  if f.gotVersion && f.gotVerack then .handshook
  else if p = .versionSent then .awaitingVerack
  else p

/-- Why FEED, EXTRACT and ROUTE are refused in a phase, if they are (R222, R235). -/
def phaseRefusal : Phase → Option RefuseReason
  | .init => some .notConnected
  | .versionSent => none
  | .awaitingVerack => none
  | .handshook => none
  | .closed => some .sessionEnded
  | .error => some .sessionEnded

/-- The phase CLOSE leaves: Error stays Error, every other becomes Closed (R200). -/
def closedPhase (p : Phase) : Phase := if p = .error then .error else .closed

/-- Whether a capacity admits a length; `none` is `INF` (R7, R8). -/
def fits (cap : Option Nat) (n : Nat) : Bool :=
  match cap with
  | none => true
  | some c => decide (n ≤ c)

/-- How many of `n` offered bytes FEED accepts (R160). -/
def feedCount (rxcap : Option Nat) (rxlen n : Nat) : Nat :=
  match rxcap with
  | none => n
  | some c => min n (c - rxlen)

/-- The status registers 0 to 6 (R26 to R30) as the host reads them. -/
structure Status where
  /-- Register 0. -/
  phase : BitVec 3
  /-- Register 1. -/
  flags : BitVec 4
  /-- Register 2. -/
  peerVersion : Word32
  /-- Register 3. -/
  peerServices : Word64
  /-- Register 4. -/
  errSeen : BitVec 7
  /-- Register 5. -/
  rxlen : Nat
  /-- Register 6. -/
  magic : List Byte
  deriving DecidableEq, Repr

/-- `RXLEN`, the length of `RX` (R30). -/
def State.rxlen (s : State) : Nat := s.mem.rx.length

/-- The `STATUS` channel: readable at any operation boundary, without side effect (R40). -/
def State.status (s : State) : Status :=
  { phase := s.phase.code
    flags := s.flags.word
    peerVersion := s.peerVersion
    peerServices := s.peerServices
    errSeen := s.errSeen
    rxlen := s.rxlen
    magic := s.cfg.magic }

end Sys2Proof.Machine
end

