-- ==== Sys2Proof/Decode.lean ====
section
/-! DEFINITION. Decoding and encoding: byte order (`spec/00_scope.md` R14), reads of a byte space
(`spec/20_memory.md` R65), the three instruction formats VI, MH and OP (`spec/30_encoding.md`) and
the wire layouts of transactions and blocks. Decoding is total and rejects by name; the encoders,
written from the same tables, follow the decoders. -/

namespace Sys2Proof

/-! ### Byte order and reads -/

/-- `LE(b)`: the first byte is least significant (R14). -/
def leNat : List Byte → Nat
  | [] => 0
  | b :: bs => b.toNat + 256 * leNat bs

/-- `BE(b)`: the first byte is most significant (R14). -/
def beNat (b : List Byte) : Nat := leNat b.reverse

/-- `LEbytes_n(v)`, for `v < 256^n` (R14). -/
def leBytes : Nat → Nat → List Byte
  | 0, _ => []
  | n + 1, v => BitVec.ofNat 8 v :: leBytes n (v / 256)

/-- `BEbytes_n(v)`, for `v < 256^n` (R14). -/
def beBytes (n v : Nat) : List Byte := (leBytes n v).reverse

/-- `MemRead(S:a, n)`, the bytes `S[a]` to `S[a+n-1]`; defined only when `a + n <= len(S)` (R65). -/
def memRead (space : List Byte) (a n : Nat) : Option (List Byte) :=
  if a + n ≤ space.length then some ((space.drop a).take n) else none

/-! ### Command names (R96, R97). The letters are ASCII codes, as R97 lists them. -/

/-- The name followed by zero bytes up to 12 (R97). -/
def pad12 (name : List Byte) : List Byte := name ++ List.replicate (12 - name.length) 0

/-- The command field with its trailing zero bytes, and only those, removed (R96). -/
def commandName (field : List Byte) : List Byte := (field.reverse.dropWhile (· == 0)).reverse

/-- "version". -/
def nameVersion : List Byte := [0x76, 0x65, 0x72, 0x73, 0x69, 0x6f, 0x6e]
/-- "verack". -/
def nameVerack : List Byte := [0x76, 0x65, 0x72, 0x61, 0x63, 0x6b]
/-- "block". -/
def nameBlock : List Byte := [0x62, 0x6c, 0x6f, 0x63, 0x6b]
/-- "tx". -/
def nameTx : List Byte := [0x74, 0x78]

/-- The handling a 12-byte command field selects, compared whole, byte for byte (R97, R191). -/
def selectCommand (c : List Byte) : MsgKind :=
  if c = pad12 nameVersion then .version
  else if c = pad12 nameVerack then .verack
  else if c = pad12 nameBlock then .block
  else if c = pad12 nameTx then .tx
  else .unknown

/-! ### Decoders -/

/-- Why a word is rejected. -/
inductive DecodeError where
  /-- No byte where a VarInt should begin (R131). -/
  | noFirstByte
  /-- Fewer body bytes than the first byte of a VarInt demands (R131). -/
  | bodyCut
  /-- Fewer than the 24 header bytes (R163). -/
  | headerShort
  /-- The header's magic is not `MAGIC` (R112 c). -/
  | wrongMagic
  /-- Fewer payload bytes than the header declares (R163). -/
  | payloadShort
  /-- The operand's shape is not the one R41 gives the operation code. -/
  | operandShape
  deriving DecidableEq, Repr

/-- How many body bytes follow the first byte of a VarInt (R91, R131). -/
def viBodyLen (p : Byte) : Nat :=
  if p.toNat ≤ 0xFC then 0
  else if p.toNat = 0xFD then 2
  else if p.toNat = 0xFE then 4
  else 8

/-- The form a first byte and its body make (R91); the body is little-endian (R66). -/
def viForm (p : Byte) (body : List Byte) : ViForm :=
  if p.toNat ≤ 0xFC then .vi1 p
  else if p.toNat = 0xFD then .vi3 (BitVec.ofNat 16 (leNat body))
  else if p.toNat = 0xFE then .vi5 (BitVec.ofNat 32 (leNat body))
  else .vi9 (BitVec.ofNat 64 (leNat body))

/-- The VarInt a form stands for: the value zero-extended to 64 bits, and the width (R91, R93). -/
def viValue : ViForm → VarInt
  | .vi1 p => ⟨p.setWidth 64, 1⟩
  | .vi3 b => ⟨b.setWidth 64, 3⟩
  | .vi5 b => ⟨b.setWidth 64, 5⟩
  | .vi9 b => ⟨b, 9⟩

/-- Format VI: the form at the head of a byte sequence, and what follows it. -/
def decodeVi : List Byte → Except DecodeError (ViForm × List Byte)
  | [] => .error .noFirstByte
  | p :: rest =>
    if rest.length < viBodyLen p then .error .bodyCut
    else .ok (viForm p (rest.take (viBodyLen p)), rest.drop (viBodyLen p))

/-- `ParseHeader` (R162): the four fields of the 24 bytes at the head of `rx`; `none` when fewer
than 24 bytes are there. -/
def parseHeader (rx : List Byte) : Option Header :=
  match memRead rx 0 4, memRead rx 4 12, memRead rx 16 4, memRead rx 20 4 with
  | some magic, some command, some length, some checksum =>
    some { magic, command, length := BitVec.ofNat 32 (leNat length), checksum }
  | _, _, _, _ => none

/-- The instruction a frame stands for: the row its command field selects (R97, R191). -/
def frameInstr (f : Frame) : Instr :=
  match selectCommand f.command with
  | .version => .msgVersion f.length f.checksum f.payload
  | .verack => .msgVerack f.length f.checksum f.payload
  | .block => .msgBlock f.length f.checksum f.payload
  | .tx => .msgTx f.length f.checksum f.payload
  | .unknown => .msgUnknown f.command f.length f.checksum f.payload

/-- Format MH: the frame at the head of a byte stream, and what follows it. Delimited by the
declared length alone (R98, R115); the checksum is EXTRACT's to verify (R161 line 11). -/
def decodeMh (magic : List Byte) (s : List Byte) : Except DecodeError (Instr × List Byte) :=
  match parseHeader s with
  | none => .error .headerShort
  | some h =>
    if h.magic ≠ magic then .error .wrongMagic
    else match memRead s 24 h.length.toNat with
      | none => .error .payloadShort
      | some payload =>
        .ok (frameInstr ⟨h.command, h.length, h.checksum, payload⟩, s.drop (24 + h.length.toNat))

/-- Format OP: the operation code and its operand (R111, R113, R41). An illegal code is itself,
whatever stands beside it (log 11); a legal code with an operand it does not carry is rejected. -/
def decodeOp (w : CmdWord) : Except DecodeError Instr :=
  match w.op.toNat, w.operand with
  | 0x1, .nothing => .ok .connect
  | 0x2, .bytes b => .ok (.feed b)
  | 0x3, .nothing => .ok .extract
  | 0x4, .nothing => .ok .route
  | 0x5, .nothing => .ok .close
  | 0x8, .bytesAt buf offset => .ok (.varint buf offset)
  | 0x9, .bytes buf => .ok (.txdec buf)
  | 0xA, .bytes buf => .ok (.blkdec buf)
  | 0x0, _ => .ok .illegal0
  | 0x6, _ => .ok .illegal6
  | 0x7, _ => .ok .illegal7
  | 0xB, _ => .ok .illegalB
  | 0xC, _ => .ok .illegalC
  | 0xD, _ => .ok .illegalD
  | 0xE, _ => .ok .illegalE
  | 0xF, _ => .ok .illegalF
  | _, _ => .error .operandShape

/-- An encoding, tagged with the format it is written in (R90, R109): VI and MH stand in a byte
stream, OP on the command port. -/
inductive Encoding where
  | vi (s : List Byte)
  | mh (s : List Byte)
  | op (w : CmdWord)
  deriving DecidableEq, Repr

/-- Decoding of any format: the instruction, and the bytes of a stream that follow it. -/
def decode (magic : List Byte) : Encoding → Except DecodeError (Instr × List Byte)
  | .vi s => (decodeVi s).map fun r => (r.1.toInstr, r.2)
  | .mh s => decodeMh magic s
  | .op w => (decodeOp w).map fun i => (i, [])

/-! ### Encoders -/

/-- The bytes of a VarInt form (R91). -/
def encodeVi : ViForm → List Byte
  | .vi1 p => [p]
  | .vi3 b => 0xFD :: leBytes 2 b.toNat
  | .vi5 b => 0xFE :: leBytes 4 b.toNat
  | .vi9 b => 0xFF :: leBytes 8 b.toNat

/-- `VarIntEncode(v)`: the reference encoder, always the smallest width (R133). -/
def varIntEncode (v : Word64) : List Byte :=
  if v.toNat ≤ 0xFC then [BitVec.ofNat 8 v.toNat]
  else if v.toNat ≤ 0xFFFF then 0xFD :: leBytes 2 v.toNat
  else if v.toNat ≤ 0xFFFFFFFF then 0xFE :: leBytes 4 v.toNat
  else 0xFF :: leBytes 8 v.toNat

/-- The wire bytes of a frame (R95, R98, R100): header, then payload. -/
def encodeFrame (magic : List Byte) (f : Frame) : List Byte :=
  magic ++ f.command ++ leBytes 4 f.length.toNat ++ f.checksum ++ f.payload

/-- The encoding of an instruction: R91 for format VI, R95 and R97 for MH, R111 and R113 for OP. -/
def encode (magic : List Byte) : Instr → Encoding
  | .vi1 p => .vi (encodeVi (.vi1 p))
  | .vi3 b => .vi (encodeVi (.vi3 b))
  | .vi5 b => .vi (encodeVi (.vi5 b))
  | .vi9 b => .vi (encodeVi (.vi9 b))
  | .msgVersion n c p => .mh (encodeFrame magic ⟨pad12 nameVersion, n, c, p⟩)
  | .msgVerack n c p => .mh (encodeFrame magic ⟨pad12 nameVerack, n, c, p⟩)
  | .msgBlock n c p => .mh (encodeFrame magic ⟨pad12 nameBlock, n, c, p⟩)
  | .msgTx n c p => .mh (encodeFrame magic ⟨pad12 nameTx, n, c, p⟩)
  | .msgUnknown cmd n c p => .mh (encodeFrame magic ⟨cmd, n, c, p⟩)
  | .connect => .op ⟨0x1, .nothing⟩
  | .feed b => .op ⟨0x2, .bytes b⟩
  | .extract => .op ⟨0x3, .nothing⟩
  | .route => .op ⟨0x4, .nothing⟩
  | .close => .op ⟨0x5, .nothing⟩
  | .varint buf offset => .op ⟨0x8, .bytesAt buf offset⟩
  | .txdec buf => .op ⟨0x9, .bytes buf⟩
  | .blkdec buf => .op ⟨0xA, .bytes buf⟩
  | .illegal0 => .op ⟨0x0, .nothing⟩
  | .illegal6 => .op ⟨0x6, .nothing⟩
  | .illegal7 => .op ⟨0x7, .nothing⟩
  | .illegalB => .op ⟨0xB, .nothing⟩
  | .illegalC => .op ⟨0xC, .nothing⟩
  | .illegalD => .op ⟨0xD, .nothing⟩
  | .illegalE => .op ⟨0xE, .nothing⟩
  | .illegalF => .op ⟨0xF, .nothing⟩

/-! ### Wire layouts of the records the decoders build (R101 to R105), for reference.
A count or a script length may stand in any VarInt form on the wire (R94); these layouts use the
canonical one of `varIntEncode`. -/

/-- A script behind its length VarInt (R101, R102). -/
def scriptBytes (s : List Byte) : List Byte := varIntEncode (BitVec.ofNat 64 s.length) ++ s

/-- `TXIN` (R101). -/
def txInputBytes (i : TxInput) : List Byte :=
  i.prevHash ++ leBytes 4 i.prevIndex.toNat ++ scriptBytes i.script ++ leBytes 4 i.sequence.toNat

/-- `TXOUT` (R102). -/
def txOutputBytes (o : TxOutput) : List Byte :=
  leBytes 8 o.value.toNat ++ scriptBytes o.script

/-- `TX` (R103). -/
def txBytes (t : Transaction) : List Byte :=
  leBytes 4 t.version.toNat ++ varIntEncode (BitVec.ofNat 64 t.inputs.length) ++
    t.inputs.flatMap txInputBytes ++ varIntEncode (BitVec.ofNat 64 t.outputs.length) ++
    t.outputs.flatMap txOutputBytes ++ leBytes 4 t.lockTime.toNat

/-- `BH`, the fixed 80 bytes (R104). -/
def blockHeaderBytes (h : BlockHeader) : List Byte :=
  leBytes 4 h.version.toNat ++ h.prevBlock ++ h.merkleRoot ++ leBytes 4 h.timestamp.toNat ++
    leBytes 4 h.bits.toNat ++ leBytes 4 h.nonce.toNat

/-- `BLK` (R105). -/
def blockBytes (b : Block) : List Byte :=
  blockHeaderBytes b.header ++ varIntEncode (BitVec.ofNat 64 b.txs.length) ++ b.txs.flatMap txBytes

/-! ### Words of the opcode table -/

/-- The operand of zeros of an operation code (R41): an empty byte sequence, offset 0. -/
def zeroOperand (op : BitVec 4) : Operand :=
  match op.toNat with
  | 0x2 => .bytes []
  | 0x8 => .bytesAt [] 0
  | 0x9 => .bytes []
  | 0xA => .bytes []
  | _ => .nothing

/-- A bare word of the opcode table, laid out as the hardware is given it. The table does not say
which format a bare number is in; `tableEncoding` says it (log 9): up to 8 bits a number below 16 is
an operation word (R110) with operands of zeros; else, up to 72 bits, a VarInt whose first byte is
the least significant byte; else the 12-byte command field, first wire byte most significant as
R109 writes it, of a frame with length 0, zero checksum and empty payload. -/
inductive TableWord where
  | op (w : CmdWord)
  | vi (s : List Byte)
  | mh (f : Frame)
  deriving DecidableEq, Repr

/-- See `TableWord`. A VarInt is laid out with exactly the bytes its first byte asks for. -/
def tableEncoding (nbits w : Nat) : TableWord :=
  if nbits ≤ 8 ∧ w < 16 then .op ⟨BitVec.ofNat 4 w, zeroOperand (BitVec.ofNat 4 w)⟩
  else if nbits ≤ 72 then .vi (leBytes (1 + viBodyLen (BitVec.ofNat 8 w)) w)
  else .mh ⟨beBytes 12 w, 0, [0, 0, 0, 0], []⟩

/-- The instruction the decoder reads from a bare word of the opcode table. -/
def decodeTableWord (nbits w : Nat) : Option Instr :=
  match tableEncoding nbits w with
  | .op c => (decodeOp c).toOption
  | .vi s => (decodeVi s).toOption.map fun r => r.1.toInstr
  | .mh f => some (frameInstr f)

end Sys2Proof
end

