-- ==== Sys2Proof/WellFormed.lean ====
section
/-! DEFINITION. Which instructions are well formed: those that some encoding of
`spec/30_encoding.md` stands for. Operations take any operand of the right kind (R41), which their
constructors' types already say. -/

namespace Sys2Proof

/-- The header fields of a frame fit their slots and the payload has the declared length (R95, R98). -/
def frameSized (length : Word32) (checksum payload : List Byte) : Bool :=
  checksum.length == 4 && payload.length == length.toNat

/-- R32 of a whole frame: 12 command bytes, 4 checksum bytes, `len(payload) = length`. -/
def Frame.sized (f : Frame) : Bool :=
  f.command.length == 12 && frameSized f.length f.checksum f.payload

/-- A VI form is well formed when its first byte selects it (R91): VI1 only up to 0xFC. -/
def ViForm.wellFormed : ViForm → Bool
  | .vi1 p => decide (p.toNat ≤ 0xFC)
  | .vi3 _ => true
  | .vi5 _ => true
  | .vi9 _ => true

/-- Well-formedness of an instruction. A MSG_UNKNOWN is one whose 12-byte command field is none of
the four names (R97). -/
def Instr.wellFormed : Instr → Bool
  | .vi1 p => ViForm.wellFormed (.vi1 p)
  | .vi3 _ => true
  | .vi5 _ => true
  | .vi9 _ => true
  | .msgVersion n c p => frameSized n c p
  | .msgVerack n c p => frameSized n c p
  | .msgBlock n c p => frameSized n c p
  | .msgTx n c p => frameSized n c p
  | .msgUnknown cmd n c p =>
    cmd.length == 12 && frameSized n c p && decide (selectCommand cmd = .unknown)
  | .connect => true
  | .feed _ => true
  | .extract => true
  | .route => true
  | .close => true
  | .varint _ _ => true
  | .txdec _ => true
  | .blkdec _ => true
  | .illegal0 => true
  | .illegal6 => true
  | .illegal7 => true
  | .illegalB => true
  | .illegalC => true
  | .illegalD => true
  | .illegalE => true
  | .illegalF => true

/-- Well-formedness of a transaction input: a 32-byte hash and a script a VarInt can count. -/
def TxInput.wellFormed (i : TxInput) : Bool :=
  i.prevHash.length == 32 && decide (i.script.length < 2 ^ 64)

/-- Well-formedness of a transaction output. -/
def TxOutput.wellFormed (o : TxOutput) : Bool := decide (o.script.length < 2 ^ 64)

/-- Well-formedness of a transaction: every count fits a VarInt (R93, R103). -/
def Transaction.wellFormed (t : Transaction) : Bool :=
  decide (t.inputs.length < 2 ^ 64) && decide (t.outputs.length < 2 ^ 64) &&
    t.inputs.all TxInput.wellFormed && t.outputs.all TxOutput.wellFormed

/-- Well-formedness of a block: 32-byte hashes, a count that fits a VarInt (R104, R105). -/
def Block.wellFormed (b : Block) : Bool :=
  b.header.prevBlock.length == 32 && b.header.merkleRoot.length == 32 &&
    decide (b.txs.length < 2 ^ 64) && b.txs.all Transaction.wellFormed

end Sys2Proof
end

