-- ==== Sys2Proof/Machine/Ops.lean ====
section
/-! DEFINITION. The named operations over the state: `emit`, the writes of registers and byte spaces
(`spec/00_scope.md` R15), refusing, taking an error (ONE operation, `spec/60_exceptions.md` R232),
the reset signal, and taking the next event from the host. Nothing is entered by an error, so there
is no return operation (R234). -/

namespace Sys2Proof.Machine

/-- `emit e`: append a record to `OUT` (R15, R36). -/
def State.emit (s : State) (r : Record) : State := { s with out := s.out ++ [r] }

/-- Write the working registers. -/
def State.setX (s : State) (x : Regs) : State := { s with x := x }

/-- `PHASE <- p`. -/
def State.setPhase (s : State) (p : Phase) : State := { s with phase := p }

/-- `FLAGS <- f`. -/
def State.setFlags (s : State) (f : Flags) : State := { s with flags := f }

/-- `FRV <- b`, the other flags unchanged (R27). -/
def State.setFrv (s : State) (b : Bool) : State := { s with flags := { s.flags with frv := b } }

/-- `PEER_VERSION <- v; PEER_SERVICES <- sv; PEERINFO_VALID <- 1` (R28, R192). -/
def State.setPeer (s : State) (v : Word32) (sv : Word64) : State :=
  { s with peerVersion := v, peerServices := sv, flags := { s.flags with peerInfoValid := true } }

/-- Set bits of the sticky `ERRSEEN` (R29). -/
def State.noteErr (s : State) (m : BitVec 7) : State := { s with errSeen := s.errSeen ||| m }

/-- Write `RX`; its writers are `Append`, `DropHead` and CLOSE (R15, R31). -/
def State.setRx (s : State) (b : List Byte) : State := { s with mem := { s.mem with rx := b } }

/-- Load `FR` whole (R32). -/
def State.setFr (s : State) (f : Frame) : State := { s with mem := { s.mem with fr := f } }

/-- Leave `c` pending on the host side. -/
def State.setCmd (s : State) (c : List HostEvent) : State := { s with cmd := c }

/-- `W <- buf; WLEN <- len(buf)`, a whole-space load (R33). -/
def State.loadWindow (s : State) (buf : List Byte) : State :=
  { s with mem := { s.mem with w := buf }, x := { s.x with wlen := buf.length } }

/-- `loadWindow`, and `OFF <- 0`: how a transaction or block decode starts (R24). `BASE`, whose value
between operations is unspecified (R22), starts at 0 too, the one value with which `BASE <= OFF` holds
from the start (R147, log 24). -/
def State.openWindow (s : State) (buf : List Byte) : State :=
  { s with
    mem := { s.mem with w := buf }
    x := { s.x with wlen := buf.length, off := 0, base := 0 } }

/-- `Append(RX, b)` (R15). -/
def State.appendRx (s : State) (b : List Byte) : State := s.setRx (s.mem.rx ++ b)

/-- `DropHead(RX, n)` (R15). -/
def State.dropRx (s : State) (n : Nat) : State := s.setRx (s.mem.rx.drop n)

/-- An operation that is not performed changes nothing but `OUT` (R222). -/
def refuse (reason : RefuseReason) (s : State) : Host.Outcome State Fault Refusal :=
  .next (s.emit (.refused reason))

/-- Whether an error is met by a stand-alone decode or by a session operation: only the latter
writes status registers (R29, R232). -/
inductive Under where
  | standAlone | session
  deriving DecidableEq, Repr

/-- Taking an error, for every kind and operation (R231, R232): under a session operation the
`ERRSEEN` bits are set and a fatal kind makes `PHASE` Error; then the `Err` record is emitted.
Nothing is saved and control goes nowhere (R233). -/
def takeError (u : Under) (e : ErrInfo) (s : State) : State :=
  match u with
  | .standAlone => s.emit (.err e)
  | .session =>
    ((if e.kind.fatal then s.setPhase .error else s).noteErr (errBits e)).emit (.err e)

/-- Noting a kind that is no error: `ERRSEEN` and an `Ignored` record (R197, R220). -/
def noteUnknown (s : State) : State :=
  (s.noteErr (errBit .unknownCommand)).emit (.ignored .unknownCommand)

/-- `rst` asserted between two operations (R261): every piece of state takes its reset value, the
parameters keep theirs. What the host has put on `CMD` after it stays pending (log 8). -/
def assertRst (rest : List HostEvent) (s : State) : State := (State.resetWith s.cfg).setCmd rest

/-- The next thing the instance does: nothing, a reset, or the operation word at the head of `CMD`
(R42, R79). The state is the one the operation starts from. -/
inductive Fetched where
  | idle
  | rst (s : State)
  | op (w : CmdWord) (s : State)
  deriving DecidableEq, Repr

/-- Take the next event from the host. -/
def fetch (s : State) : Fetched :=
  match s.cmd with
  | [] => .idle
  | .rst :: rest => .rst (assertRst rest s)
  | .cmd w :: rest => .op w (s.setCmd rest)

end Sys2Proof.Machine
end

