-- ==== Sys2Proof/Machine/Operands.lean ====
section
/-! DEFINITION. The operand forms of the decoders: the cursor reads of `spec/20_memory.md` R63 and
the VarInt reads of `spec/40_varint.md` R131, R132 and `spec/41_transaction.md` R142. Each takes the
decode window and the working registers, and leaves the registers as the pseudocode does, also when
it raises (`spec/60_exceptions.md` R232). -/

namespace Sys2Proof.Machine

/-- How a decode function ends: with a value, by raising, or by a read outside the window, which the
spec leaves undefined (R65). The working registers stand as the function left them. -/
inductive Decoded (α : Type) where
  | ok (a : α) (x : Regs)
  | raise (e : ErrInfo) (x : Regs)
  | outside (f : Fault)
  deriving DecidableEq, Repr

/-- Sequencing: a `raise` inside a function is propagated to its caller (R15). -/
def Decoded.bind {α β : Type} (d : Decoded α) (k : α → Regs → Decoded β) : Decoded β :=
  match d with
  | .ok a x => k a x
  | .raise e x => .raise e x
  | .outside f => .outside f

/-- `raise TruncatedInput(err_off)`. -/
def truncatedAt (errOff : Nat) : ErrInfo := { kind := .truncatedInput, errOff := errOff }

/-- `raise MalformedVarInt(err_off)`. -/
def malformedAt (errOff : Nat) : ErrInfo := { kind := .malformedVarInt, errOff := errOff }

/-- `ReadBytes(n)`: bounds check, read at the cursor, advance (R63). -/
def readBytes (w : List Byte) (n : Nat) (x : Regs) : Decoded (List Byte) :=
  if x.off + n > x.wlen then .raise (truncatedAt x.off) x
  else match memRead w x.off n with
    | some b => .ok b { x with off := x.off + n }
    | none => .outside (.outsideSpace .w x.off n)

/-- `ReadU32()` (R63). -/
def readU32 (w : List Byte) (x : Regs) : Decoded Word32 :=
  (readBytes w 4 x).bind fun b x => .ok (BitVec.ofNat 32 (leNat b)) x

/-- `ReadU64()` (R63). -/
def readU64 (w : List Byte) (x : Regs) : Decoded Word64 :=
  (readBytes w 8 x).bind fun b x => .ok (BitVec.ofNat 64 (leNat b)) x

/-- `ReadHash()`: 32 bytes in wire order (R63). -/
def readHash (w : List Byte) (x : Regs) : Decoded (List Byte) := readBytes w 32 x

/-- `VAL <- v; WID <- width` (R131). -/
def Regs.setVarInt (x : Regs) (v : VarInt) : Regs :=
  { x with val := v.value, wid := BitVec.ofNat 4 v.width }

/-- `VarIntDecode(o)`: the form at `W:o` (R131). Does not move the cursor; in both failures `err_off`
is the offset of the first byte. -/
def varIntDecode (w : List Byte) (o : Nat) (x : Regs) : Decoded VarInt :=
  if o + 1 > x.wlen then .raise (truncatedAt o) x
  else match memRead w o 1 with
    | none => .outside (.outsideSpace .w o 1)
    | some first =>
      let p : Byte := BitVec.ofNat 8 (leNat first)
      if o + 1 + viBodyLen p > x.wlen then .raise (truncatedAt o) x
      else match memRead w (o + 1) (viBodyLen p) with
        | none => .outside (.outsideSpace .w (o + 1) (viBodyLen p))
        | some body => .ok (viValue (viForm p body)) (x.setVarInt (viValue (viForm p body)))

/-- `ReadVarInt()`: decode at the cursor, then advance by the width (R132). -/
def readVarInt (w : List Byte) (x : Regs) : Decoded Word64 :=
  (varIntDecode w x.off x).bind fun v x => .ok v.value { x with off := x.off + v.width }

/-- `ReadScript()`: a length-prefixed byte string; a length above the bytes that remain is
`MalformedVarInt`, compared on natural numbers (R142). -/
def readScript (w : List Byte) (x : Regs) : Decoded (List Byte) :=
  (readVarInt w x).bind fun n x =>
    if n.toNat > x.wlen - x.off then .raise (malformedAt x.off) x
    else readBytes w n.toNat x

/-- How an operation ends a decode: the registers are written, then the record of the value, or the
error is taken (R130, R140, R150, R195, R196). -/
def finishDecode {α : Type} (u : Under) (record : α → Record) (d : Decoded α) (s : State) :
    Host.Outcome State Fault Refusal :=
  match d with
  | .ok a x => .next ((s.setX x).emit (record a))
  | .raise e x => .next (takeError u e (s.setX x))
  | .outside f => .fault f

end Sys2Proof.Machine
end

