-- ==== Sys2Proof/Machine/Transaction.lean ====
section
/-! DEFINITION. The transaction decoder (`spec/41_transaction.md`): `TxDecode` and operation TXDEC.
The loops are bounded by the bytes that remain: a turn that finds none left raises, and every turn
that does not raise consumes at least 9 bytes (R145), so the bound is never what ends a loop
(log 15; `Sys2Proof.Laws.readInputs_unroll`). -/

namespace Sys2Proof.Machine

/-- One input, in wire order (R101, R141). -/
def readTxInput (w : List Byte) (x : Regs) : Decoded TxInput :=
  (readHash w x).bind fun prevHash x =>
  (readU32 w x).bind fun prevIndex x =>
  (readScript w x).bind fun script x =>
  (readU32 w x).bind fun sequence x =>
  .ok { prevHash, prevIndex, script, sequence } x

/-- One output, in wire order (R102, R141). -/
def readTxOutput (w : List Byte) (x : Regs) : Decoded TxOutput :=
  (readU64 w x).bind fun value x =>
  (readScript w x).bind fun script x =>
  .ok { value, script } x

/-- `while NIN > 0` of `TxDecode` (R141): `NIN` inputs, `NIN` counting down as each is decoded. -/
def readInputs (w : List Byte) : Nat → Regs → Decoded (List TxInput)
  | 0, x => if x.nin = 0 then .ok [] x else .raise (truncatedAt x.off) x
  | fuel + 1, x =>
    if x.nin = 0 then .ok [] x
    else (readTxInput w x).bind fun i x =>
      (readInputs w fuel { x with nin := x.nin - 1 }).bind fun is x => .ok (i :: is) x

/-- `while NOUT > 0` of `TxDecode` (R141). -/
def readOutputs (w : List Byte) : Nat → Regs → Decoded (List TxOutput)
  | 0, x => if x.nout = 0 then .ok [] x else .raise (truncatedAt x.off) x
  | fuel + 1, x =>
    if x.nout = 0 then .ok [] x
    else (readTxOutput w x).bind fun o x =>
      (readOutputs w fuel { x with nout := x.nout - 1 }).bind fun os x => .ok (o :: os) x

/-- `TxDecode()`: the transaction at the cursor and the number of bytes it took (R141). -/
def txDecode (w : List Byte) (x0 : Regs) : Decoded (Transaction × Nat) :=
  (readU32 w { x0 with base := x0.off }).bind fun version x =>
  (readVarInt w x).bind fun nin x =>
  (readInputs w (x.wlen - x.off) { x with nin := nin }).bind fun inputs x =>
  (readVarInt w x).bind fun nout x =>
  (readOutputs w (x.wlen - x.off) { x with nout := nout }).bind fun outputs x =>
  (readU32 w x).bind fun lockTime x =>
  .ok ({ version, inputs, outputs, lockTime }, x.off - x.base) x

/-- The record of a decoded transaction (R37). -/
def txRecord (r : Transaction × Nat) : Record := .entity (.tx r.1) r.2

/-- TXDEC: load the window, decode one transaction from its start (R140). Performed in every phase;
writes no status register; bytes after the transaction are not read (R144). -/
def execTxdec (buf : List Byte) (s : State) : Host.Outcome State Fault Refusal :=
  if fits s.cfg.wcap buf.length then
    finishDecode .standAlone txRecord (txDecode buf (s.openWindow buf).x) (s.openWindow buf)
  else refuse .tooLong s

end Sys2Proof.Machine
end

