-- ==== Sys2Proof/Machine/Block.lean ====
section
/-! DEFINITION. The block decoder (`spec/42_block.md`): `BlockDecode` and operation BLKDEC. -/

namespace Sys2Proof.Machine

/-- The 80 header bytes at their fixed offsets (R104, R151). -/
def readBlockHeader (w : List Byte) : Option BlockHeader :=
  match memRead w 0 4, memRead w 4 32, memRead w 36 32, memRead w 68 4, memRead w 72 4,
    memRead w 76 4 with
  | some version, some prevBlock, some merkleRoot, some timestamp, some bits, some nonce =>
    some
      { version := BitVec.ofNat 32 (leNat version)
        prevBlock
        merkleRoot
        timestamp := BitVec.ofNat 32 (leNat timestamp)
        bits := BitVec.ofNat 32 (leNat bits)
        nonce := BitVec.ofNat 32 (leNat nonce) }
  | _, _, _, _, _, _ => none

/-- What a block reports when transaction `i` raised `e`: the kind `TruncatedInput`, the inner kind
as `cause` (R151, R152). -/
def wrapTxError (i : Nat) (e : ErrInfo) : ErrInfo :=
  { kind := .truncatedInput, errOff := e.errOff, cause := some e.kind, txIndex := some i }

/-- `try TxDecode() on raise ...` of `BlockDecode` (R151). -/
def tryTx (w : List Byte) (i : Nat) (x : Regs) : Decoded Transaction :=
  match txDecode w x with
  | .ok r x => .ok r.1 x
  | .raise e x => .raise (wrapTxError i e) x
  | .outside f => .outside f

/-- `while NTX > 0` of `BlockDecode` (R151), bounded by the bytes that remain (R154, log 15): with
none left the version read of the next transaction is what raises. -/
def readTxs (w : List Byte) : Nat → Nat → Regs → Decoded (List Transaction)
  | 0, i, x =>
    if x.ntx = 0 then .ok [] x
    else .raise (wrapTxError i (truncatedAt x.off)) { x with base := x.off }
  | fuel + 1, i, x =>
    if x.ntx = 0 then .ok [] x
    else (tryTx w i x).bind fun t x =>
      (readTxs w fuel (i + 1) { x with ntx := x.ntx - 1 }).bind fun ts x => .ok (t :: ts) x

/-- `BlockDecode()`: the block at the start of the window and the number of bytes it took (R151). -/
def blockDecode (w : List Byte) (x0 : Regs) : Decoded (Block × Nat) :=
  if x0.wlen < 80 then .raise (truncatedAt 0) x0
  else match readBlockHeader w with
    | none => .outside (.outsideSpace .w 0 80)
    | some header =>
      (readVarInt w { x0 with off := 80 }).bind fun ntx x =>
      (readTxs w (x.wlen - x.off) 0 { x with ntx := ntx }).bind fun txs x =>
      .ok ({ header, txs }, x.off) x

/-- The record of a decoded block (R37). -/
def blockRecord (r : Block × Nat) : Record := .entity (.block r.1) r.2

/-- BLKDEC: load the window, decode one block from its start (R150). Performed in every phase; writes
no status register; bytes after the block are not read (R153). -/
def execBlkdec (buf : List Byte) (s : State) : Host.Outcome State Fault Refusal :=
  if fits s.cfg.wcap buf.length then
    finishDecode .standAlone blockRecord (blockDecode buf (s.openWindow buf).x) (s.openWindow buf)
  else refuse .tooLong s

end Sys2Proof.Machine
end

