-- ==== Sys2Proof/Machine/Checksum.lean ====
section
/-! DEFINITION. The checksum function (`spec/44_checksum_sha256.md` R175 to R184): words are 32-bit
unsigned, addition is modulo `2^32`, bytes and words are big-endian. -/

namespace Sys2Proof.Machine

/-- `rotr(x, n)` (R177). -/
def rotr (x : Word32) (n : Nat) : Word32 := (x >>> n) ||| (x <<< (32 - n))

/-- The eight words of a hash value, or the working words `a` to `h` of a compression (R182). -/
structure HashWords where
  a : Word32
  b : Word32
  c : Word32
  d : Word32
  e : Word32
  f : Word32
  g : Word32
  h : Word32
  deriving DecidableEq, Repr

/-- The initial hash value (R179). -/
def initialHash : HashWords :=
  { a := 0x6a09e667, b := 0xbb67ae85, c := 0x3c6ef372, d := 0xa54ff53a,
    e := 0x510e527f, f := 0x9b05688c, g := 0x1f83d9ab, h := 0x5be0cd19 }

/-- The round constants `K[0]` to `K[63]` (R180), eight per line. -/
def roundConstants : List Word32 :=
  ([0x428a2f98, 0x71374491, 0xb5c0fbcf, 0xe9b5dba5, 0x3956c25b, 0x59f111f1, 0x923f82a4, 0xab1c5ed5] ++
  [0xd807aa98, 0x12835b01, 0x243185be, 0x550c7dc3, 0x72be5d74, 0x80deb1fe, 0x9bdc06a7, 0xc19bf174] ++
  [0xe49b69c1, 0xefbe4786, 0x0fc19dc6, 0x240ca1cc, 0x2de92c6f, 0x4a7484aa, 0x5cb0a9dc, 0x76f988da] ++
  [0x983e5152, 0xa831c66d, 0xb00327c8, 0xbf597fc7, 0xc6e00bf3, 0xd5a79147, 0x06ca6351, 0x14292967] ++
  [0x27b70a85, 0x2e1b2138, 0x4d2c6dfc, 0x53380d13, 0x650a7354, 0x766a0abb, 0x81c2c92e, 0x92722c85] ++
  [0xa2bfe8a1, 0xa81a664b, 0xc24b8b70, 0xc76c51a3, 0xd192e819, 0xd6990624, 0xf40e3585, 0x106aa070] ++
  [0x19a4c116, 0x1e376c08, 0x2748774c, 0x34b0bcb5, 0x391c0cb3, 0x4ed8aa4a, 0x5b9cca4f, 0x682e6ff3] ++
  [0x748f82ee, 0x78a5636f, 0x84c87814, 0x8cc70208, 0x90befffa, 0xa4506ceb, 0xbef9a3f7, 0xc67178f2])

/-- `pad(m)` (R178): 0x80, the least zero bytes that leave the length 56 modulo 64, then the bit
length in 8 bytes. No operation hashes more than `2^32 - 1` bytes, so the bit length fits (log 19). -/
def shaPad (m : List Byte) : List Byte :=
  m ++ [0x80] ++ List.replicate ((119 - m.length % 64) % 64) 0 ++ beBytes 8 (8 * m.length)

/-- The big-endian words of the first `4 * n` bytes (R177, R181). -/
def beWords : Nat → List Byte → List Word32
  | 0, _ => []
  | n + 1, b => BitVec.ofNat 32 (beNat (b.take 4)) :: beWords n (b.drop 4)

/-- `s0` of the message schedule (R181). -/
def scheduleS0 (x : Word32) : Word32 := rotr x 7 ^^^ rotr x 18 ^^^ (x >>> 3)

/-- `s1` of the message schedule (R181). -/
def scheduleS1 (x : Word32) : Word32 := rotr x 17 ^^^ rotr x 19 ^^^ (x >>> 10)

/-- Extend a schedule, newest word first, by `n` words: `w[t] = w[t-16] + s0 + w[t-7] + s1` (R181). -/
def extendSchedule : Nat → List Word32 → List Word32
  | 0, ws => ws
  | n + 1, ws =>
    extendSchedule n
      ((ws.getD 15 0 + scheduleS0 (ws.getD 14 0) + ws.getD 6 0 + scheduleS1 (ws.getD 1 0)) :: ws)

/-- The 64 words of the message schedule of one 64-byte block (R181). -/
def schedule (block : List Byte) : List Word32 :=
  (extendSchedule 48 (beWords 16 block).reverse).reverse

/-- One round of the compression, with constant `k` and schedule word `w` (R182). -/
def shaRound (v : HashWords) (k w : Word32) : HashWords :=
  let s1 := rotr v.e 6 ^^^ rotr v.e 11 ^^^ rotr v.e 25
  let ch := (v.e &&& v.f) ^^^ (~~~ v.e &&& v.g)
  let t1 := v.h + s1 + ch + k + w
  let s0 := rotr v.a 2 ^^^ rotr v.a 13 ^^^ rotr v.a 22
  let maj := (v.a &&& v.b) ^^^ (v.a &&& v.c) ^^^ (v.b &&& v.c)
  let t2 := s0 + maj
  { a := t1 + t2, b := v.a, c := v.b, d := v.c, e := v.d + t1, f := v.e, g := v.f, h := v.g }

/-- The rounds, one constant and one schedule word each, in order (R182). -/
def shaRounds : List Word32 → List Word32 → HashWords → HashWords
  | k :: ks, w :: ws, v => shaRounds ks ws (shaRound v k w)
  | _, _, v => v

/-- `H[i] <- H[i] + v[i]` (R182). -/
def addHash (p v : HashWords) : HashWords :=
  { a := p.a + v.a, b := p.b + v.b, c := p.c + v.c, d := p.d + v.d,
    e := p.e + v.e, f := p.f + v.f, g := p.g + v.g, h := p.h + v.h }

/-- Compression of one 64-byte block (R182). -/
def compress (p : HashWords) (block : List Byte) : HashWords :=
  addHash p (shaRounds roundConstants (schedule block) p)

/-- The first `n` blocks of a padded message, in order (R183). -/
def compressBlocks : Nat → List Byte → HashWords → HashWords
  | 0, _, p => p
  | n + 1, m, p => compressBlocks n (m.drop 64) (compress p (m.take 64))

/-- `BEbytes_4` of the eight words in order (R184). -/
def hashBytes (p : HashWords) : List Byte :=
  [p.a, p.b, p.c, p.d, p.e, p.f, p.g, p.h].flatMap fun w => beBytes 4 w.toNat

/-- `Sha256(m)` (R177 to R184). -/
def sha256 (m : List Byte) : List Byte :=
  hashBytes (compressBlocks ((shaPad m).length / 64) (shaPad m) initialHash)

/-- `Hash256(m) = Sha256(Sha256(m))` (R176). -/
def hash256 (m : List Byte) : List Byte := sha256 (sha256 m)

/-- `Checksum(payload)`, the first four bytes of `Hash256(payload)` (R175). -/
def checksum (payload : List Byte) : List Byte := (hash256 payload).take 4

end Sys2Proof.Machine
end

