-- ==== Sys2Proof/Machine/Framer.lean ====
section
/-! DEFINITION. The message framer (`spec/43_framer.md`): operations FEED and EXTRACT. -/

namespace Sys2Proof.Machine

/-- FEED: append what fits to `RX`; the bytes are not looked at (R160). -/
def execFeed (b : List Byte) (s : State) : Host.Outcome State Fault Refusal :=
  match phaseRefusal s.phase with
  | some r => refuse r s
  | none =>
    let k := feedCount s.cfg.rxcap s.rxlen b.length
    .next ((s.appendRx (b.take k)).emit (.fed k))

/-- An `Err` of the framer: `err_off` is the header offset of the offending field (R223). -/
def framerError (k : ErrKind) (errOff : Nat) : ErrInfo := { kind := k, errOff := errOff }

/-- Lines 9 to 13 of EXTRACT, with the header and the payload read: the frame leaves `RX` whatever its
checksum says (R161, R165). -/
def extractFrame (h : Header) (payload : List Byte) (s : State) : State :=
  let s := s.dropRx (24 + h.length.toNat)
  if checksum payload ≠ h.checksum then takeError .session (framerError .checksumMismatch 20) s
  else
    let f : Frame := { command := h.command, length := h.length, checksum := h.checksum, payload }
    ((s.setFr f).setFrv true).emit (.gotFrame f)

/-- EXTRACT: the tests in the order of R161 and R226; the magic is tested before completeness (R167,
`spec/90_conflicts.md` C1). -/
def execExtract (s : State) : Host.Outcome State Fault Refusal :=
  match phaseRefusal s.phase with
  | some r => refuse r s
  | none =>
    if s.flags.frv then refuse .frameBusy s
    else if s.rxlen < 24 then .next (s.emit .noFrameYet)
    else match parseHeader s.mem.rx with
      | none => .fault (.outsideSpace .rx 0 24)
      | some h =>
        if h.magic ≠ s.cfg.magic then .next (takeError .session (framerError .invalidMagic 0) s)
        else if !fits s.cfg.rxcap (24 + h.length.toNat) then
          .next (takeError .session (framerError .frameTooLarge 16) s)
        else if s.rxlen < 24 + h.length.toNat then .next (s.emit .noFrameYet)
        else match memRead s.mem.rx 24 h.length.toNat with
          | none => .fault (.outsideSpace .rx 24 h.length.toNat)
          | some payload => .next (extractFrame h payload s)

end Sys2Proof.Machine
end

