-- ==== Sys2Proof/Machine/Gate.lean ====
section
/-! DEFINITION. The dispatch gate and the session operations (`spec/45_dispatch_handshake.md`): the
five message forms, CONNECT, ROUTE, CLOSE, and the illegal codes of the command port. A message form
is run by ROUTE on the frame in `FR`; its fields are the instruction's operands (log 17). -/

namespace Sys2Proof.Machine

/-- CONNECT (R190). -/
def execConnect (s : State) : Host.Outcome State Fault Refusal :=
  if s.phase = .init then
    .next (((s.setPhase .versionSent).emit .versionReq).emit .ok)
  else refuse .badPhase s

/-- The end of a handshake frame: `UpdatePhase()` on the flags just written, the requests, then the
`Handshake` record with the phase after the step (R192, R193). -/
def handshakeStep (f : Flags) (requests : List Record) (c : HandshakeCmd) (s : State) : State :=
  let s := (s.setFlags f).setPhase (updatePhase f s.phase)
  let s : State := requests.foldl State.emit s
  s.emit (.handshake c s.phase)

/-- The peer fields in the first 12 bytes of a `version` payload (R28, R106). -/
def readPeer (payload : List Byte) : Option (Word32 × Word64) :=
  match memRead payload 0 4, memRead payload 4 8 with
  | some v, some sv => some (BitVec.ofNat 32 (leNat v), BitVec.ofNat 64 (leNat sv))
  | _, _ => none

/-- Note `gotVersion`, ask for a `verack`, report the handshake step (R192). -/
def finishVersion (s : State) : State :=
  handshakeStep { s.flags with gotVersion := true } [.verackReq] .version s

/-- MSG_VERSION, `RouteVersion()` (R192, R199). -/
def execMsgVersion (length : Word32) (_checksum payload : List Byte) (s : State) :
    Host.Outcome State Fault Refusal :=
  if s.phase = .handshook then .next (s.emit (.ignored .lateHandshake))
  else if 12 ≤ length.toNat then
    match readPeer payload with
    | none => .fault (.outsideSpace .fr 0 12)
    | some p => .next (finishVersion (s.setPeer p.1 p.2))
  else .next (finishVersion s)

/-- MSG_VERACK, `RouteVerack()` (R193, R199): the payload is not looked at. -/
def execMsgVerack (_length : Word32) (_checksum _payload : List Byte) (s : State) :
    Host.Outcome State Fault Refusal :=
  if s.phase = .handshook then .next (s.emit (.ignored .lateHandshake))
  else .next (handshakeStep { s.flags with gotVerack := true } [] .verack s)

/-- MSG_BLOCK, `RouteBlock()` (R195), behind the gate (R198). -/
def execMsgBlock (_length : Word32) (_checksum payload : List Byte) (s : State) :
    Host.Outcome State Fault Refusal :=
  if s.phase = .handshook then
    finishDecode .session blockRecord (blockDecode payload (s.openWindow payload).x)
      (s.openWindow payload)
  else .next (s.emit (.ignored .gated))

/-- MSG_TX, `RouteTx()` (R196), behind the gate (R198). -/
def execMsgTx (_length : Word32) (_checksum payload : List Byte) (s : State) :
    Host.Outcome State Fault Refusal :=
  if s.phase = .handshook then
    finishDecode .session txRecord (txDecode payload (s.openWindow payload).x) (s.openWindow payload)
  else .next (s.emit (.ignored .gated))

/-- MSG_UNKNOWN, `RouteUnknown()` (R197): in every phase, the payload not looked at. -/
def execMsgUnknown (_command : List Byte) (_length : Word32) (_checksum _payload : List Byte)
    (s : State) : Host.Outcome State Fault Refusal :=
  .next (noteUnknown s)

/-- The meaning of the message form that a frame's command field selects (R191). -/
def routeFrame (f : Frame) (s : State) : Host.Outcome State Fault Refusal :=
  match selectCommand f.command with
  | .version => execMsgVersion f.length f.checksum f.payload s
  | .verack => execMsgVerack f.length f.checksum f.payload s
  | .block => execMsgBlock f.length f.checksum f.payload s
  | .tx => execMsgTx f.length f.checksum f.payload s
  | .unknown => execMsgUnknown f.command f.length f.checksum f.payload s

/-- ROUTE: the frame in `FR` is consumed whatever the outcome (R191). -/
def execRoute (s : State) : Host.Outcome State Fault Refusal :=
  match phaseRefusal s.phase with
  | some r => refuse r s
  | none => if s.flags.frv then routeFrame s.mem.fr (s.setFrv false) else refuse .noFrame s

/-- CLOSE: performed in every phase (R200). -/
def execClose (s : State) : Host.Outcome State Fault Refusal :=
  .next ((((s.setPhase (closedPhase s.phase)).setRx []).setFrv false).emit .ok)

/-- An illegal code of the command port: `Refused(IllegalOp)`, nothing else (R113, R203). -/
def illegalOp (s : State) : Host.Outcome State Fault Refusal := refuse .illegalOp s

/-- Code 0x0 (R113). -/
def execIllegal0 (s : State) : Host.Outcome State Fault Refusal := illegalOp s
/-- Code 0x6 (R113). -/
def execIllegal6 (s : State) : Host.Outcome State Fault Refusal := illegalOp s
/-- Code 0x7 (R113). -/
def execIllegal7 (s : State) : Host.Outcome State Fault Refusal := illegalOp s
/-- Code 0xB (R113). -/
def execIllegalB (s : State) : Host.Outcome State Fault Refusal := illegalOp s
/-- Code 0xC (R113). -/
def execIllegalC (s : State) : Host.Outcome State Fault Refusal := illegalOp s
/-- Code 0xD (R113). -/
def execIllegalD (s : State) : Host.Outcome State Fault Refusal := illegalOp s
/-- Code 0xE (R113). -/
def execIllegalE (s : State) : Host.Outcome State Fault Refusal := illegalOp s
/-- Code 0xF (R113). -/
def execIllegalF (s : State) : Host.Outcome State Fault Refusal := illegalOp s

end Sys2Proof.Machine
end

