-- ==== Sys2Proof/Machine/VarInt.lean ====
section
/-! DEFINITION. The VarInt unit (`spec/40_varint.md`): the four wire forms and operation VARINT. -/

namespace Sys2Proof.Machine

/-- What decoding a wire form writes: `VAL` and `WID` (R131). -/
def takeVarInt (f : ViForm) (s : State) : State := s.setX (s.x.setVarInt (viValue f))

/-- VI1: the value is the byte itself, width 1 (R91, R131). -/
def execVi1 (p : Byte) (s : State) : Host.Outcome State Fault Refusal := .next (takeVarInt (.vi1 p) s)

/-- VI3: the 2-byte body, width 3 (R91, R131). -/
def execVi3 (b : BitVec 16) (s : State) : Host.Outcome State Fault Refusal :=
  .next (takeVarInt (.vi3 b) s)

/-- VI5: the 4-byte body, width 5 (R91, R131). -/
def execVi5 (b : Word32) (s : State) : Host.Outcome State Fault Refusal :=
  .next (takeVarInt (.vi5 b) s)

/-- VI9: the 8-byte body, width 9 (R91, R131). -/
def execVi9 (b : Word64) (s : State) : Host.Outcome State Fault Refusal :=
  .next (takeVarInt (.vi9 b) s)

/-- VARINT: load the window, decode at `offset` (R130). Performed in every phase; writes no status
register. -/
def execVarint (buf : List Byte) (offset : Nat) (s : State) : Host.Outcome State Fault Refusal :=
  if fits s.cfg.wcap buf.length then
    finishDecode .standAlone .varIntResult (varIntDecode buf offset (s.loadWindow buf).x)
      (s.loadWindow buf)
  else refuse .tooLong s

end Sys2Proof.Machine
end

