-- ==== Sys2Proof/Machine/Dispatch.lean ====
section
/-! DEFINITION. One arm per row of the opcode table. -/

namespace Sys2Proof.Machine

def exec (i : Instr) (s : State) : Host.Outcome State Fault Refusal :=
  match i with
  | .vi1 p => Sys2Proof.Machine.execVi1 p s
  | .vi3 b => Sys2Proof.Machine.execVi3 b s
  | .vi5 b => Sys2Proof.Machine.execVi5 b s
  | .vi9 b => Sys2Proof.Machine.execVi9 b s
  | .msgVersion n c p => Sys2Proof.Machine.execMsgVersion n c p s
  | .msgVerack n c p => Sys2Proof.Machine.execMsgVerack n c p s
  | .msgBlock n c p => Sys2Proof.Machine.execMsgBlock n c p s
  | .msgTx n c p => Sys2Proof.Machine.execMsgTx n c p s
  | .msgUnknown cmd n c p => Sys2Proof.Machine.execMsgUnknown cmd n c p s
  | .connect => Sys2Proof.Machine.execConnect s
  | .feed b => Sys2Proof.Machine.execFeed b s
  | .extract => Sys2Proof.Machine.execExtract s
  | .route => Sys2Proof.Machine.execRoute s
  | .close => Sys2Proof.Machine.execClose s
  | .varint buf offset => Sys2Proof.Machine.execVarint buf offset s
  | .txdec buf => Sys2Proof.Machine.execTxdec buf s
  | .blkdec buf => Sys2Proof.Machine.execBlkdec buf s
  | .illegal0 => Sys2Proof.Machine.execIllegal0 s
  | .illegal6 => Sys2Proof.Machine.execIllegal6 s
  | .illegal7 => Sys2Proof.Machine.execIllegal7 s
  | .illegalB => Sys2Proof.Machine.execIllegalB s
  | .illegalC => Sys2Proof.Machine.execIllegalC s
  | .illegalD => Sys2Proof.Machine.execIllegalD s
  | .illegalE => Sys2Proof.Machine.execIllegalE s
  | .illegalF => Sys2Proof.Machine.execIllegalF s

end Sys2Proof.Machine
end

