-- ==== Sys2Proof/Machine/Step.lean ====
section
/-! DEFINITION. One step of a session instance: one event of the host, taken whole
(`spec/00_scope.md` R5, `spec/20_memory.md` R72). -/

namespace Sys2Proof.Machine

/-- With nothing pending the instance keeps its state (`spec/60_exceptions.md` R243, log 7); `rst`
resets it; an operation word is decoded and performed. -/
def step (s : State) : Host.Outcome State Fault Refusal :=
  match fetch s with
  | .idle => .next s
  | .rst s' => .next s'
  | .op w s' =>
    match decodeOp w with
    | .ok i => exec i s'
    | .error _ => .refused (.badOperand w)

/-- The state with a bare word of the opcode table placed so that the very next step runs it (log 9):
an operation word goes to the head of `CMD`; a VarInt form is the operand of a VARINT at the head of
`CMD`; a frame goes into `FR`, valid, with a ROUTE at the head of `CMD` and a phase in which ROUTE is
performed. -/
def State.withFetchWord (s : State) (nbits w : Nat) : State :=
  match tableEncoding nbits w with
  | .op c => s.setCmd (.cmd c :: s.cmd)
  | .vi b => s.setCmd (.cmd ⟨0x8, .bytesAt b 0⟩ :: s.cmd)
  | .mh f =>
    (((s.setPhase (if (phaseRefusal s.phase).isSome then .versionSent else s.phase)).setFr f).setFrv
      true).setCmd (.cmd ⟨0x4, .nothing⟩ :: s.cmd)

end Sys2Proof.Machine
end

