-- ==== Sys2Proof/Machine/Data.lean ====
section
/-! DEFINITION. The pseudo-operation DATA (`spec/45_dispatch_handshake.md` R201): the host program of
one inbound data event, over FEED, EXTRACT and ROUTE. It is no operation of the machine: the host
reads each result record from `OUT` and chooses the next operation by it. The turns are counted by a
number that R201's own argument bounds (log 18). -/

namespace Sys2Proof.Machine

/-- The result record of the last operation: it is the last of `OUT` (R36, R37). -/
def State.result (s : State) : Option Record := s.out.getLast?

/-- How the drain loop goes on after an EXTRACT. -/
inductive DrainTurn where
  /-- A frame: route it and go on. -/
  | route
  /-- A dropped frame: go on. -/
  | again
  /-- `None`, a fatal error or a refusal: stop. -/
  | stop
  deriving DecidableEq, Repr

/-- The three cases of R201's loop. -/
def drainTurn : Option Record → DrainTurn
  | some (.gotFrame _) => .route
  | some (.err e) => if e.kind = .checksumMismatch then .again else .stop
  | _ => .stop

/-- The loop of DATA: EXTRACT and ROUTE until nothing more can be taken; with the state, whether a
frame was removed. -/
def drain : Nat → Bool → State → Host.Outcome (State × Bool) Fault Refusal
  | 0, removed, s => .next (s, removed)
  | n + 1, removed, s =>
    match execExtract s with
    | .fault f => .fault f
    | .refused r => .refused r
    | .next s1 =>
      match drainTurn s1.result with
      | .stop => .next (s1, removed)
      | .again => drain n true s1
      | .route =>
        match execRoute s1 with
        | .fault f => .fault f
        | .refused r => .refused r
        | .next s2 => drain n true s2

/-- `DATA b` with at most `n` feeds: feed, drain, and feed the rest if room was made. -/
def dataEvent : Nat → List Byte → State → Host.Outcome State Fault Refusal
  | 0, _, s => .next s
  | n + 1, b, s =>
    match execFeed b s with
    | .fault f => .fault f
    | .refused r => .refused r
    | .next s1 =>
      match s1.result with
      | some (.fed k) =>
        match drain (s1.rxlen / 24 + 1) false s1 with
        | .fault f => .fault f
        | .refused r => .refused r
        | .next (s2, removed) =>
          if k < b.length && removed then dataEvent n (b.drop k) s2 else .next s2
      | _ => .next s1

/-- `DATA b` (R201). -/
def data (b : List Byte) (s : State) : Host.Outcome State Fault Refusal :=
  dataEvent (b.length + 2) b s

/-- `FEED c1; EXTRACT; FEED c2; EXTRACT; ...`, the host program of the re-entrancy law
(`spec/43_framer.md` R164). -/
def pump : List (List Byte) → State → Host.Outcome State Fault Refusal
  | [], s => .next s
  | c :: cs, s =>
    match execFeed c s with
    | .fault f => .fault f
    | .refused r => .refused r
    | .next s1 =>
      match execExtract s1 with
      | .fault f => .fault f
      | .refused r => .refused r
      | .next s2 => pump cs s2

/-- How many bytes the FEEDs among some records accepted in all. -/
def fedBytes : List Record → Nat
  | [] => 0
  | .fed k :: rs => k + fedBytes rs
  | _ :: rs => fedBytes rs

/-- The frames that the EXTRACTs among some records delivered, in order. -/
def deliveredFrames : List Record → List Frame
  | [] => []
  | .gotFrame f :: rs => f :: deliveredFrames rs
  | _ :: rs => deliveredFrames rs

end Sys2Proof.Machine
end

