-- ==== Sys2Proof/Machine/Instances.lean ====
section
/-! DEFINITION. The block of `NSESS` session instances (`spec/00_scope.md` R9, `spec/60_exceptions.md`
R241): copies of the whole state, sharing nothing but the parameters. A step of the block is a step
of one instance, whichever its channels bring it; any interleaving is allowed (U3). -/

namespace Sys2Proof.Machine

/-- The instances right after each one's `rst`, numbered from 0. -/
def resetInstances (c : Config) : List State := List.replicate c.nsess (State.resetWith c)

/-- A step of instance `k`; `none` when there is no such instance. -/
def stepInstance (k : Nat) (h : List State) : Option (Host.Outcome (List State) Fault Refusal) :=
  match h[k]? with
  | none => none
  | some s =>
    match step s with
    | .next s' => some (.next (h.set k s'))
    | .fault f => some (.fault f)
    | .refused r => some (.refused r)

/-- An interleaving: which instance steps, in order. It stops at the first step that is no next. -/
def runInstances : List Nat → List State → Option (List State)
  | [], h => some h
  | k :: ks, h =>
    match stepInstance k h with
    | some (.next h') => runInstances ks h'
    | _ => none

end Sys2Proof.Machine
end

