-- ==== Sys2Proof/Machine/Wire.lean ====
section
/-! DEFINITION. The wire formats as relations between byte sequences and records, written from the
layout tables of `spec/30_encoding.md` R91 and R101 to R105 and independent of the decoders: every
VarInt may stand in any of its forms (R94). The statements about the decoders are in these terms. -/

namespace Sys2Proof.Machine

/-- `b` is a VarInt with value `v`, canonical or not (R91, R94). -/
def ViWire (b : List Byte) (v : Word64) : Prop :=
  ∃ f : ViForm, f.wellFormed = true ∧ b = encodeVi f ∧ (viValue f).value = v

/-- `b` is a VarInt that counts `n` (R93). -/
def CountWire (b : List Byte) (n : Nat) : Prop := ∃ v, ViWire b v ∧ v.toNat = n

/-- `b` is the script `s` behind its length (R101, R102). -/
def ScriptWire (b s : List Byte) : Prop := ∃ l, CountWire l s.length ∧ b = l ++ s

/-- `b` is the input `i` (R101). -/
def TxInWire (b : List Byte) (i : TxInput) : Prop :=
  ∃ sc, ScriptWire sc i.script ∧ i.prevHash.length = 32 ∧
    b = i.prevHash ++ leBytes 4 i.prevIndex.toNat ++ sc ++ leBytes 4 i.sequence.toNat

/-- `b` is the output `o` (R102). -/
def TxOutWire (b : List Byte) (o : TxOutput) : Prop :=
  ∃ sc, ScriptWire sc o.script ∧ b = leBytes 8 o.value.toNat ++ sc

/-- `b` is the items of a list, one after another, each in the format `W` (R103, R105). -/
def ManyWire {α : Type} (W : List Byte → α → Prop) : List Byte → List α → Prop
  | b, [] => b = []
  | b, a :: as => ∃ h t, W h a ∧ ManyWire W t as ∧ b = h ++ t

/-- `b` is the transaction `t` (R103). -/
def TxWire (b : List Byte) (t : Transaction) : Prop :=
  ∃ ci is co os, CountWire ci t.inputs.length ∧ ManyWire TxInWire is t.inputs ∧
    CountWire co t.outputs.length ∧ ManyWire TxOutWire os t.outputs ∧
    b = leBytes 4 t.version.toNat ++ ci ++ is ++ co ++ os ++ leBytes 4 t.lockTime.toNat

/-- `b` is the block `k` (R104, R105). -/
def BlockWire (b : List Byte) (k : Block) : Prop :=
  ∃ c ts, CountWire c k.txs.length ∧ ManyWire TxWire ts k.txs ∧
    k.header.prevBlock.length = 32 ∧ k.header.merkleRoot.length = 32 ∧
    b = blockHeaderBytes k.header ++ c ++ ts

/-- `b` is a sequence of whole frames, each with the configured magic and delimited by its declared
length; those whose checksum matches their payload are, in order, `fs` (R98 to R100). -/
inductive FrameStream (magic : List Byte) : List Byte → List Frame → Prop
  | nil : FrameStream magic [] []
  | valid {f : Frame} {b : List Byte} {fs : List Frame} : f.sized = true →
      f.checksum = checksum f.payload → FrameStream magic b fs →
      FrameStream magic (encodeFrame magic f ++ b) (f :: fs)
  | dropped {f : Frame} {b : List Byte} {fs : List Frame} : f.sized = true →
      f.checksum ≠ checksum f.payload → FrameStream magic b fs →
      FrameStream magic (encodeFrame magic f ++ b) fs

/-! ### Where a transaction decode fails (`spec/41_transaction.md` R149)

`...Cut b k o`: the bytes `b`, from the first of the structure to the end of the window, fail with
kind `k` at offset `o` from the first. -/

/-- No whole VarInt stands at the head of `b` (R135). -/
def NoVi (b : List Byte) : Prop := ∀ f r, ViForm.wellFormed f = true → b ≠ encodeVi f ++ r

/-- A script that fails: its length VarInt is truncated, or declares more than remains (R142). -/
inductive ScriptCut : List Byte → ErrKind → Nat → Prop
  | lengthCut {b : List Byte} : NoVi b → ScriptCut b .truncatedInput 0
  | tooLong {l r : List Byte} {n : Nat} : CountWire l n → r.length < n →
      ScriptCut (l ++ r) .malformedVarInt l.length

/-- An input that fails (R149). -/
inductive TxInCut : List Byte → ErrKind → Nat → Prop
  | hash {b : List Byte} : b.length < 32 → TxInCut b .truncatedInput 0
  | index {h r : List Byte} : h.length = 32 → r.length < 4 → TxInCut (h ++ r) .truncatedInput 32
  | script {h i r : List Byte} {k : ErrKind} {o : Nat} : h.length = 32 → i.length = 4 →
      ScriptCut r k o → TxInCut (h ++ i ++ r) k (36 + o)
  | sequence {h i sc r s : List Byte} : h.length = 32 → i.length = 4 → ScriptWire sc s →
      r.length < 4 → TxInCut (h ++ i ++ sc ++ r) .truncatedInput (36 + sc.length)

/-- An output that fails (R149). -/
inductive TxOutCut : List Byte → ErrKind → Nat → Prop
  | value {b : List Byte} : b.length < 8 → TxOutCut b .truncatedInput 0
  | script {v r : List Byte} {k : ErrKind} {o : Nat} : v.length = 8 → ScriptCut r k o →
      TxOutCut (v ++ r) k (8 + o)

/-- A transaction that fails, in wire order (R149). -/
inductive TxCut : List Byte → ErrKind → Nat → Prop
  | version {b : List Byte} : b.length < 4 → TxCut b .truncatedInput 0
  | inputCount {v r : List Byte} : v.length = 4 → NoVi r → TxCut (v ++ r) .truncatedInput 4
  | input {v ci is r : List Byte} {n : Nat} {l : List TxInput} {k : ErrKind} {o : Nat} :
      v.length = 4 → CountWire ci n → ManyWire TxInWire is l → l.length < n → TxInCut r k o →
      TxCut (v ++ ci ++ is ++ r) k (4 + ci.length + is.length + o)
  | outputCount {v ci is r : List Byte} {l : List TxInput} :
      v.length = 4 → CountWire ci l.length → ManyWire TxInWire is l → NoVi r →
      TxCut (v ++ ci ++ is ++ r) .truncatedInput (4 + ci.length + is.length)
  | output {v ci is co os r : List Byte} {m : Nat} {l : List TxInput} {l' : List TxOutput}
      {k : ErrKind} {o : Nat} :
      v.length = 4 → CountWire ci l.length → ManyWire TxInWire is l → CountWire co m →
      ManyWire TxOutWire os l' → l'.length < m → TxOutCut r k o →
      TxCut (v ++ ci ++ is ++ co ++ os ++ r) k
        (4 + ci.length + is.length + co.length + os.length + o)
  | lockTime {v ci is co os r : List Byte} {l : List TxInput} {l' : List TxOutput} :
      v.length = 4 → CountWire ci l.length → ManyWire TxInWire is l → CountWire co l'.length →
      ManyWire TxOutWire os l' → r.length < 4 →
      TxCut (v ++ ci ++ is ++ co ++ os ++ r) .truncatedInput
        (4 + ci.length + is.length + co.length + os.length)

end Sys2Proof.Machine
end

