-- ==== Sys2Proof/Safety.lean ====
section
/-! DEFINITION. What counts as a safe run, in the words the statements use: a step that answers a next
state, the sizes memory keeps (`spec/10_state.md` R32, R33), and the invariants of R46. -/

namespace Sys2Proof.Machine

/-- The sizes the byte spaces keep: `RX` within its capacity (R31, R46) and the fields of `FR` of
their widths, with as many payload bytes as `FR.length` says (R32). -/
def Memory.wf (c : Config) (m : Memory) : Bool := fits c.rxcap m.rx.length && m.fr.sized

/-- `WLEN = len(W)` (R33). -/
def State.windowWf (s : State) : Bool := s.x.wlen == s.mem.w.length

/-- How many of the two handshake flags are set decides a phase that is not terminal (R46). -/
def phaseMatchesFlags (p : Phase) (f : Flags) : Bool :=
  match p with
  | .init => !f.gotVersion && !f.gotVerack
  | .versionSent => !f.gotVersion && !f.gotVerack
  | .awaitingVerack => f.gotVersion != f.gotVerack
  | .handshook => f.gotVersion && f.gotVerack
  | .closed => true
  | .error => true

/-- `FRV = 1` only in a phase that is neither Init nor terminal (R46). -/
def frvAllowed (p : Phase) (f : Flags) : Bool := !f.frv || (phaseRefusal p).isNone

/-- `ERRSEEN` bit 0 is never set (R29), and bit 3 or 6 only in Error (R46). -/
def errSeenAllowed (p : Phase) (e : BitVec 7) : Bool :=
  !e.getLsbD 0 && (decide (p = .error) || (!e.getLsbD 3 && !e.getLsbD 6))

/-- The invariants of R46 over status registers and buffers, with the sizes of R32 and R33. -/
def State.inv (s : State) : Bool :=
  Memory.wf s.cfg s.mem && s.windowWf && phaseMatchesFlags s.phase s.flags &&
    frvAllowed s.phase s.flags && (!s.flags.peerInfoValid || s.flags.gotVersion) &&
    errSeenAllowed s.phase s.errSeen

/-- The phases in which the session operations are performed (`spec/60_exceptions.md` R235). -/
def Phase.live : Phase → Bool
  | .init => false
  | .versionSent => true
  | .awaitingVerack => true
  | .handshook => true
  | .closed => false
  | .error => false

/-- The cursor invariant `BASE <= OFF <= WLEN` (`spec/41_transaction.md` R147). -/
def Regs.cursorInWindow (x : Regs) : Prop := x.base ≤ x.off ∧ x.off ≤ x.wlen

/-- However a decode function ends, with a value or by raising, the working registers it leaves
satisfy `P`; and it reads nothing outside the window. -/
def Decoded.leaves {α : Type} (P : Regs → Prop) : Decoded α → Prop
  | .ok _ x => P x
  | .raise _ x => P x
  | .outside _ => False

/-- A length is within a capacity, `none` being `INF` (R7, R8). -/
def withinCap (cap : Option Nat) (n : Nat) : Prop := ∀ c, cap = some c → n ≤ c

/-- One byte of a byte space: address `a` of `RX`, of `FR.payload` or of `W` (`spec/20_memory.md`
R60); `none` where the address does not exist. -/
def State.readByte (s : State) (p : Space) (a : Nat) : Option Byte :=
  match p with
  | .rx => s.mem.rx[a]?
  | .fr => s.mem.fr.payload[a]?
  | .w => s.mem.w[a]?

/-- Two states that differ at most in what the spec leaves unspecified between operations: the working
registers, `W`, and `FR` while `FRV = 0` (`spec/93_implementation_defined.md` U10). -/
def sameSpecified (s t : State) : Prop :=
  s.cfg = t.cfg ∧ s.phase = t.phase ∧ s.flags = t.flags ∧ s.peerVersion = t.peerVersion ∧
    s.peerServices = t.peerServices ∧ s.errSeen = t.errSeen ∧ s.mem.rx = t.mem.rx ∧
    s.out = t.out ∧ s.cmd = t.cmd ∧ (s.flags.frv = true → s.mem.fr = t.mem.fr)

/-- The operation the next step performs is `i`. -/
def performs (s : State) (i : Instr) : Prop :=
  ∃ w rest, s.cmd = .cmd w :: rest ∧ decodeOp w = .ok i

/-- The next step is a reset. -/
def resets (s : State) : Prop := ∃ rest, s.cmd = .rst :: rest

/-- An event the host can put to the instance: `rst`, or a word whose operand has the shape R41 gives
its code. -/
def HostEvent.wellFormed : HostEvent → Bool
  | .rst => true
  | .cmd w => (decodeOp w).toOption.isSome

/-- A record is a request record or a result record (R37). -/
def Record.isResult : Record → Bool
  | .versionReq => false
  | .verackReq => false
  | .ok => true
  | .fed _ => true
  | .noFrameYet => true
  | .gotFrame _ => true
  | .handshake _ _ => true
  | .entity _ _ => true
  | .varIntResult _ => true
  | .ignored _ => true
  | .err _ => true
  | .refused _ => true

/-- A step that answers a next state. -/
def answersNext (o : Host.Outcome State Fault Refusal) : Bool :=
  match o with
  | .next _ => true
  | .fault _ => false
  | .refused _ => false

end Sys2Proof.Machine
end

