-- ==== Sys2Proof/Certificates/Slice0/Obligations.lean ====
section
/-! DEFINITION. The statements for the provers. Every statement over all states holds for every value
of the parameters, since they are a field of the state. A next state written out as
`{ s with ... }` is also the frame: every field not named there is as it was. -/

open Sys2Proof Sys2Proof.Machine

/-! ### Encoding -/

/-- Decoding the encoding of a well-formed instruction of any row gives the instruction back, with
every operand it can carry (R91, R95, R97, R111, R113). -/
def Obligations.DecodeInvertsEncode : Prop :=
  ∀ (magic : List Byte) (i : Instr), magic.length = 4 → i.wellFormed = true →
    decode magic (encode magic i) = .ok (i, [])

/-- In a byte stream the end of a VarInt and of a frame is found from the encoding alone, and what
follows is left as it stands (R92, R98, R115). -/
def Obligations.StreamDecodingStopsAtTheEnd : Prop :=
  ∀ (magic t b : List Byte) (i : Instr), magic.length = 4 → i.wellFormed = true →
    (encode magic i = .vi b → decode magic (.vi (b ++ t)) = .ok (i, t)) ∧
    (encode magic i = .mh b → decode magic (.mh (b ++ t)) = .ok (i, t))

/-- No encoding stands for two instructions and none is accepted that no instruction has: what is
decoded is well formed, and its encoding is the bytes that were decoded. On the command port an
illegal code may stand beside any operand (log 11). -/
def Obligations.DecodedWordsReencode : Prop :=
  ∀ (magic s r : List Byte) (w : CmdWord) (i : Instr), magic.length = 4 →
    (decode magic (.vi s) = .ok (i, r) →
      i.wellFormed = true ∧ ∃ b, encode magic i = .vi b ∧ s = b ++ r) ∧
    (decode magic (.mh s) = .ok (i, r) →
      i.wellFormed = true ∧ ∃ b, encode magic i = .mh b ∧ s = b ++ r) ∧
    (decode magic (.op w) = .ok (i, r) →
      i.wellFormed = true ∧ r = [] ∧
        (encode magic i = .op w ∨
          (encode magic i = .op ⟨w.op, .nothing⟩ ∧
            w.op ∈ ([0x0, 0x6, 0x7, 0xB, 0xC, 0xD, 0xE, 0xF] : List (BitVec 4)))))

/-- Words written out from the tables of R91, R97 and R111 decode to the instructions they stand
for. The four command fields are given as bare 96-bit numbers: that such a number is the field of a
frame of length 0, zero checksum and empty payload is the model's choice (log 9). -/
def Obligations.WordsOfTheTablesDecode : Prop :=
  decodeVi [0x2a, 0xfd] = .ok (.vi1 0x2a, [0xfd]) ∧
  decodeVi [0xfd, 0x00, 0x01] = .ok (.vi3 0x0100, []) ∧
  decodeVi [0xfe, 0x78, 0x56, 0x34, 0x12, 0xaa] = .ok (.vi5 0x12345678, [0xaa]) ∧
  decodeVi [0xff, 0x00, 0xf2, 0x05, 0x2a, 0x01, 0x00, 0x00, 0x00] = .ok (.vi9 5000000000, []) ∧
  decodeTableWord 96 0x76657273696f6e0000000000 = some (.msgVersion 0 [0, 0, 0, 0] []) ∧
  decodeTableWord 96 0x76657261636b000000000000 = some (.msgVerack 0 [0, 0, 0, 0] []) ∧
  decodeTableWord 96 0x626c6f636b00000000000000 = some (.msgBlock 0 [0, 0, 0, 0] []) ∧
  decodeTableWord 96 0x747800000000000000000000 = some (.msgTx 0 [0, 0, 0, 0] []) ∧
  decodeOp ⟨0x1, .nothing⟩ = .ok .connect ∧ decodeOp ⟨0x2, .bytes [7]⟩ = .ok (.feed [7]) ∧
  decodeOp ⟨0x3, .nothing⟩ = .ok .extract ∧ decodeOp ⟨0x4, .nothing⟩ = .ok .route ∧
  decodeOp ⟨0x5, .nothing⟩ = .ok .close ∧
  decodeOp ⟨0x8, .bytesAt [7] 1⟩ = .ok (.varint [7] 1) ∧
  decodeOp ⟨0x9, .bytes [7]⟩ = .ok (.txdec [7]) ∧
  decodeOp ⟨0xA, .bytes [7]⟩ = .ok (.blkdec [7]) ∧
  decodeOp ⟨0x0, .nothing⟩ = .ok .illegal0 ∧ decodeOp ⟨0xF, .nothing⟩ = .ok .illegalF

/-- Comparing the 12 bytes of a command field whole with the padded names is comparing the field's
name, its trailing zero bytes removed, with the names (R96, R97). -/
def Obligations.CommandFieldSelectsByTrimmedName : Prop :=
  ∀ c : List Byte, c.length = 12 →
    (selectCommand c = .version ↔ commandName c = nameVersion) ∧
    (selectCommand c = .verack ↔ commandName c = nameVerack) ∧
    (selectCommand c = .block ↔ commandName c = nameBlock) ∧
    (selectCommand c = .tx ↔ commandName c = nameTx) ∧
    (selectCommand c = .unknown ↔
      commandName c ∉ [nameVersion, nameVerack, nameBlock, nameTx])

/-- The table of R91: a first byte up to 0xFC is the value; 0xFD, 0xFE, 0xFF are followed by 2, 4, 8
body bytes whose little-endian number is the value, of whatever size; and the decoder never looks at
what follows. -/
def Obligations.VarIntFormsFollowTheTable : Prop :=
  ∀ (p : Byte) (body t : List Byte),
    (p.toNat ≤ 0xFC →
      ∃ f, decodeVi (p :: t) = .ok (f, t) ∧ (viValue f).value.toNat = p.toNat ∧
        (viValue f).width = 1) ∧
    (((p = 0xFD ∧ body.length = 2) ∨ (p = 0xFE ∧ body.length = 4) ∨ (p = 0xFF ∧ body.length = 8)) →
      ∃ f, decodeVi (p :: body ++ t) = .ok (f, t) ∧ (viValue f).value.toNat = leNat body ∧
        (viValue f).width = 1 + body.length)

/-! ### The VarInt unit -/

/-- The round-trip law R134, whole: the canonical encoding decodes back whatever follows it, and no
encoding of the value is shorter. In the other direction, any encoding, canonical or not, decodes to
its value and its own length; encoding that value again gives the bytes read exactly when they were
the shortest, and something shorter otherwise. -/
def Obligations.VarIntRoundTripIsCanonical : Prop :=
  ∀ (v : Word64) (t : List Byte) (x : Regs),
    (x.wlen = (varIntEncode v ++ t).length →
      varIntDecode (varIntEncode v ++ t) 0 x =
        .ok ⟨v, (varIntEncode v).length⟩
          { x with val := v, wid := BitVec.ofNat 4 (varIntEncode v).length }) ∧
    (∀ b, ViWire b v → (varIntEncode v).length ≤ b.length) ∧
    (∀ b, ViWire b v → x.wlen = (b ++ t).length →
      varIntDecode (b ++ t) 0 x =
        .ok ⟨v, b.length⟩ { x with val := v, wid := BitVec.ofNat 4 b.length } ∧
      (varIntEncode v = (b ++ t).take b.length ↔ ∀ b', ViWire b' v → b.length ≤ b'.length) ∧
      (varIntEncode v ≠ (b ++ t).take b.length → (varIntEncode v).length < b.length))

/-- What decoding each wire form writes: `VAL` and `WID`, nothing else (R93, R131). That a form is
an instruction of its own, run inside a decode, is the model's reading (log 17). What `W` and the
working registers hold afterwards is what the pseudocode leaves in them (R232); R22 leaves it open
between operations (log 6). -/
def Obligations.WireFormsWriteValueAndWidth : Prop :=
  ∀ (s : State) (p : Byte) (b2 : BitVec 16) (b4 : Word32) (b8 : Word64),
    exec (.vi1 p) s = .next { s with x := { s.x with val := p.setWidth 64, wid := 1 } } ∧
    exec (.vi3 b2) s = .next { s with x := { s.x with val := b2.setWidth 64, wid := 3 } } ∧
    exec (.vi5 b4) s = .next { s with x := { s.x with val := b4.setWidth 64, wid := 5 } } ∧
    exec (.vi9 b8) s = .next { s with x := { s.x with val := b8, wid := 9 } }

/-- VARINT on a window in which a form stands at the offset: its value and width are answered,
whatever stands before and after it, in every phase (R130, R131, R135). What `W` and the working
registers hold afterwards is what the pseudocode leaves in them (R232); R22 leaves it open between
operations (log 6). -/
def Obligations.VarintAnswersTheFormAtTheOffset : Prop :=
  ∀ (s : State) (pre t : List Byte) (f : ViForm), f.wellFormed = true →
    withinCap s.cfg.wcap (pre ++ encodeVi f ++ t).length →
    exec (.varint (pre ++ encodeVi f ++ t) pre.length) s =
      .next
        { s with
          mem := { s.mem with w := pre ++ encodeVi f ++ t }
          x := { s.x with
            wlen := (pre ++ encodeVi f ++ t).length
            val := (viValue f).value
            wid := BitVec.ofNat 4 (viValue f).width }
          out := s.out ++ [.varIntResult (viValue f)] }

/-- VARINT raises `TruncatedInput`, at the offset, wherever no whole form stands: at or past the end
of the window, or with the body cut short (R130, R135). Only `W`, `WLEN` and `OUT` change. What `W`
and the working registers hold afterwards is what the pseudocode leaves in them (R232); R22 leaves
it open between operations (log 6). -/
def Obligations.VarintRaisesWhereNoFormStands : Prop :=
  ∀ (s : State) (buf : List Byte) (o : Nat), withinCap s.cfg.wcap buf.length → NoVi (buf.drop o) →
    exec (.varint buf o) s =
      .next
        { s with
          mem := { s.mem with w := buf }
          x := { s.x with wlen := buf.length }
          out := s.out ++
            [.err { kind := .truncatedInput, errOff := o, cause := none, txIndex := none }] }

/-- VARINT runs the instruction that stands at the offset: its next state is that instruction's,
with the result record added (R130, R131). That a form is an instruction of its own, run inside
VARINT, is the model's reading (log 17). What `W` and the working registers hold afterwards is
what the pseudocode leaves in them (R232); R22 leaves it open between operations (log 6). -/
def Obligations.VarintRunsTheDecodedForm : Prop :=
  ∀ (s : State) (buf r : List Byte) (o : Nat) (f : ViForm), withinCap s.cfg.wcap buf.length →
    decodeVi (buf.drop o) = .ok (f, r) →
    ∃ t, exec f.toInstr
          { s with mem := { s.mem with w := buf }, x := { s.x with wlen := buf.length } } = .next t ∧
      exec (.varint buf o) s = .next { t with out := t.out ++ [.varIntResult (viValue f)] }

/-! ### The transaction decoder -/

/-- TXDEC delivers the transaction that stands at the start of its operand, in whatever VarInt forms
its counts and lengths are written, with exactly the bytes it occupies as `consumed`, whatever
follows it (R140, R141, R144). What `W` and the working registers hold afterwards is what the
pseudocode leaves in them (R232); R22 leaves it open between operations (log 6). -/
def Obligations.TxdecDeliversTheTransaction : Prop :=
  ∀ (s : State) (t : Transaction) (b r : List Byte), TxWire b t →
    withinCap s.cfg.wcap (b ++ r).length →
    ∃ x, x.off = b.length ∧
      exec (.txdec (b ++ r)) s =
        .next
          { s with
            mem := { s.mem with w := b ++ r }
            x := x
            out := s.out ++ [.entity (.tx t) b.length] }

/-- TXDEC delivers nothing but what stands on the wire: an `Entity` record means that exactly its
`consumed` first bytes of the operand are the transaction's layout (R35, R103, R144). -/
def Obligations.TxdecDeliversOnlyWireTransactions : Prop :=
  ∀ (s s' : State) (buf : List Byte) (t : Transaction) (c : Nat),
    exec (.txdec buf) s = .next s' → s'.out = s.out ++ [.entity (.tx t) c] →
    ∃ b r, buf = b ++ r ∧ c = b.length ∧ TxWire b t

/-- The table of R149: a window in which the decode fails at a field raises that field's kind at
that field's offset, and delivers nothing. Status registers and the other buffers are as they were.
What `W` and the working registers hold afterwards is what the pseudocode leaves in them (R232); R22
leaves it open between operations (log 6). -/
def Obligations.TxdecRaisesAtTheFirstFailingField : Prop :=
  ∀ (s : State) (buf : List Byte) (k : ErrKind) (o : Nat), TxCut buf k o →
    withinCap s.cfg.wcap buf.length →
    ∃ x, exec (.txdec buf) s =
      .next
        { s with
          mem := { s.mem with w := buf }
          x := x
          out := s.out ++ [.err { kind := k, errOff := o, cause := none, txIndex := none }] }

/-- R149 leaves no case out: every window begins with a transaction or fails at a field. -/
def Obligations.EveryWindowDecodesOrFails : Prop :=
  ∀ buf : List Byte,
    (∃ b r t, buf = b ++ r ∧ TxWire b t) ∨ ∃ k o, TxCut buf k o

/-- The reference layouts of R101 to R105 decode back: a well-formed transaction or block, encoded
with canonical counts, is what TXDEC or BLKDEC delivers, with its length as `consumed`. -/
def Obligations.ReferenceLayoutsDecodeBack : Prop :=
  ∀ (s : State) (t : Transaction) (k : Block) (r : List Byte),
    (t.wellFormed = true → withinCap s.cfg.wcap (txBytes t ++ r).length →
      ∃ s', exec (.txdec (txBytes t ++ r)) s = .next s' ∧
        s'.out = s.out ++ [.entity (.tx t) (txBytes t).length]) ∧
    (k.wellFormed = true → withinCap s.cfg.wcap (blockBytes k ++ r).length →
      ∃ s', exec (.blkdec (blockBytes k ++ r)) s = .next s' ∧
        s'.out = s.out ++ [.entity (.block k) (blockBytes k).length])

/-- The cursor invariant R147, `BASE <= OFF <= WLEN`: every cursor read, `ReadVarInt`, `ReadScript` and
`TxDecode`, started with it, leaves it, whether it answers or raises; and it holds at the end of
TXDEC, BLKDEC and of the routed `tx` and `block` decodes, however they end, with `WLEN` the length of
the bytes decoded. VARINT does not move the cursor (R130), and R147 does not speak of it. That `BASE` is
0 before the first transaction of a block is the model's (log 24); that a message form is an
instruction whose payload is an operand is log 17. What `W` and the working registers hold afterwards
is what the pseudocode leaves in them (R232); R22 leaves it open between operations (log 6). -/
def Obligations.CursorStaysInTheWindow : Prop :=
  (∀ (w : List Byte) (n : Nat) (x : Regs), x.wlen = w.length → x.cursorInWindow →
    (readBytes w n x).leaves Regs.cursorInWindow ∧ (readVarInt w x).leaves Regs.cursorInWindow ∧
    (readScript w x).leaves Regs.cursorInWindow ∧ (txDecode w x).leaves Regs.cursorInWindow) ∧
  ∀ (s : State) (buf c : List Byte) (n : Word32) (i : Instr),
    ((i = .txdec buf ∨ i = .blkdec buf) ∧ withinCap s.cfg.wcap buf.length) ∨
      ((i = .msgTx n c buf ∨ i = .msgBlock n c buf) ∧ s.phase = .handshook) →
    ∃ t, exec i s = .next t ∧ t.x.cursorInWindow ∧ t.x.wlen = buf.length

/-- `ReadScript` (R142): without a whole length VarInt `TruncatedInput` where it would begin; else that
many bytes behind it; and a length above the bytes that remain is `MalformedVarInt` where the script
would begin, the cursor behind the VarInt. -/
def Obligations.ScriptLengthsAreCheckedFirst : Prop :=
  ∀ (w : List Byte) (x : Regs), x.wlen = w.length → x.off ≤ w.length →
    (NoVi (w.drop x.off) →
      readScript w x =
        .raise { kind := .truncatedInput, errOff := x.off, cause := none, txIndex := none } x) ∧
    ∀ (l r : List Byte) (n : Word64), w.drop x.off = l ++ r → ViWire l n →
      (n.toNat ≤ r.length →
        ∃ x', readScript w x = .ok (r.take n.toNat) x' ∧ x'.off = x.off + l.length + n.toNat) ∧
      (r.length < n.toNat →
        ∃ x', readScript w x =
            .raise
              { kind := .malformedVarInt, errOff := x.off + l.length, cause := none, txIndex := none }
              x' ∧
          x'.off = x.off + l.length)

/-! ### The block decoder -/

/-- BLKDEC delivers the block that stands at the start of its operand, with exactly the bytes it
occupies as `consumed`: 80, the width of the count and the transactions' bytes (R150, R151, R153).
What `W` and the working registers hold afterwards is what the pseudocode leaves in them (R232); R22
leaves it open between operations (log 6). -/
def Obligations.BlkdecDeliversTheBlock : Prop :=
  ∀ (s : State) (k : Block) (b r : List Byte), BlockWire b k →
    withinCap s.cfg.wcap (b ++ r).length →
    ∃ x, x.off = b.length ∧
      exec (.blkdec (b ++ r)) s =
        .next
          { s with
            mem := { s.mem with w := b ++ r }
            x := x
            out := s.out ++ [.entity (.block k) b.length] }

/-- BLKDEC delivers nothing but what stands on the wire (R35, R105, R153). -/
def Obligations.BlkdecDeliversOnlyWireBlocks : Prop :=
  ∀ (s s' : State) (buf : List Byte) (k : Block) (c : Nat),
    exec (.blkdec buf) s = .next s' → s'.out = s.out ++ [.entity (.block k) c] →
    ∃ b r, buf = b ++ r ∧ c = b.length ∧ BlockWire b k

/-- R155, before the first transaction: a short header at offset 0, a missing or cut count at 80, no
cause and no index. What `W` and the working registers hold afterwards is what the pseudocode leaves
in them (R232); R22 leaves it open between operations (log 6). -/
def Obligations.ShortBlocksRaiseAtHeaderOrCount : Prop :=
  ∀ (s : State) (buf : List Byte), withinCap s.cfg.wcap buf.length →
    (buf.length < 80 →
      ∃ x, exec (.blkdec buf) s =
        .next
          { s with
            mem := { s.mem with w := buf }
            x := x
            out := s.out ++
              [.err { kind := .truncatedInput, errOff := 0, cause := none, txIndex := none }] }) ∧
    (80 ≤ buf.length → NoVi (buf.drop 80) →
      ∃ x, exec (.blkdec buf) s =
        .next
          { s with
            mem := { s.mem with w := buf }
            x := x
            out := s.out ++
              [.err { kind := .truncatedInput, errOff := 80, cause := none, txIndex := none }] })

/-- R151, R152, R155, inside a transaction: the block fails as a whole with `TruncatedInput`, the
inner kind as cause, the failing transaction's index, and the inner offset counted from the block's
start. What `W` and the working registers hold afterwards is what the pseudocode leaves in them
(R232); R22 leaves it open between operations (log 6). -/
def Obligations.BlocksReportTheInnerFailure : Prop :=
  ∀ (s : State) (hd : BlockHeader) (c ts r : List Byte) (n o : Nat) (txs : List Transaction)
    (k : ErrKind), hd.prevBlock.length = 32 → hd.merkleRoot.length = 32 → CountWire c n →
    ManyWire TxWire ts txs → txs.length < n → TxCut r k o →
    withinCap s.cfg.wcap (blockHeaderBytes hd ++ c ++ ts ++ r).length →
    ∃ x, exec (.blkdec (blockHeaderBytes hd ++ c ++ ts ++ r)) s =
      .next
        { s with
          mem := { s.mem with w := blockHeaderBytes hd ++ c ++ ts ++ r }
          x := x
          out := s.out ++
            [.err
              { kind := .truncatedInput
                errOff := 80 + c.length + ts.length + o
                cause := some k
                txIndex := some txs.length }] }

/-! ### The stand-alone decodes together -/

/-- VARINT, TXDEC and BLKDEC always answer, in every state, with one record, and touch nothing but
their window, the working registers and `OUT`: no status register, and every byte of `RX` and of
`FR` reads as before (R72, R73, R231, R277). What `W` and the working registers hold afterwards is
what the pseudocode leaves in them (R232); R22 leaves it open between operations (log 6). -/
def Obligations.DecodesTouchOnlyTheirWindow : Prop :=
  ∀ (s : State) (buf : List Byte) (o : Nat) (i : Instr),
    i = .varint buf o ∨ i = .txdec buf ∨ i = .blkdec buf →
    ∃ x w r t, exec i s = .next t ∧
      t = { s with x := x, mem := { s.mem with w := w }, out := s.out ++ [r] } ∧
      (withinCap s.cfg.wcap buf.length → ∀ a, t.readByte .w a = buf[a]?) ∧
      (∀ a, t.readByte .rx a = s.readByte .rx a) ∧ (∀ a, t.readByte .fr a = s.readByte .fr a)

/-- The record a stand-alone decode emits is a function of its operand and of `WCAP` alone: neither
the session's state nor what an earlier decode left has any part in it (R22, R73, R148). -/
def Obligations.DecodeResultsDependOnlyOnTheOperand : Prop :=
  ∀ (s1 s2 : State) (buf : List Byte) (o : Nat) (i : Instr),
    i = .varint buf o ∨ i = .txdec buf ∨ i = .blkdec buf → s1.cfg.wcap = s2.cfg.wcap →
    ∃ t1 t2 r, exec i s1 = .next t1 ∧ exec i s2 = .next t2 ∧ t1.out = s1.out ++ [r] ∧
      t2.out = s2.out ++ [r]

/-! ### The framer -/

/-- FEED in a live phase: all bytes with `RXCAP = INF`, else as many as fit, appended in order and
counted (R160). -/
def Obligations.FeedAppendsWhatFits : Prop :=
  ∀ (s : State) (b : List Byte) (k : Nat), s.phase.live = true →
    (s.cfg.rxcap = none → k = b.length) →
    (∀ c, s.cfg.rxcap = some c → k = min b.length (c - s.mem.rx.length)) →
    exec (.feed b) s =
      .next
        { s with
          mem := { s.mem with rx := s.mem.rx ++ b.take k }
          out := s.out ++ [.fed k] }

/-- EXTRACT of a whole frame with the right magic and checksum: the frame goes to `FR` and to the host,
exactly its bytes leave `RX` (R161 lines 9 to 13, R98). -/
def Obligations.ExtractTakesTheWholeFrame : Prop :=
  ∀ (s : State) (f : Frame) (rest : List Byte), s.phase.live = true → s.flags.frv = false →
    s.cfg.magic.length = 4 → f.sized = true → f.checksum = checksum f.payload →
    withinCap s.cfg.rxcap (24 + f.length.toNat) →
    s.mem.rx = encodeFrame s.cfg.magic f ++ rest →
    exec .extract s =
      .next
        { s with
          mem := { s.mem with rx := rest, fr := f }
          flags := { s.flags with frv := true }
          out := s.out ++ [.gotFrame f] }

/-- A wrong checksum drops the frame and keeps the session: exactly the frame's bytes leave `RX`, so
that framing goes on behind it; `ERRSEEN` bit 4 (R161 line 11, R165, R232). -/
def Obligations.ExtractDropsFramesWithWrongChecksum : Prop :=
  ∀ (s : State) (f : Frame) (rest : List Byte), s.phase.live = true → s.flags.frv = false →
    s.cfg.magic.length = 4 → f.sized = true → f.checksum ≠ checksum f.payload →
    withinCap s.cfg.rxcap (24 + f.length.toNat) →
    s.mem.rx = encodeFrame s.cfg.magic f ++ rest →
    exec .extract s =
      .next
        { s with
          mem := { s.mem with rx := rest }
          errSeen := s.errSeen ||| 0x10
          out := s.out ++
            [.err { kind := .checksumMismatch, errOff := 20, cause := none, txIndex := none }] }

/-- A wrong magic ends the session at once, whatever the rest of the header says and however little of
the payload is there; nothing leaves `RX`; `ERRSEEN` bit 3 (R161 line 6, R167, R232). -/
def Obligations.WrongMagicEndsTheSession : Prop :=
  ∀ s : State, s.phase.live = true → s.flags.frv = false → 24 ≤ s.mem.rx.length →
    s.mem.rx.take 4 ≠ s.cfg.magic →
    exec .extract s =
      .next
        { s with
          phase := .error
          errSeen := s.errSeen ||| 0x08
          out := s.out ++
            [.err { kind := .invalidMagic, errOff := 0, cause := none, txIndex := none }] }

/-- With a finite `RXCAP`, a header that declares a frame which can never fit ends the session; nothing
leaves `RX`; `ERRSEEN` bit 6 (R161 line 7, R166, R232). -/
def Obligations.OversizedFramesEndTheSession : Prop :=
  ∀ (s : State) (c : Nat), s.phase.live = true → s.flags.frv = false → 24 ≤ s.mem.rx.length →
    s.mem.rx.take 4 = s.cfg.magic → s.cfg.rxcap = some c →
    c < 24 + leNat ((s.mem.rx.drop 16).take 4) →
    exec .extract s =
      .next
        { s with
          phase := .error
          errSeen := s.errSeen ||| 0x40
          out := s.out ++
            [.err { kind := .frameTooLarge, errOff := 16, cause := none, txIndex := none }] }

/-- The two `None` results change nothing but `OUT`: fewer than 24 bytes, or a header with the right
magic whose payload is not all there (R161 lines 4 and 8, R163). -/
def Obligations.IncompleteFramesWait : Prop :=
  ∀ s : State, s.phase.live = true → s.flags.frv = false →
    (s.mem.rx.length < 24 ∨
      (24 ≤ s.mem.rx.length ∧ s.mem.rx.take 4 = s.cfg.magic ∧
        withinCap s.cfg.rxcap (24 + leNat ((s.mem.rx.drop 16).take 4)) ∧
        s.mem.rx.length < 24 + leNat ((s.mem.rx.drop 16).take 4))) →
    exec .extract s = .next { s with out := s.out ++ [.noFrameYet] }

/-- Every frame EXTRACT delivers is the head of the stream with the configured magic, its payload of
the declared length and its checksum matching (R35, R99). -/
def Obligations.DeliveredFramesAreVerified : Prop :=
  ∀ (s t : State) (f : Frame), exec .extract s = .next t → t.out = s.out ++ [.gotFrame f] →
    f.sized = true ∧ f.checksum = checksum f.payload ∧ t.mem.fr = f ∧
      ∃ m, m = s.cfg.magic ∧ s.mem.rx = encodeFrame m f ++ t.mem.rx

/-- Bytes leave `RX` only from its head, as whole frames with the right magic, or all at CLOSE; and
enter it only at its tail, by FEED: nothing is duplicated, reordered or inserted (R25, R31, R80). -/
def Obligations.BytesLeaveTheBufferOnlyAsFrames : Prop :=
  ∀ (s t : State) (i : Instr), exec i s = .next t →
    t.mem.rx = s.mem.rx ∨
    (∃ b k, i = .feed b ∧ t.mem.rx = s.mem.rx ++ b.take k) ∨
    (i = .close ∧ t.mem.rx = []) ∨
    (i = .extract ∧ ∃ gone, s.mem.rx = gone ++ t.mem.rx ∧ gone.take 4 = s.cfg.magic ∧
      gone.length = 24 + leNat ((gone.drop 16).take 4))

/-- The re-entrancy law R164: a frame fed in any chunks, each followed by an EXTRACT, gives `None`
until its last byte is there and then the frame, the same as fed whole. The last chunk is not empty:
after the frame is complete a further EXTRACT would find it unrouted (log 20). -/
def Obligations.FramerIsReentrant : Prop :=
  ∀ (s : State) (f : Frame) (cs : List (List Byte)) (c : List Byte), s.phase.live = true →
    s.flags.frv = false → s.mem.rx = [] → s.cfg.magic.length = 4 → f.sized = true →
    f.checksum = checksum f.payload → withinCap s.cfg.rxcap (24 + f.length.toNat) → c ≠ [] →
    cs.flatten ++ c = encodeFrame s.cfg.magic f →
    pump (cs ++ [c]) s =
      .next
        { s with
          mem := { s.mem with rx := [], fr := f }
          flags := { s.flags with frv := true }
          out := s.out ++ cs.flatMap (fun d => [.fed d.length, .noFrameYet]) ++
            [.fed c.length, .gotFrame f] }

/-- DATA (R201, R275): what the FEEDs accept is `b` from its first byte on, in order, behind the bytes
that waited in `RX`; what leaves `RX` is whole frames from the head of that stream, those with a
matching checksum delivered in order, the others dropped; and at the end either all of `b` has been
fed, no frame is left unrouted and EXTRACT has answered `None`, or the session has ended in Error.
DATA is the model's counted form of R201's host program (log 18). -/
def Obligations.DataDeliversTheWholeEvent : Prop :=
  ∀ (s : State) (b : List Byte), s.phase.live = true → s.flags.frv = false → s.cfg.wf = true →
    Memory.wf s.cfg s.mem = true →
    ∃ t rs gone, data b s = .next t ∧ t.out = s.out ++ rs ∧
      s.mem.rx ++ b.take (fedBytes rs) = gone ++ t.mem.rx ∧
      FrameStream s.cfg.magic gone (deliveredFrames rs) ∧
      (t.phase = .error ∨
        (t.result = some .noFrameYet ∧ t.flags.frv = false ∧ fedBytes rs = b.length))

/-! ### Refusals -/

/-- The table of R222: in each of these states the operation is not performed, the reason is
reported, the one met first where two apply, and nothing but `OUT` changes. -/
def Obligations.RefusedOperationsChangeOnlyTheTrace : Prop :=
  ∀ (s : State) (b : List Byte) (o : Nat) (i : Instr) (r : RefuseReason),
    (((i = .feed b ∨ i = .extract ∨ i = .route) ∧ s.phase = .init ∧ r = .notConnected) ∨
     ((i = .feed b ∨ i = .extract ∨ i = .route) ∧ (s.phase = .closed ∨ s.phase = .error) ∧
        r = .sessionEnded) ∨
     (i = .extract ∧ s.phase.live = true ∧ s.flags.frv = true ∧ r = .frameBusy) ∨
     (i = .route ∧ s.phase.live = true ∧ s.flags.frv = false ∧ r = .noFrame) ∨
     (i = .connect ∧ s.phase ≠ .init ∧ r = .badPhase) ∨
     ((i = .varint b o ∨ i = .txdec b ∨ i = .blkdec b) ∧ ¬ withinCap s.cfg.wcap b.length ∧
        r = .tooLong)) →
    exec i s = .next { s with out := s.out ++ [.refused r] }

/-- R113: each illegal code of the command port is an instruction of its own, refused in every state
with `IllegalOp`, and changes nothing but `OUT`. R41 gives these codes no operand; that the code alone
names the operation, whatever operand stands beside it, is the model's reading (log 11). -/
def Obligations.IllegalCodesAreRefused : Prop :=
  ∀ p ∈ ([(0x0, .illegal0), (0x6, .illegal6), (0x7, .illegal7), (0xB, .illegalB), (0xC, .illegalC),
      (0xD, .illegalD), (0xE, .illegalE), (0xF, .illegalF)] : List (BitVec 4 × Instr)),
    (∀ o : Operand, decodeOp ⟨p.1, o⟩ = .ok p.2) ∧
    ∀ s : State, exec p.2 s = .next { s with out := s.out ++ [.refused .illegalOp] }

/-! ### The dispatch gate and the session operations -/

/-- CONNECT (R190), code 0x1: in Init it opens the session and asks for a `version` message; in any other phase
it is refused. -/
def Obligations.ConnectOpensTheSession : Prop :=
  decodeOp ⟨0x1, .nothing⟩ = .ok .connect ∧
  ∀ s : State,
    (s.phase = .init →
      exec .connect s =
        .next { s with phase := .versionSent, out := s.out ++ [.versionReq, .ok] }) ∧
    (s.phase ≠ .init → exec .connect s = .next { s with out := s.out ++ [.refused .badPhase] })

/-- CLOSE (R200), code 0x5: Error stays Error, every other phase becomes Closed; `RX` is emptied and an unrouted
frame lost; every other register keeps its value. -/
def Obligations.CloseEndsTheSession : Prop :=
  decodeOp ⟨0x5, .nothing⟩ = .ok .close ∧
  ∀ s : State,
    exec .close s =
      .next
        { s with
          phase := if s.phase = .error then .error else .closed
          mem := { s.mem with rx := [] }
          flags := { s.flags with frv := false }
          out := s.out ++ [.ok] }

/-- ROUTE runs the instruction that the frame in `FR` stands for, with the frame consumed (R97, R191,
R228; that the message rows are instructions whose operands are the frame's fields is log 17). -/
def Obligations.RouteRunsTheFramesInstruction : Prop :=
  ∀ s : State, s.phase.live = true → s.flags.frv = true →
    exec .route s = exec (frameInstr s.mem.fr) { s with flags := { s.flags with frv := false } }

/-- ROUTE of a frame of any command always answers, consumes the frame whatever the outcome, and
leaves `RX`, `FR` and the parameters as they were; the phase stays live (R191, R232). -/
def Obligations.RouteConsumesEveryFrame : Prop :=
  ∀ s : State, s.phase.live = true → s.flags.frv = true → s.mem.fr.sized = true →
    ∃ t, exec .route s = .next t ∧ t.flags.frv = false ∧ t.mem.rx = s.mem.rx ∧
      t.mem.fr = s.mem.fr ∧ t.cfg = s.cfg ∧ t.cmd = s.cmd ∧ t.phase.live = true ∧
      ∃ rs r, t.out = s.out ++ rs ++ [r] ∧ (rs = [] ∨ rs = [.verackReq]) ∧ r.isResult = true

/-- MSG_VERSION before Handshook (R192, R194): the peer fields are recorded from a payload of at least
12 bytes, a shorter one still counts, a `verack` is asked for, and the phase moves by both flags. -/
def Obligations.VersionFramesRecordThePeer : Prop :=
  ∀ (s : State) (n : Word32) (c p : List Byte) (ph : Phase), s.phase ≠ .handshook →
    p.length = n.toNat →
    ph = (if s.flags.gotVerack then .handshook
          else if s.phase = .versionSent then .awaitingVerack else s.phase) →
    (12 ≤ p.length →
      exec (.msgVersion n c p) s =
        .next
          { s with
            peerVersion := BitVec.ofNat 32 (leNat (p.take 4))
            peerServices := BitVec.ofNat 64 (leNat ((p.drop 4).take 8))
            flags := { s.flags with gotVersion := true, peerInfoValid := true }
            phase := ph
            out := s.out ++ [.verackReq, .handshake .version ph] }) ∧
    (p.length < 12 →
      exec (.msgVersion n c p) s =
        .next
          { s with
            flags := { s.flags with gotVersion := true }
            phase := ph
            out := s.out ++ [.verackReq, .handshake .version ph] })

/-- MSG_VERACK before Handshook (R193, R194): the flag, the phase, no request; the payload has no part
in it. -/
def Obligations.VerackFramesAreNoted : Prop :=
  ∀ (s : State) (n : Word32) (c p : List Byte) (ph : Phase), s.phase ≠ .handshook →
    ph = (if s.flags.gotVersion then .handshook
          else if s.phase = .versionSent then .awaitingVerack else s.phase) →
    exec (.msgVerack n c p) s =
      .next
        { s with
          flags := { s.flags with gotVerack := true }
          phase := ph
          out := s.out ++ [.handshake .verack ph] }

/-- Frames that are dropped change nothing but `OUT`: `block` and `tx` before Handshook (R198), `version`
and `verack` in Handshook (R199); an unknown command, in any phase, also sets `ERRSEEN` bit 5 (R197).
That a gated frame is ignored and not queued is the spec's own decision ("Of the three liberties the
document gives, this spec takes "ignored"", R198, D29). -/
def Obligations.DroppedFramesChangeOnlyTheTraceAndErrorMask : Prop :=
  ∀ (s : State) (n : Word32) (cmd c p : List Byte),
    (s.phase ≠ .handshook →
      exec (.msgBlock n c p) s = .next { s with out := s.out ++ [.ignored .gated] } ∧
      exec (.msgTx n c p) s = .next { s with out := s.out ++ [.ignored .gated] }) ∧
    (s.phase = .handshook →
      exec (.msgVersion n c p) s = .next { s with out := s.out ++ [.ignored .lateHandshake] } ∧
      exec (.msgVerack n c p) s = .next { s with out := s.out ++ [.ignored .lateHandshake] }) ∧
    exec (.msgUnknown cmd n c p) s =
      .next { s with errSeen := s.errSeen ||| 0x20, out := s.out ++ [.ignored .unknownCommand] }

/-- In Handshook a `tx` or `block` frame is decoded and delivered (R195, R196): the entity that
stands at the start of its payload, with the bytes it occupies. That a message form is an instruction
with the frame's fields as operands, its window the payload as long as it is (R195 sets `WLEN` from
`FR.length`), is log 17. What `W` and the working registers hold afterwards is what the pseudocode
leaves in them (R232); R22 leaves it open between operations (log 6). -/
def Obligations.RoutedEntitiesAreDelivered : Prop :=
  ∀ (s : State) (n : Word32) (c b r : List Byte) (t : Transaction) (k : Block),
    s.phase = .handshook →
    (TxWire b t →
      ∃ x, exec (.msgTx n c (b ++ r)) s =
        .next
          { s with
            mem := { s.mem with w := b ++ r }
            x := x
            out := s.out ++ [.entity (.tx t) b.length] }) ∧
    (BlockWire b k →
      ∃ x, exec (.msgBlock n c (b ++ r)) s =
        .next
          { s with
            mem := { s.mem with w := b ++ r }
            x := x
            out := s.out ++ [.entity (.block k) b.length] })

/-- In Handshook a frame's decode emits the record that the stand-alone decode of its payload emits
(`WCAP = INF`); it differs only in `ERRSEEN`: bit 1 or 2 for a `tx` error, bit 1, and bit 2 when
that is the cause, for a `block` error (R195, R196, R231, R232). That a message form is an
instruction with the frame's fields as operands, its window the payload as long as it is, is log 17.
What `W` and the working registers hold afterwards is what the pseudocode leaves in them (R232); R22
leaves it open between operations (log 6). -/
def Obligations.RoutedDecodesAgreeWithStandAlone : Prop :=
  ∀ (s : State) (n : Word32) (c p : List Byte), s.phase = .handshook → s.cfg.wcap = none →
    (∃ t r m, exec (.txdec p) s = .next t ∧ t.out = s.out ++ [r] ∧
      exec (.msgTx n c p) s = .next { t with errSeen := s.errSeen ||| m } ∧
      ((∃ e, r = .err e ∧ (e.kind = .truncatedInput ∧ m = 0x02 ∨ e.kind = .malformedVarInt ∧ m = 0x04)) ∨
       (∃ e k, r = .entity e k ∧ m = 0))) ∧
    (∃ t r m, exec (.blkdec p) s = .next t ∧ t.out = s.out ++ [r] ∧
      exec (.msgBlock n c p) s = .next { t with errSeen := s.errSeen ||| m } ∧
      ((∃ e, r = .err e ∧ e.kind = .truncatedInput ∧
          (e.cause = some .malformedVarInt ∧ m = 0x06 ∨ e.cause ≠ some .malformedVarInt ∧ m = 0x02)) ∨
       (∃ e k, r = .entity e k ∧ m = 0)))

/-- R202 (a): a step enters Handshook, from another phase, only as the ROUTE that sets the second of the
two flags: before it one is set, after it both are. -/
def Obligations.HandshookNeedsBothFrames : Prop :=
  ∀ s t : State, s.inv = true → step s = .next t → t.phase = .handshook → s.phase ≠ .handshook →
    performs s .route ∧ s.flags.gotVersion ≠ s.flags.gotVerack ∧ t.flags.gotVersion = true ∧
      t.flags.gotVerack = true

/-- R202 (d) and the MUST NOT of the gate (R198): ROUTE delivers an entity only in Handshook. -/
def Obligations.EntitiesAreRoutedOnlyInHandshook : Prop :=
  ∀ (s t : State) (e : Entity) (c : Nat), exec .route s = .next t →
    t.out = s.out ++ [.entity e c] → s.phase = .handshook

/-- The transitions of R204: a step that changes `PHASE` is one of the listed ones; every other pair
leaves it unchanged. Closed and Error are left by a reset only (R236). -/
def Obligations.PhaseMovesOnlyAsListed : Prop :=
  ∀ s t : State, s.inv = true → step s = .next t → t.phase ≠ s.phase →
    (resets s ∧ t.phase = .init) ∨
    (performs s .connect ∧ s.phase = .init ∧ t.phase = .versionSent) ∨
    (performs s .route ∧ s.phase = .versionSent ∧ t.phase = .awaitingVerack) ∨
    (performs s .route ∧ s.phase = .awaitingVerack ∧ t.phase = .handshook) ∨
    (performs s .extract ∧ s.phase.live = true ∧ t.phase = .error) ∨
    (performs s .close ∧ s.phase ≠ .error ∧ t.phase = .closed)

/-! ### Whole-machine rules -/

/-- `ERRSEEN` is sticky until reset, only EXTRACT and ROUTE set its bits, and no step changes bit 0
(R29). -/
def Obligations.ErrorMaskIsSticky : Prop :=
  ∀ s t : State, step s = .next t → ¬ resets s →
    (∀ k, s.errSeen.getLsbD k = true → t.errSeen.getLsbD k = true) ∧
    (t.errSeen ≠ s.errSeen → performs s .extract ∨ performs s .route) ∧
    t.errSeen.getLsbD 0 = s.errSeen.getLsbD 0

/-- R36, R37, R38: an operation appends exactly one result record to `OUT`, at most one request record
before it, CONNECT's or ROUTE's, and removes nothing; the parameters do not change. -/
def Obligations.EveryOperationEmitsOneResult : Prop :=
  ∀ (s t : State) (i : Instr), performs s i → step s = .next t →
    t.cfg = s.cfg ∧ t.cmd = s.cmd.tail ∧
      ∃ rs r, t.out = s.out ++ rs ++ [r] ∧ r.isResult = true ∧
        (rs = [] ∨ (rs = [.versionReq] ∧ i = .connect) ∨ (rs = [.verackReq] ∧ i = .route))

/-- A step performs the decoded operation at the head of `CMD`, that word taken away; with nothing
there it keeps the state; and with `rst` there it resets, the parameters kept (R42, R79, R243, R261).
That `CMD` and `rst` are one queue of pending events, and that events behind a reset stay in it, is the
model's choice (logs 7 and 8). So are the values a reset gives to what R45 and R261 leave unspecified:
`x` all 0 (log 3), `FR` the blank frame (log 4), `W` empty (log 5). -/
def Obligations.StepPerformsTheDecodedOperation : Prop :=
  ∀ (s : State) (w : CmdWord) (rest : List HostEvent) (i : Instr),
    (s.cmd = .cmd w :: rest → decodeOp w = .ok i → step s = exec i { s with cmd := rest }) ∧
    (s.cmd = [] → step s = .next s) ∧
    (s.cmd = .rst :: rest → step s = .next { State.resetWith s.cfg with cmd := rest })

/-- The values the spec gives for reset (R45), after `rst` from any state and in `State.reset`. The
registers it leaves unspecified are not spoken of. -/
def Obligations.ResetGivesTheStatedValues : Prop :=
  ∀ s t : State, (resets s ∧ step s = .next t) ∨ t = State.reset →
    t.phase = .init ∧ t.status.phase = 0 ∧ t.status.flags = 0 ∧ t.peerVersion = 0 ∧
      t.peerServices = 0 ∧ t.errSeen = 0 ∧ t.mem.rx = [] ∧ t.rxlen = 0 ∧ t.out = []

/-- The invariants of R46, with the sizes of R32 and R33, hold after reset for all parameters in
their ranges. For `FR`, `W` and `WLEN` this is about the reset values the model names (logs 3 to 5).
-/
def Obligations.ResetMeetsTheInvariants : Prop :=
  ∀ c : Config, c.wf = true → (State.resetWith c).inv = true

/-- The invariants of R46, with the sizes of R32 and R33, are kept by every step. The sizes of `FR`
while no frame is there, and `WLEN = len(W)` between operations, are the model's (log 6). -/
def Obligations.EveryStepKeepsTheInvariants : Prop :=
  ∀ s t : State, s.inv = true → step s = .next t → t.inv = true

/-- No operation reads outside a byte space, and every one ends (R65, R277): from a state that meets the
invariants, on any event a host can put, a step answers a next state. -/
def Obligations.NoStepFaultsOrStops : Prop :=
  ∀ s : State, s.inv = true → (∀ e rest, s.cmd = e :: rest → e.wellFormed = true) →
    answersNext (step s) = true

/-- Nothing rests on what the spec leaves unspecified (R22, R32, R33, U10): two states that differ only
in the working registers, in `W`, or in `FR` while no frame is there, step alike, and what they show is
the same. -/
def Obligations.UnspecifiedStateIsNeverRead : Prop :=
  ∀ s1 s2 t1 : State, sameSpecified s1 s2 → step s1 = .next t1 →
    ∃ t2, step s2 = .next t2 ∧ sameSpecified t1 t2

/-- Instances share nothing (R9, R82, R241): a step of one leaves every other as it was, and steps of
two instances may be taken in either order (the block of instances is a list of states, log 21). -/
def Obligations.InstancesAreIndependent : Prop :=
  ∀ (h h' : List State) (j k : Nat), j ≠ k →
    (stepInstance j h = some (.next h') → h'[k]? = h[k]? ∧ h'.length = h.length) ∧
    (runInstances [j, k] h = some h' → runInstances [k, j] h = some h')

/-- The status registers on `STATUS` (R26 to R30, R40): the phase's number, the flags at bits 0 to 3,
the peer's version and services, the error mask, the length of `RX`, the configured magic. -/
def Obligations.StatusShowsTheRegisters : Prop :=
  ∀ s : State,
    s.status.phase = (match s.phase with
      | .init => 0 | .versionSent => 1 | .awaitingVerack => 2 | .handshook => 3 | .closed => 4
      | .error => 5) ∧
    s.status.flags.getLsbD 0 = s.flags.gotVersion ∧ s.status.flags.getLsbD 1 = s.flags.gotVerack ∧
    s.status.flags.getLsbD 2 = s.flags.peerInfoValid ∧ s.status.flags.getLsbD 3 = s.flags.frv ∧
    s.status.peerVersion = s.peerVersion ∧ s.status.peerServices = s.peerServices ∧
    s.status.errSeen = s.errSeen ∧ s.status.rxlen = s.mem.rx.length ∧ s.status.magic = s.cfg.magic

/-- The examples of R185. -/
def Obligations.ChecksumExamples : Prop :=
  sha256 [] =
    [0xe3, 0xb0, 0xc4, 0x42, 0x98, 0xfc, 0x1c, 0x14, 0x9a, 0xfb, 0xf4, 0xc8, 0x99, 0x6f, 0xb9, 0x24,
     0x27, 0xae, 0x41, 0xe4, 0x64, 0x9b, 0x93, 0x4c, 0xa4, 0x95, 0x99, 0x1b, 0x78, 0x52, 0xb8, 0x55] ∧
  sha256 [0x61, 0x62, 0x63] =
    [0xba, 0x78, 0x16, 0xbf, 0x8f, 0x01, 0xcf, 0xea, 0x41, 0x41, 0x40, 0xde, 0x5d, 0xae, 0x22, 0x23,
     0xb0, 0x03, 0x61, 0xa3, 0x96, 0x17, 0x7a, 0x9c, 0xb4, 0x10, 0xff, 0x61, 0xf2, 0x00, 0x15, 0xad] ∧
  hash256 [] =
    [0x5d, 0xf6, 0xe0, 0xe2, 0x76, 0x13, 0x59, 0xd3, 0x0a, 0x82, 0x75, 0x05, 0x8e, 0x29, 0x9f, 0xcc,
     0x03, 0x81, 0x53, 0x45, 0x45, 0xf5, 0x5c, 0xf4, 0x3e, 0x41, 0x98, 0x3f, 0x5d, 0x4c, 0x94, 0x56] ∧
  checksum [] = [0x5d, 0xf6, 0xe0, 0xe2]

/-- A hash has 32 bytes and a checksum 4, for every message, and the padded message is whole blocks
that begin with the message (R175, R177, R178). -/
def Obligations.HashesHaveTheirSizes : Prop :=
  ∀ m : List Byte, (sha256 m).length = 32 ∧ (checksum m).length = 4 ∧
    (shaPad m).length % 64 = 0 ∧ (shaPad m).length < m.length + 73 ∧ (shaPad m).take m.length = m
end

