-- ==== Sys2Proof/Laws/Decode.lean ====
section
/-! SUPPORT. What the byte-order helpers, the reads and the VarInt forms do, said once. -/

namespace Sys2Proof

@[simp] theorem leBytes_length (n v : Nat) : (leBytes n v).length = n := by
  induction n generalizing v with
  | zero => rfl
  | succ n ih => simp [leBytes, ih]

@[simp] theorem beBytes_length (n v : Nat) : (beBytes n v).length = n := by simp [beBytes]

theorem leNat_lt (b : List Byte) : leNat b < 256 ^ b.length := by
  induction b with
  | nil => simp [leNat]
  | cons a b ih =>
    have := a.isLt
    simp only [leNat, List.length_cons, Nat.pow_succ]
    omega

/-- `LE` inverts `LEbytes_n` on the numbers `n` bytes can hold (R14). -/
theorem leNat_leBytes (n v : Nat) (h : v < 256 ^ n) : leNat (leBytes n v) = v := by
  induction n generalizing v with
  | zero => simp at h; simp [leBytes, leNat, h]
  | succ n ih =>
    have hv : v / 256 < 256 ^ n := by
      rw [Nat.pow_succ] at h
      exact Nat.div_lt_of_lt_mul (by rwa [Nat.mul_comm] at h)
    simp only [leBytes, leNat, ih _ hv, BitVec.toNat_ofNat]
    omega

/-- `LEbytes_n` inverts `LE` on sequences of `n` bytes (R14). -/
theorem leBytes_leNat (b : List Byte) : leBytes b.length (leNat b) = b := by
  induction b with
  | nil => rfl
  | cons a b ih =>
    have ha := a.isLt
    have h1 : (a.toNat + 256 * leNat b) / 256 = leNat b := by omega
    simp only [List.length_cons, leBytes, leNat, h1, ih]
    congr 1
    apply BitVec.eq_of_toNat_eq
    simp only [BitVec.toNat_ofNat]
    omega

@[simp] theorem ofNat_leNat_leBytes2 (b : BitVec 16) :
    BitVec.ofNat 16 (leNat (leBytes 2 b.toNat)) = b := by
  rw [leNat_leBytes _ _ (by have := b.isLt; omega)]; simp

@[simp] theorem ofNat_leNat_leBytes4 (b : Word32) :
    BitVec.ofNat 32 (leNat (leBytes 4 b.toNat)) = b := by
  rw [leNat_leBytes _ _ (by have := b.isLt; omega)]; simp

@[simp] theorem ofNat_leNat_leBytes8 (b : Word64) :
    BitVec.ofNat 64 (leNat (leBytes 8 b.toNat)) = b := by
  rw [leNat_leBytes _ _ (by have := b.isLt; omega)]; simp

/-- Reading `n` bytes as a number and writing them back gives the bytes. -/
theorem leBytes_ofNat_leNat (n : Nat) (w : Nat) (b : List Byte) (hb : b.length = n)
    (hw : 256 ^ n ≤ 2 ^ w) : leBytes n (BitVec.ofNat w (leNat b)).toNat = b := by
  have h := leNat_lt b
  rw [hb] at h
  rw [BitVec.toNat_ofNat, Nat.mod_eq_of_lt (by omega), ← hb, leBytes_leNat]

/-! ### Reads -/

/-- Inside the space a read gives exactly the bytes asked for (R65). -/
theorem memRead_eq_some {w : List Byte} {a n : Nat} (h : a + n ≤ w.length) :
    memRead w a n = some ((w.drop a).take n) := by simp [memRead, h]

/-- Outside the space there is nothing to read (R65). -/
theorem memRead_eq_none {w : List Byte} {a n : Nat} (h : w.length < a + n) :
    memRead w a n = none := by simp [memRead]; omega

/-- What a read that answers answers. -/
theorem memRead_some {w b : List Byte} {a n : Nat} (h : memRead w a n = some b) :
    a + n ≤ w.length ∧ b = (w.drop a).take n ∧ b.length = n := by
  unfold memRead at h
  split at h
  · rename_i hn
    cases h
    exact ⟨hn, rfl, by simp; omega⟩
  · cases h

/-- A read of a part that stands in the middle of the space. -/
theorem memRead_append {p b r : List Byte} {a n : Nat} (ha : p.length = a) (hn : b.length = n) :
    memRead (p ++ b ++ r) a n = some b := by
  subst ha hn
  rw [memRead_eq_some (by simp)]
  simp

/-! ### VarInt forms -/

theorem viBodyLen_vi1 {p : Byte} (h : p.toNat ≤ 0xFC) : viBodyLen p = 0 := by simp [viBodyLen, h]

/-- The width of a form is the number of its bytes (R91). -/
theorem encodeVi_length (f : ViForm) : (encodeVi f).length = (viValue f).width := by
  cases f <;> simp [encodeVi, viValue]

/-- The first byte of a form, its body, and how the two make the form again (R91, R92). -/
theorem encodeVi_split (f : ViForm) (h : f.wellFormed = true) :
    ∃ p body, encodeVi f = p :: body ∧ body.length = viBodyLen p ∧ viForm p body = f ∧
      (viValue f).width = 1 + viBodyLen p := by
  cases f with
  | vi1 p =>
    have hp : p.toNat ≤ 0xFC := by simpa [ViForm.wellFormed] using h
    exact ⟨p, [], rfl, by simp [viBodyLen, hp], by simp [viForm, hp], by simp [viBodyLen, hp, viValue]⟩
  | vi3 b => exact ⟨0xFD, leBytes 2 b.toNat, rfl, by simp [viBodyLen], by simp [viForm], by simp [viBodyLen, viValue]⟩
  | vi5 b => exact ⟨0xFE, leBytes 4 b.toNat, rfl, by simp [viBodyLen], by simp [viForm], by simp [viBodyLen, viValue]⟩
  | vi9 b => exact ⟨0xFF, leBytes 8 b.toNat, rfl, by simp [viBodyLen], by simp [viForm], by simp [viBodyLen, viValue]⟩

/-- A first byte with the body it asks for is the encoding of the form they make (R91). -/
theorem encodeVi_viForm (p : Byte) (body : List Byte) (h : body.length = viBodyLen p) :
    (viForm p body).wellFormed = true ∧ encodeVi (viForm p body) = p :: body := by
  have hp := p.isLt
  unfold viBodyLen at h
  unfold viForm
  split at h
  · rename_i h1
    have hb : body = [] := by simpa using h
    simp [h1, ViForm.wellFormed, encodeVi, hb]
  · rename_i h1
    split at h
    · rename_i h2
      rw [if_neg h1, if_pos h2]
      refine ⟨rfl, ?_⟩
      simp only [encodeVi, leBytes_ofNat_leNat 2 16 body h (by decide)]
      congr 1
      exact (BitVec.eq_of_toNat_eq (by simpa using h2)).symm
    · rename_i h2
      split at h
      · rename_i h3
        rw [if_neg h1, if_neg h2, if_pos h3]
        refine ⟨rfl, ?_⟩
        simp only [encodeVi, leBytes_ofNat_leNat 4 32 body h (by decide)]
        congr 1
        exact (BitVec.eq_of_toNat_eq (by simpa using h3)).symm
      · rename_i h3
        rw [if_neg h1, if_neg h2, if_neg h3]
        refine ⟨rfl, ?_⟩
        simp only [encodeVi, leBytes_ofNat_leNat 8 64 body h (by decide)]
        congr 1
        refine (BitVec.eq_of_toNat_eq ?_).symm
        simp
        omega

/-- The canonical encoding is the encoding of one of the four forms (R133). -/
theorem varIntEncode_form (v : Word64) :
    ∃ f : ViForm, f.wellFormed = true ∧ varIntEncode v = encodeVi f ∧ (viValue f).value = v := by
  have hv := v.isLt
  unfold varIntEncode
  split
  · rename_i h
    refine ⟨.vi1 (BitVec.ofNat 8 v.toNat), ?_, rfl, ?_⟩
    · simp [ViForm.wellFormed]; omega
    · simp only [viValue]
      apply BitVec.eq_of_toNat_eq
      simp; omega
  · split
    · refine ⟨.vi3 (BitVec.ofNat 16 v.toNat), rfl, ?_, ?_⟩
      · simp only [encodeVi, BitVec.toNat_ofNat]; rw [Nat.mod_eq_of_lt (by omega)]
      · simp only [viValue]
        apply BitVec.eq_of_toNat_eq
        simp; omega
    · split
      · refine ⟨.vi5 (BitVec.ofNat 32 v.toNat), rfl, ?_, ?_⟩
        · simp only [encodeVi, BitVec.toNat_ofNat]; rw [Nat.mod_eq_of_lt (by omega)]
        · simp only [viValue]
          apply BitVec.eq_of_toNat_eq
          simp; omega
      · exact ⟨.vi9 v, rfl, by simp [encodeVi], rfl⟩

/-! ### Headers -/

/-- With 24 bytes there is a header, and its byte-string fields have their sizes (R95, R162). -/
theorem parseHeader_some {s : List Byte} (h : 24 ≤ s.length) :
    ∃ hd, parseHeader s = some hd ∧ hd.magic.length = 4 ∧ hd.command.length = 12 ∧
      hd.checksum.length = 4 ∧
      s = hd.magic ++ hd.command ++ leBytes 4 hd.length.toNat ++ hd.checksum ++ s.drop 24 := by
  refine ⟨⟨(s.drop 0).take 4, (s.drop 4).take 12,
    BitVec.ofNat 32 (leNat ((s.drop 16).take 4)), (s.drop 20).take 4⟩, ?_, ?_, ?_, ?_, ?_⟩
  · simp only [parseHeader, memRead_eq_some (show 0 + 4 ≤ s.length by omega),
      memRead_eq_some (show 4 + 12 ≤ s.length by omega),
      memRead_eq_some (show 16 + 4 ≤ s.length by omega),
      memRead_eq_some (show 20 + 4 ≤ s.length by omega)]
  · simp; omega
  · simp; omega
  · simp; omega
  · simp only
    rw [leBytes_ofNat_leNat 4 32 _ (by simp; omega) (by decide)]
    have e1 : s.take 4 ++ s.drop 4 = s := List.take_append_drop 4 s
    have e2 : (s.drop 4).take 12 ++ s.drop 16 = s.drop 4 := by
      simpa using List.take_append_drop 12 (s.drop 4)
    have e3 : (s.drop 16).take 4 ++ s.drop 20 = s.drop 16 := by
      simpa using List.take_append_drop 4 (s.drop 16)
    have e4 : (s.drop 20).take 4 ++ s.drop 24 = s.drop 20 := by
      simpa using List.take_append_drop 4 (s.drop 20)
    simp only [List.append_assoc, List.drop_zero]
    rw [e4, e3, e2, e1]

/-- With fewer than 24 bytes there is none (R163). -/
theorem parseHeader_none {s : List Byte} (h : s.length < 24) : parseHeader s = none := by
  have : memRead s 20 4 = none := memRead_eq_none (by omega)
  unfold parseHeader
  rw [this]
  split
  · simp_all
  · rfl

/-- The header in front of an encoded frame (R95). -/
theorem parseHeader_frame (magic : List Byte) (f : Frame) (r : List Byte) (hm : magic.length = 4)
    (hc : f.command.length = 12) (hk : f.checksum.length = 4) :
    parseHeader (encodeFrame magic f ++ r) =
      some ⟨magic, f.command, f.length, f.checksum⟩ := by
  have l1 : memRead (encodeFrame magic f ++ r) 0 4 = some magic := by
    have := memRead_append (p := []) (b := magic)
      (r := f.command ++ leBytes 4 f.length.toNat ++ f.checksum ++ f.payload ++ r) rfl hm
    simpa [encodeFrame] using this
  have l2 : memRead (encodeFrame magic f ++ r) 4 12 = some f.command := by
    have := memRead_append (p := magic) (b := f.command)
      (r := leBytes 4 f.length.toNat ++ f.checksum ++ f.payload ++ r) hm hc
    simpa [encodeFrame] using this
  have l3 : memRead (encodeFrame magic f ++ r) 16 4 = some (leBytes 4 f.length.toNat) := by
    have := memRead_append (p := magic ++ f.command) (b := leBytes 4 f.length.toNat)
      (r := f.checksum ++ f.payload ++ r) (a := 16) (n := 4) (by simp [hm, hc]) (by simp)
    simpa [encodeFrame] using this
  have l4 : memRead (encodeFrame magic f ++ r) 20 4 = some f.checksum := by
    have := memRead_append (p := magic ++ f.command ++ leBytes 4 f.length.toNat) (b := f.checksum)
      (r := f.payload ++ r) (a := 20) (n := 4) (by simp [hm, hc]) hk
    simpa [encodeFrame] using this
  simp [parseHeader, l1, l2, l3, l4]

theorem encodeFrame_length (magic : List Byte) (f : Frame) (hm : magic.length = 4)
    (hf : f.sized = true) : (encodeFrame magic f).length = 24 + f.length.toNat := by
  simp only [Frame.sized, frameSized, Bool.and_eq_true, beq_iff_eq] at hf
  simp only [encodeFrame, List.length_append, leBytes_length, hm, hf.1, hf.2.1, hf.2.2]

/-- The payload behind the header of an encoded frame (R98). -/
theorem memRead_frame_payload (magic : List Byte) (f : Frame) (r : List Byte) (hm : magic.length = 4)
    (hf : f.sized = true) :
    memRead (encodeFrame magic f ++ r) 24 f.length.toNat = some f.payload := by
  simp only [Frame.sized, frameSized, Bool.and_eq_true, beq_iff_eq] at hf
  have := memRead_append (p := magic ++ f.command ++ leBytes 4 f.length.toNat ++ f.checksum)
    (b := f.payload) (r := r) (a := 24) (n := f.length.toNat)
    (by simp [hm, hf.1, hf.2.1]) hf.2.2
  simpa [encodeFrame] using this

end Sys2Proof
end

