-- ==== Sys2Proof/Laws/Operands.lean ====
section
/-! SUPPORT. The cursor reads, said once: what each can answer (`..._sound`) and that it answers on
the wire layouts it is for (`..._complete`). Later proofs cite these instead of unfolding a read. -/

namespace Sys2Proof.Machine

@[simp] theorem Decoded.bind_ok {α β : Type} (a : α) (x : Regs) (k : α → Regs → Decoded β) :
    (Decoded.ok a x).bind k = k a x := rfl
@[simp] theorem Decoded.bind_raise {α β : Type} (e : ErrInfo) (x : Regs) (k : α → Regs → Decoded β) :
    (Decoded.raise e x).bind k = .raise e x := rfl
@[simp] theorem Decoded.bind_outside {α β : Type} (f : Fault) (k : α → Regs → Decoded β) :
    (Decoded.outside f).bind k = .outside f := rfl

/-- What every read keeps of the working registers, whether it answers or raises: the counters, the
window length and `BASE`; the cursor moves forward only and stays in the window (R24, R147). -/
structure Moved (x x' : Regs) : Prop where
  wlen : x'.wlen = x.wlen
  nin : x'.nin = x.nin
  nout : x'.nout = x.nout
  ntx : x'.ntx = x.ntx
  base : x'.base = x.base
  le : x.off ≤ x'.off
  inside : x'.off ≤ x'.wlen

theorem Moved.refl {x : Regs} (h : x.off ≤ x.wlen) : Moved x x :=
  ⟨rfl, rfl, rfl, rfl, rfl, le_refl _, h⟩

theorem Moved.trans {x y z : Regs} (h : Moved x y) (g : Moved y z) : Moved x z :=
  ⟨g.wlen.trans h.wlen, g.nin.trans h.nin, g.nout.trans h.nout, g.ntx.trans h.ntx,
    g.base.trans h.base, h.le.trans g.le, g.inside⟩

/-- An error of a transaction decode: one of two kinds, with nothing of a block (R140, R223). -/
def PlainError (e : ErrInfo) : Prop :=
  (e.kind = .truncatedInput ∨ e.kind = .malformedVarInt) ∧ e.cause = none ∧ e.txIndex = none

theorem plainError_truncated (o : Nat) : PlainError (truncatedAt o) := ⟨.inl rfl, rfl, rfl⟩
theorem plainError_malformed (o : Nat) : PlainError (malformedAt o) := ⟨.inr rfl, rfl, rfl⟩

/-- A read that answers has passed over exactly the bytes of its layout, and one that raises has not
left the window; no read leaves it. -/
def Sound {α : Type} (W : List Byte → α → Prop) (w : List Byte) (x : Regs) (d : Decoded α) : Prop :=
  match d with
  | .ok a x' => Moved x x' ∧ ∃ b r, w.drop x.off = b ++ r ∧ W b a ∧ x'.off = x.off + b.length
  | .raise e x' => Moved x x' ∧ PlainError e
  | .outside _ => False

/-- A read answers wherever its layout stands at the cursor. -/
def Complete {α : Type} (W : List Byte → α → Prop) (w : List Byte) (x : Regs) (d : Decoded α) : Prop :=
  ∀ a b r, w.drop x.off = b ++ r → W b a →
    ∃ x', d = .ok a x' ∧ Moved x x' ∧ x'.off = x.off + b.length

/-- The registers a read is made with: the window's length in `WLEN`, the cursor inside (R147). -/
structure Ready (w : List Byte) (x : Regs) : Prop where
  wlen : x.wlen = w.length
  off : x.off ≤ w.length

theorem Ready.moved {w : List Byte} {x x' : Regs} (h : Ready w x) (m : Moved x x') : Ready w x' :=
  ⟨m.wlen.trans h.wlen, by have := m.inside; rw [m.wlen, h.wlen] at this; exact this⟩

theorem Ready.refl {w : List Byte} {x : Regs} (h : Ready w x) : Moved x x :=
  Moved.refl (by rw [h.wlen]; exact h.off)

theorem drop_split {w b r : List Byte} {o : Nat} (h : w.drop o = b ++ r) :
    w.drop (o + b.length) = r := by
  rw [← List.drop_drop, h]; simp

theorem drop_split_length {w b r : List Byte} {o : Nat} (ho : o ≤ w.length)
    (h : w.drop o = b ++ r) : o + b.length ≤ w.length := by
  have := congrArg List.length h
  simp at this; omega

/-- Sequencing of sound reads: the layouts are concatenated. -/
theorem Sound.bind {α β : Type} {V : List Byte → α → Prop} {W : α → List Byte → β → Prop}
    {U : List Byte → β → Prop} {w : List Byte} {x : Regs} {d : Decoded α} {k : α → Regs → Decoded β}
    (hx : Ready w x) (hd : Sound V w x d)
    (hk : ∀ a x', Ready w x' → Moved x x' → Sound (W a) w x' (k a x'))
    (hU : ∀ a b1 b2 c, V b1 a → W a b2 c → U (b1 ++ b2) c) :
    Sound U w x (d.bind k) := by
  cases d with
  | ok a x' =>
    obtain ⟨m, b, r, hs, hv, ho⟩ := hd
    have hk := hk a x' (hx.moved m) m
    rw [Decoded.bind_ok]
    cases hka : k a x' with
    | ok c y =>
      rw [hka] at hk
      obtain ⟨m2, b2, r2, hs2, hw, ho2⟩ := hk
      refine ⟨m.trans m2, b ++ b2, r2, ?_, hU a b b2 c hv hw, ?_⟩
      · have := drop_split hs
        rw [← ho, hs2] at this
        rw [hs, ← this, List.append_assoc]
      · rw [ho2, ho, List.length_append]; omega
    | raise e y => rw [hka] at hk; exact ⟨m.trans hk.1, hk.2⟩
    | outside f => rw [hka] at hk; exact hk
  | raise e x' => exact hd
  | outside f => exact hd

/-- The end of a sequence of reads: a value built from what was read, no byte more. -/
theorem Sound.pure {α : Type} {w : List Byte} {x : Regs} (hx : Ready w x) (a : α) :
    Sound (fun b c => b = [] ∧ c = a) w x (.ok a x) :=
  ⟨hx.refl, [], w.drop x.off, rfl, ⟨rfl, rfl⟩, rfl⟩

theorem Sound.weaken {α : Type} {V U : List Byte → α → Prop} {w : List Byte} {x : Regs}
    {d : Decoded α} (h : Sound V w x d) (g : ∀ b a, V b a → U b a) : Sound U w x d := by
  cases d with
  | ok a x' => obtain ⟨m, b, r, hs, hv, ho⟩ := h; exact ⟨m, b, r, hs, g b a hv, ho⟩
  | raise e x' => exact h
  | outside f => exact h

/-- Sequencing of complete reads, for one split of the layout. -/
theorem Complete.step {α β : Type} {V : List Byte → α → Prop} {w : List Byte} {x : Regs}
    {d : Decoded α} (hd : Complete V w x d) {a : α} {b r : List Byte} (hs : w.drop x.off = b ++ r)
    (hv : V b a) (k : α → Regs → Decoded β) :
    ∃ x', d.bind k = k a x' ∧ Moved x x' ∧ x'.off = x.off + b.length ∧ w.drop x'.off = r := by
  obtain ⟨x', he, m, ho⟩ := hd a b r hs hv
  exact ⟨x', by rw [he, Decoded.bind_ok], m, ho, by rw [ho]; exact drop_split hs⟩

/-- A counter that is not 0 counts down without wrapping (R23). -/
theorem toNat_sub_one {v : Word64} (h : v ≠ 0) : (v - 1).toNat = v.toNat - 1 := by bv_omega

theorem toNat_ne_zero {v : Word64} (h : v ≠ 0) : v.toNat ≠ 0 :=
  fun g => h (BitVec.eq_of_toNat_eq (by simpa using g))

/-! ### `ReadBytes` and the fixed-width reads (R63) -/

/-- `ReadBytes(n)` with enough bytes left. -/
theorem readBytes_ok {w : List Byte} {n : Nat} {x : Regs} (hx : Ready w x)
    (h : x.off + n ≤ w.length) :
    readBytes w n x = .ok ((w.drop x.off).take n) { x with off := x.off + n } := by
  have : ¬ x.off + n > x.wlen := by rw [hx.wlen]; omega
  simp [readBytes, this, memRead_eq_some h]

/-- `ReadBytes(n)` with too few. -/
theorem readBytes_raise {w : List Byte} {n : Nat} {x : Regs} (h : x.wlen < x.off + n) :
    readBytes w n x = .raise (truncatedAt x.off) x := by
  simp [readBytes, h]

theorem readBytes_sound {w : List Byte} {x : Regs} (n : Nat) (hx : Ready w x) :
    Sound (fun b a => b = a ∧ a.length = n) w x (readBytes w n x) := by
  by_cases h : x.off + n ≤ w.length
  · rw [readBytes_ok hx h]
    refine ⟨⟨rfl, rfl, rfl, rfl, rfl, Nat.le_add_right .., by rw [hx.wlen]; exact h⟩,
      (w.drop x.off).take n, (w.drop x.off).drop n, (List.take_append_drop ..).symm, ⟨rfl, ?_⟩, ?_⟩
    · simp; omega
    · simp; omega
  · rw [readBytes_raise (by rw [hx.wlen]; omega)]
    exact ⟨hx.refl, plainError_truncated _⟩

theorem readBytes_complete {w : List Byte} {x : Regs} (n : Nat) (hx : Ready w x) :
    Complete (fun b a => b = a ∧ a.length = n) w x (readBytes w n x) := by
  rintro a b r hs ⟨rfl, rfl⟩
  have hl := drop_split_length hx.off hs
  refine ⟨{ x with off := x.off + b.length }, ?_,
    ⟨rfl, rfl, rfl, rfl, rfl, Nat.le_add_right .., ?_⟩, rfl⟩
  · rw [readBytes_ok hx hl, hs]; simp
  · simp only; rw [hx.wlen]; exact hl

theorem readU32_sound {w : List Byte} {x : Regs} (hx : Ready w x) :
    Sound (fun b v => b = leBytes 4 v.toNat) w x (readU32 w x) := by
  refine Sound.bind (W := fun a b c => b = [] ∧ c = BitVec.ofNat 32 (leNat a)) hx
    (readBytes_sound 4 hx) (fun a x' hx' _ => Sound.pure hx' _) ?_
  rintro a _ _ _ ⟨rfl, hl⟩ ⟨rfl, rfl⟩
  rw [leBytes_ofNat_leNat 4 32 _ hl (by decide), List.append_nil]

theorem readU32_complete {w : List Byte} {x : Regs} (hx : Ready w x) :
    Complete (fun b v => b = leBytes 4 v.toNat) w x (readU32 w x) := by
  rintro v b r hs rfl
  obtain ⟨x', he, m, ho, _⟩ := (readBytes_complete 4 hx).step hs ⟨rfl, by simp⟩
    fun b x => Decoded.ok (BitVec.ofNat 32 (leNat b)) x
  exact ⟨x', by rw [readU32, he, ofNat_leNat_leBytes4], m, ho⟩

theorem readU64_sound {w : List Byte} {x : Regs} (hx : Ready w x) :
    Sound (fun b v => b = leBytes 8 v.toNat) w x (readU64 w x) := by
  refine Sound.bind (W := fun a b c => b = [] ∧ c = BitVec.ofNat 64 (leNat a)) hx
    (readBytes_sound 8 hx) (fun a x' hx' _ => Sound.pure hx' _) ?_
  rintro a _ _ _ ⟨rfl, hl⟩ ⟨rfl, rfl⟩
  rw [leBytes_ofNat_leNat 8 64 _ hl (by decide), List.append_nil]

theorem readU64_complete {w : List Byte} {x : Regs} (hx : Ready w x) :
    Complete (fun b v => b = leBytes 8 v.toNat) w x (readU64 w x) := by
  rintro v b r hs rfl
  obtain ⟨x', he, m, ho, _⟩ := (readBytes_complete 8 hx).step hs ⟨rfl, by simp⟩
    fun b x => Decoded.ok (BitVec.ofNat 64 (leNat b)) x
  exact ⟨x', by rw [readU64, he, ofNat_leNat_leBytes8], m, ho⟩

/-! ### `VarIntDecode` and `ReadVarInt` (R131, R132) -/

/-- `VarIntDecode(o)` on a form that stands at `W:o`. -/
theorem varIntDecode_form {w : List Byte} {o : Nat} {x : Regs} (hw : x.wlen = w.length)
    (f : ViForm) (hf : f.wellFormed = true) (r : List Byte) (h : w.drop o = encodeVi f ++ r) :
    varIntDecode w o x = .ok (viValue f) (x.setVarInt (viValue f)) := by
  obtain ⟨p, body, he, hb, hv, _⟩ := encodeVi_split f hf
  rw [he] at h
  have hl := congrArg List.length h
  simp only [List.length_drop, List.length_append, List.length_cons] at hl
  have h1 : memRead w o 1 = some [p] := by
    rw [memRead_eq_some (by omega), h]; simp
  have hp : BitVec.ofNat 8 (leNat [p]) = p := by simp [leNat]
  have h2 : memRead w (o + 1) (viBodyLen p) = some body := by
    rw [memRead_eq_some (by omega), ← List.drop_drop, h, ← hb]
    simp
  have g1 : ¬ o + 1 > x.wlen := by omega
  have g2 : ¬ o + 1 + viBodyLen p > x.wlen := by omega
  simp only [varIntDecode, g1, h1, hp, g2, h2, hv, if_false]

/-- `VarIntDecode(o)` raises exactly when no whole form stands at `W:o` (R135). -/
theorem varIntDecode_raise {w : List Byte} {o : Nat} {x : Regs} (hw : x.wlen = w.length)
    (h : ∀ p rest, w.drop o = p :: rest → rest.length < viBodyLen p) :
    varIntDecode w o x = .raise (truncatedAt o) x := by
  by_cases g1 : o + 1 > x.wlen
  · simp [varIntDecode, g1]
  · obtain ⟨p, rest, hs⟩ : ∃ p rest, w.drop o = p :: rest := by
      cases hd : w.drop o with
      | nil => have := congrArg List.length hd; simp at this; omega
      | cons p rest => exact ⟨p, rest, rfl⟩
    have hl := congrArg List.length hs
    simp only [List.length_drop, List.length_cons] at hl
    have h1 : memRead w o 1 = some [p] := by
      rw [memRead_eq_some (by omega), hs]; simp
    have hp : BitVec.ofNat 8 (leNat [p]) = p := by simp [leNat]
    have g2 : o + 1 + viBodyLen p > x.wlen := by have := h p rest hs; omega
    simp only [varIntDecode, g1, h1, hp, g2, if_false, if_true]

/-- Either a whole form stands at an offset or none does. -/
theorem form_or_cut (s : List Byte) :
    (∃ f r, ViForm.wellFormed f = true ∧ s = encodeVi f ++ r) ∨
      ∀ p rest, s = p :: rest → rest.length < viBodyLen p := by
  cases s with
  | nil => right; intro p rest h; cases h
  | cons p rest =>
    by_cases h : rest.length < viBodyLen p
    · right; rintro p' rest' h'; cases h'; exact h
    · left
      have hl : (rest.take (viBodyLen p)).length = viBodyLen p := by simp; omega
      obtain ⟨hf, he⟩ := encodeVi_viForm p _ hl
      refine ⟨viForm p (rest.take (viBodyLen p)), rest.drop (viBodyLen p), hf, ?_⟩
      rw [he]; simp

theorem readVarInt_sound {w : List Byte} {x : Regs} (hx : Ready w x) :
    Sound ViWire w x (readVarInt w x) := by
  rcases form_or_cut (w.drop x.off) with ⟨f, r, hf, hs⟩ | hcut
  · rw [readVarInt, varIntDecode_form hx.wlen f hf r hs, Decoded.bind_ok]
    have hl := drop_split_length hx.off hs
    rw [encodeVi_length] at hl
    refine ⟨⟨rfl, rfl, rfl, rfl, rfl, Nat.le_add_right .., ?_⟩, encodeVi f, r, hs, ⟨f, hf, rfl, rfl⟩, ?_⟩
    · simp only [Regs.setVarInt]; rw [hx.wlen]; exact hl
    · simp only [Regs.setVarInt]; rw [encodeVi_length]
  · rw [readVarInt, varIntDecode_raise hx.wlen hcut]
    exact ⟨hx.refl, plainError_truncated _⟩

theorem readVarInt_complete {w : List Byte} {x : Regs} (hx : Ready w x) :
    Complete ViWire w x (readVarInt w x) := by
  rintro v b r hs ⟨f, hf, rfl, rfl⟩
  have hl := drop_split_length hx.off hs
  rw [encodeVi_length] at hl
  refine ⟨_, by rw [readVarInt, varIntDecode_form hx.wlen f hf r hs, Decoded.bind_ok], ?_, ?_⟩
  · refine ⟨rfl, rfl, rfl, rfl, rfl, Nat.le_add_right .., ?_⟩
    simp only [Regs.setVarInt]; rw [hx.wlen]; exact hl
  · simp only [Regs.setVarInt]; rw [encodeVi_length]

/-- A VarInt read raises only `TruncatedInput` at the first byte, and leaves the registers (R135). -/
theorem readVarInt_raise {w : List Byte} {x x' : Regs} {e : ErrInfo} (hx : Ready w x)
    (h : readVarInt w x = .raise e x') : e = truncatedAt x.off ∧ x' = x := by
  rcases form_or_cut (w.drop x.off) with ⟨f, r, hf, hs⟩ | hcut
  · rw [readVarInt, varIntDecode_form hx.wlen f hf r hs] at h; cases h
  · rw [readVarInt, varIntDecode_raise hx.wlen hcut] at h
    cases h; exact ⟨rfl, rfl⟩

/-! ### `ReadScript` (R142) -/

theorem readScript_sound {w : List Byte} {x : Regs} (hx : Ready w x) :
    Sound ScriptWire w x (readScript w x) := by
  refine Sound.bind (V := ViWire) (W := fun (n : Word64) b s => b = s ∧ s.length = n.toNat)
    hx (readVarInt_sound hx) ?_ ?_
  · intro n x' hx' _
    split
    · exact ⟨hx'.refl, plainError_malformed _⟩
    · exact readBytes_sound n.toNat hx'
  · rintro n l _ s hl ⟨rfl, hn⟩
    exact ⟨l, ⟨n, hl, hn.symm⟩, rfl⟩

theorem readScript_complete {w : List Byte} {x : Regs} (hx : Ready w x) :
    Complete ScriptWire w x (readScript w x) := by
  rintro s b r hs ⟨l, ⟨n, hl, hn⟩, rfl⟩
  rw [List.append_assoc] at hs
  unfold readScript
  obtain ⟨x1, he, m1, ho1, hd1⟩ := (readVarInt_complete hx).step hs hl
    fun n x => if n.toNat > x.wlen - x.off then Decoded.raise (malformedAt x.off) x
      else readBytes w n.toNat x
  rw [he]
  have hx1 := hx.moved m1
  have hfit := drop_split_length hx1.off hd1
  have hng : ¬ n.toNat > x1.wlen - x1.off := by rw [hx1.wlen]; omega
  simp only [hng, if_false]
  obtain ⟨x2, he2, m2, ho2⟩ := readBytes_complete n.toNat hx1 s s r hd1 ⟨rfl, hn.symm⟩
  exact ⟨x2, he2, m1.trans m2, by rw [ho2, ho1, List.length_append]; omega⟩

/-- Which error a script read raises and where (R142, R149): a truncated length at the VarInt's first
byte, a length above what remains at the script's first byte. -/
theorem readScript_raise {w : List Byte} {x x' : Regs} {e : ErrInfo} (hx : Ready w x)
    (h : readScript w x = .raise e x') :
    (e = truncatedAt x.off ∧ x' = x) ∨
      ∃ n x1, readVarInt w x = .ok n x1 ∧ x1.wlen - x1.off < n.toNat ∧
        e = malformedAt x1.off ∧ x' = x1 := by
  have hv := readVarInt_sound hx
  unfold readScript at h
  cases hr : readVarInt w x with
  | ok n x1 =>
    rw [hr] at hv
    rw [hr, Decoded.bind_ok] at h
    split at h
    · rename_i hn
      cases h
      exact .inr ⟨n, x', rfl, hn, rfl, rfl⟩
    · rename_i hn
      exfalso
      have hx1 := hx.moved hv.1
      rw [readBytes_ok hx1 (by have := hx1.off; rw [hx1.wlen] at hn; omega)] at h
      cases h
  | raise e1 x1 =>
    rw [hr, Decoded.bind_raise] at h
    cases h
    exact .inl (readVarInt_raise hx hr)
  | outside f => rw [hr] at hv; exact hv.elim

end Sys2Proof.Machine
end

