-- ==== Sys2Proof/Laws/Transaction.lean ====
section
/-! SUPPORT. The transaction decoder, said once: it answers exactly on the wire layouts of R101 to
R103, and the bound of its loops is never what ends them. -/

namespace Sys2Proof.Machine

/-! ### One input, one output -/

theorem readTxInput_sound {w : List Byte} {x : Regs} (hx : Ready w x) :
    Sound TxInWire w x (readTxInput w x) := by
  refine Sound.bind (V := fun b a => b = a ∧ a.length = 32)
    (W := fun (h : List Byte) b (i : TxInput) => h.length = 32 → TxInWire (h ++ b) i)
    hx (readBytes_sound 32 hx) (fun h x hx _ => ?_) ?_
  · refine Sound.bind (W := fun (idx : Word32) b (i : TxInput) =>
      ∀ p, p = h ++ leBytes 4 idx.toNat → h.length = 32 → TxInWire (p ++ b) i)
      hx (readU32_sound hx) (fun idx x hx _ => ?_) ?_
    · refine Sound.bind (V := ScriptWire) (W := fun (s : List Byte) b (i : TxInput) =>
        ∀ sc, ScriptWire sc s → ∀ p, p = h ++ leBytes 4 idx.toNat → h.length = 32 →
          TxInWire (p ++ sc ++ b) i)
        hx (readScript_sound hx) (fun s x hx _ => ?_) ?_
      · refine Sound.bind (W := fun (q : Word32) b (i : TxInput) =>
          b = [] ∧ i = { prevHash := h, prevIndex := idx, script := s, sequence := q })
          hx (readU32_sound hx) (fun q x hx _ => Sound.pure hx _) ?_
        rintro q _ _ i rfl ⟨rfl, rfl⟩ sc hsc _ rfl hh
        exact ⟨sc, hsc, hh, by simp⟩
      · intro s b1 b2 i hsc hw p hp hh
        have := hw b1 hsc p hp hh
        simpa using this
    · rintro idx _ b2 i rfl hw hh
      have := hw _ rfl hh
      simpa using this
  · rintro h _ b2 i ⟨rfl, hh⟩ hw
    exact hw hh

theorem readTxInput_complete {w : List Byte} {x : Regs} (hx : Ready w x) :
    Complete TxInWire w x (readTxInput w x) := by
  rintro ⟨h, idx, s, q⟩ b r hs ⟨sc, hsc, hh, rfl⟩
  simp only at hsc hh
  simp only [List.append_assoc] at hs
  unfold readTxInput
  obtain ⟨x1, e1, m1, o1, d1⟩ := (readBytes_complete 32 hx).step hs ⟨rfl, hh⟩
    fun prevHash x => (readU32 w x).bind fun prevIndex x => (readScript w x).bind fun script x =>
      (readU32 w x).bind fun sequence x =>
        Decoded.ok ({ prevHash, prevIndex, script, sequence } : TxInput) x
  have hx1 := hx.moved m1
  obtain ⟨x2, e2, m2, o2, d2⟩ := (readU32_complete hx1).step d1 rfl
    fun prevIndex x => (readScript w x).bind fun script x =>
      (readU32 w x).bind fun sequence x =>
        Decoded.ok ({ prevHash := h, prevIndex, script, sequence } : TxInput) x
  have hx2 := hx1.moved m2
  obtain ⟨x3, e3, m3, o3, d3⟩ := (readScript_complete hx2).step d2 hsc
    fun script x => (readU32 w x).bind fun sequence x =>
        Decoded.ok ({ prevHash := h, prevIndex := idx, script, sequence } : TxInput) x
  have hx3 := hx2.moved m3
  obtain ⟨x4, e4, m4, o4, d4⟩ := (readU32_complete hx3).step d3 rfl
    fun sequence x => Decoded.ok ({ prevHash := h, prevIndex := idx, script := s, sequence } : TxInput) x
  refine ⟨x4, ?_, ((m1.trans m2).trans m3).trans m4, ?_⟩
  · rw [readHash, e1, e2, e3, e4]
  · simp only [List.length_append, leBytes_length] at *
    omega

theorem readTxOutput_sound {w : List Byte} {x : Regs} (hx : Ready w x) :
    Sound TxOutWire w x (readTxOutput w x) := by
  refine Sound.bind (W := fun (v : Word64) b (o : TxOutput) => TxOutWire (leBytes 8 v.toNat ++ b) o)
    hx (readU64_sound hx) (fun v x hx _ => ?_) ?_
  · refine Sound.bind (V := ScriptWire) (W := fun (s : List Byte) b (o : TxOutput) =>
      b = [] ∧ o = { value := v, script := s })
      hx (readScript_sound hx) (fun s x hx _ => Sound.pure hx _) ?_
    rintro s b1 _ o hsc ⟨rfl, rfl⟩
    exact ⟨b1, hsc, by simp⟩
  · rintro v _ b2 o rfl hw
    exact hw

theorem readTxOutput_complete {w : List Byte} {x : Regs} (hx : Ready w x) :
    Complete TxOutWire w x (readTxOutput w x) := by
  rintro ⟨v, s⟩ b r hs ⟨sc, hsc, rfl⟩
  simp only at hsc
  simp only [List.append_assoc] at hs
  unfold readTxOutput
  obtain ⟨x1, e1, m1, o1, d1⟩ := (readU64_complete hx).step hs rfl
    fun value x => (readScript w x).bind fun script x =>
      Decoded.ok ({ value, script } : TxOutput) x
  have hx1 := hx.moved m1
  obtain ⟨x2, e2, m2, o2, d2⟩ := (readScript_complete hx1).step d1 hsc
    fun script x => Decoded.ok ({ value := v, script } : TxOutput) x
  refine ⟨x2, by rw [e1, e2], m1.trans m2, ?_⟩
  simp only [List.length_append, leBytes_length] at *
  omega

/-- Every VarInt has at least one byte (R116). -/
theorem viWire_length {b : List Byte} {v : Word64} (h : ViWire b v) : 1 ≤ b.length := by
  obtain ⟨f, _, rfl, _⟩ := h
  cases f <;> simp [encodeVi]

theorem countWire_length {b : List Byte} {n : Nat} (h : CountWire b n) : 1 ≤ b.length := by
  obtain ⟨v, hv, _⟩ := h
  exact viWire_length hv

/-- A decoded input has moved the cursor by at least 41 bytes (R116), here: forward. -/
theorem readTxInput_advances {w : List Byte} {x x' : Regs} {i : TxInput} (hx : Ready w x)
    (h : readTxInput w x = .ok i x') : x.off < x'.off := by
  have := readTxInput_sound hx
  rw [h] at this
  obtain ⟨_, b, r, _, ⟨sc, _, hh, rfl⟩, ho⟩ := this
  simp only [List.length_append, leBytes_length] at ho
  omega

/-- A decoded output has moved the cursor forward (R116). -/
theorem readTxOutput_advances {w : List Byte} {x x' : Regs} {o : TxOutput} (hx : Ready w x)
    (h : readTxOutput w x = .ok o x') : x.off < x'.off := by
  have := readTxOutput_sound hx
  rw [h] at this
  obtain ⟨_, b, r, _, ⟨sc, _, rfl⟩, ho⟩ := this
  simp only [List.length_append, leBytes_length] at ho
  omega

/-! ### The loops -/

/-- What a loop of `TxDecode` keeps: all but the counters of its items. -/
structure MovedTx (x x' : Regs) : Prop where
  wlen : x'.wlen = x.wlen
  ntx : x'.ntx = x.ntx
  base : x'.base = x.base
  le : x.off ≤ x'.off
  inside : x'.off ≤ x'.wlen

theorem MovedTx.refl {x : Regs} (h : x.off ≤ x.wlen) : MovedTx x x := ⟨rfl, rfl, rfl, le_refl _, h⟩

theorem Moved.tx {x y : Regs} (h : Moved x y) : MovedTx x y :=
  ⟨h.wlen, h.ntx, h.base, h.le, h.inside⟩

theorem MovedTx.trans {x y z : Regs} (h : MovedTx x y) (g : MovedTx y z) : MovedTx x z :=
  ⟨g.wlen.trans h.wlen, g.ntx.trans h.ntx, g.base.trans h.base, h.le.trans g.le, g.inside⟩

theorem Ready.movedTx {w : List Byte} {x x' : Regs} (h : Ready w x) (m : MovedTx x x') : Ready w x' :=
  ⟨m.wlen.trans h.wlen, by have := m.inside; rw [m.wlen, h.wlen] at this; exact this⟩

/-- As `Sound`, for a read that also writes the counters of a transaction. -/
def SoundTx {α : Type} (W : List Byte → α → Prop) (w : List Byte) (x : Regs) (d : Decoded α) : Prop :=
  match d with
  | .ok a x' => MovedTx x x' ∧ ∃ b r, w.drop x.off = b ++ r ∧ W b a ∧ x'.off = x.off + b.length
  | .raise e x' => MovedTx x x' ∧ PlainError e
  | .outside _ => False

/-- As `Complete`, for a read that also writes the counters of a transaction. -/
def CompleteTx {α : Type} (W : List Byte → α → Prop) (w : List Byte) (x : Regs) (d : Decoded α) :
    Prop :=
  ∀ a b r, w.drop x.off = b ++ r → W b a →
    ∃ x', d = .ok a x' ∧ MovedTx x x' ∧ x'.off = x.off + b.length

theorem Sound.tx {α : Type} {W : List Byte → α → Prop} {w : List Byte} {x : Regs} {d : Decoded α}
    (h : Sound W w x d) : SoundTx W w x d := by
  cases d with
  | ok a x' => exact ⟨h.1.tx, h.2⟩
  | raise e x' => exact ⟨h.1.tx, h.2⟩
  | outside f => exact h

theorem SoundTx.bind {α β : Type} {V : List Byte → α → Prop} {W : α → List Byte → β → Prop}
    {U : List Byte → β → Prop} {w : List Byte} {x : Regs} {d : Decoded α} {k : α → Regs → Decoded β}
    (hx : Ready w x) (hd : SoundTx V w x d)
    (hk : ∀ a x', Ready w x' → MovedTx x x' → SoundTx (W a) w x' (k a x'))
    (hU : ∀ a b1 b2 c, V b1 a → W a b2 c → U (b1 ++ b2) c) :
    SoundTx U w x (d.bind k) := by
  cases d with
  | ok a x' =>
    obtain ⟨m, b, r, hs, hv, ho⟩ := hd
    have hk := hk a x' (hx.movedTx m) m
    rw [Decoded.bind_ok]
    cases hka : k a x' with
    | ok c y =>
      rw [hka] at hk
      obtain ⟨m2, b2, r2, hs2, hw, ho2⟩ := hk
      refine ⟨m.trans m2, b ++ b2, r2, ?_, hU a b b2 c hv hw, ?_⟩
      · have := drop_split hs
        rw [← ho, hs2] at this
        rw [hs, ← this, List.append_assoc]
      · rw [ho2, ho, List.length_append]; omega
    | raise e y => rw [hka] at hk; exact ⟨m.trans hk.1, hk.2⟩
    | outside f => rw [hka] at hk; exact hk
  | raise e x' => exact hd
  | outside f => exact hd

/-- The list a loop has read: as many items as its count, in wire order (R35). -/
theorem readInputs_sound (w : List Byte) : ∀ (fuel : Nat) (x : Regs), Ready w x →
    SoundTx (fun b is => ManyWire TxInWire b is ∧ is.length = x.nin.toNat) w x
      (readInputs w fuel x) := by
  intro fuel
  induction fuel with
  | zero =>
    intro x hx
    unfold readInputs
    split
    · rename_i h0
      exact ⟨hx.refl.tx, [], w.drop x.off, rfl, ⟨rfl, by simp [h0]⟩, rfl⟩
    · exact ⟨hx.refl.tx, plainError_truncated _⟩
  | succ n ih =>
    intro x hx
    unfold readInputs
    split
    · rename_i h0
      exact ⟨hx.refl.tx, [], w.drop x.off, rfl, ⟨rfl, by simp [h0]⟩, rfl⟩
    · rename_i h0
      have hi := readTxInput_sound hx
      cases hr : readTxInput w x with
      | raise e y => rw [hr] at hi; exact ⟨hi.1.tx, hi.2⟩
      | outside f => rw [hr] at hi; exact hi
      | ok i y =>
        rw [hr] at hi
        obtain ⟨m, b, r, hs, hv, ho⟩ := hi
        rw [Decoded.bind_ok]
        have hy := hx.moved m
        have hrec := ih { y with nin := y.nin - 1 } ⟨hy.wlen, hy.off⟩
        cases hq : readInputs w n { y with nin := y.nin - 1 } with
        | raise e z =>
          rw [hq] at hrec
          refine ⟨m.tx.trans ⟨hrec.1.wlen, hrec.1.ntx, hrec.1.base, hrec.1.le, hrec.1.inside⟩, hrec.2⟩
        | outside f => rw [hq] at hrec; exact hrec
        | ok is z =>
          rw [hq] at hrec
          obtain ⟨m2, b2, r2, hs2, ⟨hw, hlen⟩, ho2⟩ := hrec
          refine ⟨m.tx.trans ⟨m2.wlen, m2.ntx, m2.base, m2.le, m2.inside⟩, b ++ b2, r2, ?_,
            ⟨⟨b, b2, hv, hw, rfl⟩, ?_⟩, ?_⟩
          · have := drop_split hs
            rw [← ho] at this
            simp only at hs2
            rw [hs2] at this
            rw [hs, ← this, List.append_assoc]
          · have hn := toNat_ne_zero h0
            simp only [List.length_cons, hlen, m.nin, toNat_sub_one h0]
            omega
          · simp only at ho2
            rw [ho2, ho, List.length_append]; omega

theorem readOutputs_sound (w : List Byte) : ∀ (fuel : Nat) (x : Regs), Ready w x →
    SoundTx (fun b os => ManyWire TxOutWire b os ∧ os.length = x.nout.toNat) w x
      (readOutputs w fuel x) := by
  intro fuel
  induction fuel with
  | zero =>
    intro x hx
    unfold readOutputs
    split
    · rename_i h0
      exact ⟨hx.refl.tx, [], w.drop x.off, rfl, ⟨rfl, by simp [h0]⟩, rfl⟩
    · exact ⟨hx.refl.tx, plainError_truncated _⟩
  | succ n ih =>
    intro x hx
    unfold readOutputs
    split
    · rename_i h0
      exact ⟨hx.refl.tx, [], w.drop x.off, rfl, ⟨rfl, by simp [h0]⟩, rfl⟩
    · rename_i h0
      have hi := readTxOutput_sound hx
      cases hr : readTxOutput w x with
      | raise e y => rw [hr] at hi; exact ⟨hi.1.tx, hi.2⟩
      | outside f => rw [hr] at hi; exact hi
      | ok i y =>
        rw [hr] at hi
        obtain ⟨m, b, r, hs, hv, ho⟩ := hi
        rw [Decoded.bind_ok]
        have hy := hx.moved m
        have hrec := ih { y with nout := y.nout - 1 } ⟨hy.wlen, hy.off⟩
        cases hq : readOutputs w n { y with nout := y.nout - 1 } with
        | raise e z =>
          rw [hq] at hrec
          refine ⟨m.tx.trans ⟨hrec.1.wlen, hrec.1.ntx, hrec.1.base, hrec.1.le, hrec.1.inside⟩, hrec.2⟩
        | outside f => rw [hq] at hrec; exact hrec
        | ok is z =>
          rw [hq] at hrec
          obtain ⟨m2, b2, r2, hs2, ⟨hw, hlen⟩, ho2⟩ := hrec
          refine ⟨m.tx.trans ⟨m2.wlen, m2.ntx, m2.base, m2.le, m2.inside⟩, b ++ b2, r2, ?_,
            ⟨⟨b, b2, hv, hw, rfl⟩, ?_⟩, ?_⟩
          · have := drop_split hs
            rw [← ho] at this
            simp only at hs2
            rw [hs2] at this
            rw [hs, ← this, List.append_assoc]
          · have hn := toNat_ne_zero h0
            simp only [List.length_cons, hlen, m.nout, toNat_sub_one h0]
            omega
          · simp only at ho2
            rw [ho2, ho, List.length_append]; omega

/-- The loop reads the inputs that stand at the cursor, with any bound that covers the bytes left. -/
theorem readInputs_complete (w : List Byte) : ∀ (is : List TxInput) (fuel : Nat) (x : Regs) (b r : List Byte),
    Ready w x → w.length - x.off ≤ fuel → x.nin.toNat = is.length → w.drop x.off = b ++ r →
      ManyWire TxInWire b is →
      ∃ x', readInputs w fuel x = .ok is x' ∧ MovedTx x x' ∧ x'.off = x.off + b.length := by
  intro is
  induction is with
  | nil =>
    rintro fuel x b r hx _ hn _ rfl
    have h0 : x.nin = 0 := BitVec.eq_of_toNat_eq (by simpa using hn)
    refine ⟨x, ?_, hx.refl.tx, rfl⟩
    cases fuel <;> simp [readInputs, h0]
  | cons i is ih =>
    rintro fuel x b r hx hf hn hs ⟨h, t, hi, ht, rfl⟩
    have h0 : x.nin ≠ 0 := by intro h; simp [h] at hn
    rw [List.append_assoc] at hs
    have hpos : 0 < h.length := by
      obtain ⟨sc, _, hh, rfl⟩ := hi
      simp only [List.length_append]; omega
    have hfit := drop_split_length hx.off hs
    cases fuel with
    | zero => omega
    | succ fuel =>
      obtain ⟨y, he, m, ho⟩ := readTxInput_complete hx i h _ hs hi
      have hd := drop_split hs
      rw [← ho] at hd
      have hy := hx.moved m
      obtain ⟨z, he2, m2, ho2⟩ := ih fuel { y with nin := y.nin - 1 } t r ⟨hy.wlen, hy.off⟩
        (by simp only; omega)
        (by
          simp only [List.length_cons] at hn
          simp only [m.nin, toNat_sub_one h0]
          omega) hd ht
      refine ⟨z, ?_, m.tx.trans ⟨m2.wlen, m2.ntx, m2.base, m2.le, m2.inside⟩, ?_⟩
      · simp only [readInputs, h0, if_false, he, Decoded.bind_ok, he2]
      · simp only at ho2; rw [ho2, ho, List.length_append]; omega

theorem readOutputs_complete (w : List Byte) : ∀ (os : List TxOutput) (fuel : Nat) (x : Regs) (b r : List Byte),
    Ready w x → w.length - x.off ≤ fuel → x.nout.toNat = os.length → w.drop x.off = b ++ r →
      ManyWire TxOutWire b os →
      ∃ x', readOutputs w fuel x = .ok os x' ∧ MovedTx x x' ∧ x'.off = x.off + b.length := by
  intro os
  induction os with
  | nil =>
    rintro fuel x b r hx _ hn _ rfl
    have h0 : x.nout = 0 := BitVec.eq_of_toNat_eq (by simpa using hn)
    refine ⟨x, ?_, hx.refl.tx, rfl⟩
    cases fuel <;> simp [readOutputs, h0]
  | cons i is ih =>
    rintro fuel x b r hx hf hn hs ⟨h, t, hi, ht, rfl⟩
    have h0 : x.nout ≠ 0 := by intro h; simp [h] at hn
    rw [List.append_assoc] at hs
    have hpos : 0 < h.length := by
      obtain ⟨sc, _, rfl⟩ := hi
      simp only [List.length_append, leBytes_length]; omega
    have hfit := drop_split_length hx.off hs
    cases fuel with
    | zero => omega
    | succ fuel =>
      obtain ⟨y, he, m, ho⟩ := readTxOutput_complete hx i h _ hs hi
      have hd := drop_split hs
      rw [← ho] at hd
      have hy := hx.moved m
      obtain ⟨z, he2, m2, ho2⟩ := ih fuel { y with nout := y.nout - 1 } t r ⟨hy.wlen, hy.off⟩
        (by simp only; omega)
        (by
          simp only [List.length_cons] at hn
          simp only [m.nout, toNat_sub_one h0]
          omega) hd ht
      refine ⟨z, ?_, m.tx.trans ⟨m2.wlen, m2.ntx, m2.base, m2.le, m2.inside⟩, ?_⟩
      · simp only [readOutputs, h0, if_false, he, Decoded.bind_ok, he2]
      · simp only at ho2; rw [ho2, ho, List.length_append]; omega

/-- The bound of the input loop is never what ends it: with any bound that covers the bytes left, the
loop is one turn and the loop again, as R141 writes it (R145). -/
theorem readInputs_unroll (w : List Byte) : ∀ (fuel : Nat) (x : Regs), Ready w x →
    w.length - x.off ≤ fuel →
      readInputs w fuel x =
        if x.nin = 0 then .ok [] x
        else (readTxInput w x).bind fun i y =>
          (readInputs w fuel { y with nin := y.nin - 1 }).bind fun is z => .ok (i :: is) z := by
  intro fuel
  induction fuel with
  | zero =>
    intro x hx hf
    have hoff := hx.off
    have hr : readTxInput w x = .raise (truncatedAt x.off) x := by
      rw [readTxInput, readHash, readBytes_raise (by rw [hx.wlen]; omega), Decoded.bind_raise]
    rw [hr, Decoded.bind_raise]
    rfl
  | succ n ih =>
    intro x hx hf
    conv_lhs => unfold readInputs
    split
    · rfl
    · cases hr : readTxInput w x with
      | raise e y => rfl
      | outside f => rfl
      | ok i y =>
        simp only [Decoded.bind_ok]
        have hi := readTxInput_sound hx
        rw [hr] at hi
        have hy := hx.moved hi.1
        have hlt := readTxInput_advances hx hr
        have hyl := hy.off
        congr 1
        rw [ih { y with nin := y.nin - 1 } ⟨hy.wlen, hy.off⟩ (by simp only; omega)]
        conv_rhs => unfold readInputs

/-- The bound of the output loop is never what ends it (R141, R145). -/
theorem readOutputs_unroll (w : List Byte) : ∀ (fuel : Nat) (x : Regs), Ready w x →
    w.length - x.off ≤ fuel →
      readOutputs w fuel x =
        if x.nout = 0 then .ok [] x
        else (readTxOutput w x).bind fun o y =>
          (readOutputs w fuel { y with nout := y.nout - 1 }).bind fun os z => .ok (o :: os) z := by
  intro fuel
  induction fuel with
  | zero =>
    intro x hx hf
    have hoff := hx.off
    have hr : readTxOutput w x = .raise (truncatedAt x.off) x := by
      rw [readTxOutput, readU64, readBytes_raise (by rw [hx.wlen]; omega), Decoded.bind_raise,
        Decoded.bind_raise]
    rw [hr, Decoded.bind_raise]
    rfl
  | succ n ih =>
    intro x hx hf
    conv_lhs => unfold readOutputs
    split
    · rfl
    · cases hr : readTxOutput w x with
      | raise e y => rfl
      | outside f => rfl
      | ok i y =>
        simp only [Decoded.bind_ok]
        have hi := readTxOutput_sound hx
        rw [hr] at hi
        have hy := hx.moved hi.1
        have hlt := readTxOutput_advances hx hr
        have hyl := hy.off
        congr 1
        rw [ih { y with nout := y.nout - 1 } ⟨hy.wlen, hy.off⟩ (by simp only; omega)]
        conv_rhs => unfold readOutputs

/-! ### `TxDecode` (R141) -/

/-- What `TxDecode` keeps of the working registers; it writes `BASE` (R141). -/
structure MovedBlk (x x' : Regs) : Prop where
  wlen : x'.wlen = x.wlen
  ntx : x'.ntx = x.ntx
  base : x'.base = x.off
  le : x.off ≤ x'.off
  inside : x'.off ≤ x'.wlen

/-- What `TxDecode` can answer: a transaction whose layout is exactly the bytes it reports consumed,
or one of two kinds of error; it never leaves the window (R144, R147). -/
theorem txDecode_sound {w : List Byte} {x : Regs} (hx : Ready w x) :
    match txDecode w x with
    | .ok (t, c) x' => MovedBlk x x' ∧ x'.off = x.off + c ∧
        ∃ b r, w.drop x.off = b ++ r ∧ TxWire b t ∧ c = b.length
    | .raise e x' => MovedBlk x x' ∧ PlainError e
    | .outside _ => False := by
  have hx0 : Ready w { x with base := x.off } := ⟨hx.wlen, hx.off⟩
  have key : SoundTx (fun b (p : Transaction × Nat) => TxWire b p.1)
      w { x with base := x.off } (txDecode w x) := by
    refine SoundTx.bind (W := fun (v : Word32) b (p : Transaction × Nat) =>
      TxWire (leBytes 4 v.toNat ++ b) p.1) hx0 (readU32_sound hx0).tx (fun v x hx _ => ?_) ?_
    · refine SoundTx.bind (W := fun (n : Word64) b (p : Transaction × Nat) =>
        ∀ c, ViWire c n → TxWire (leBytes 4 v.toNat ++ c ++ b) p.1)
        hx (readVarInt_sound hx).tx (fun n x hx _ => ?_) ?_
      · refine SoundTx.bind (V := fun b is => ManyWire TxInWire b is ∧ is.length = n.toNat)
          (W := fun (is : List TxInput) b (p : Transaction × Nat) =>
            ∀ i, ManyWire TxInWire i is → is.length = n.toNat → ∀ c, ViWire c n →
              TxWire (leBytes 4 v.toNat ++ c ++ i ++ b) p.1) hx ?_ (fun is x hx _ => ?_) ?_
        · have := readInputs_sound w (x.wlen - x.off) { x with nin := n } ⟨hx.wlen, hx.off⟩
          cases hq : readInputs w (x.wlen - x.off) { x with nin := n } with
          | ok a y =>
            rw [hq] at this
            exact ⟨⟨this.1.wlen, this.1.ntx, this.1.base, this.1.le, this.1.inside⟩, this.2⟩
          | raise e y =>
            rw [hq] at this
            exact ⟨⟨this.1.wlen, this.1.ntx, this.1.base, this.1.le, this.1.inside⟩, this.2⟩
          | outside f => rw [hq] at this; exact this
        · refine SoundTx.bind (W := fun (m : Word64) b (p : Transaction × Nat) =>
            ∀ d, ViWire d m → ∀ i, ManyWire TxInWire i is → is.length = n.toNat → ∀ c, ViWire c n →
              TxWire (leBytes 4 v.toNat ++ c ++ i ++ d ++ b) p.1)
            hx (readVarInt_sound hx).tx (fun m x hx _ => ?_) ?_
          · refine SoundTx.bind (V := fun b os => ManyWire TxOutWire b os ∧ os.length = m.toNat)
              (W := fun (os : List TxOutput) b (p : Transaction × Nat) =>
                ∀ o, ManyWire TxOutWire o os → os.length = m.toNat → ∀ d, ViWire d m →
                ∀ i, ManyWire TxInWire i is → is.length = n.toNat → ∀ c, ViWire c n →
                  TxWire (leBytes 4 v.toNat ++ c ++ i ++ d ++ o ++ b) p.1)
              hx ?_ (fun os x hx _ => ?_) ?_
            · have := readOutputs_sound w (x.wlen - x.off) { x with nout := m } ⟨hx.wlen, hx.off⟩
              cases hq : readOutputs w (x.wlen - x.off) { x with nout := m } with
              | ok a y =>
                rw [hq] at this
                exact ⟨⟨this.1.wlen, this.1.ntx, this.1.base, this.1.le, this.1.inside⟩, this.2⟩
              | raise e y =>
                rw [hq] at this
                exact ⟨⟨this.1.wlen, this.1.ntx, this.1.base, this.1.le, this.1.inside⟩, this.2⟩
              | outside f => rw [hq] at this; exact this
            · refine SoundTx.bind (W := fun (l : Word32) b (p : Transaction × Nat) =>
                b = [] ∧ p.1 = { version := v, inputs := is, outputs := os, lockTime := l })
                hx (readU32_sound hx).tx (fun l x hx _ => ?_) ?_
              · exact ⟨hx.refl.tx, [], w.drop x.off, rfl, ⟨rfl, rfl⟩, rfl⟩
              · rintro l _ _ ⟨p, k⟩ rfl ⟨rfl, rfl⟩ o ho hol d hd i hi hil c hc
                exact ⟨c, i, d, o, ⟨n, hc, hil.symm⟩, hi, ⟨m, hd, hol.symm⟩, ho, by simp⟩
            · rintro os b1 b2 p ⟨ho, hol⟩ hw d hd i hi hil c hc
              have := hw b1 ho hol d hd i hi hil c hc
              simpa using this
          · rintro m b1 b2 p hd hw i hi hil c hc
            have := hw b1 hd i hi hil c hc
            simpa using this
        · rintro is b1 b2 p ⟨hi, hil⟩ hw c hc
          have := hw b1 hi hil c hc
          simpa using this
      · rintro n b1 b2 p hc hw
        have := hw b1 hc
        simpa using this
    · rintro v _ b2 p rfl hw
      exact hw
  cases hd : txDecode w x with
  | ok p x' =>
    rw [hd] at key
    obtain ⟨m, b, r, hs, hw, ho⟩ := key
    simp only at hs ho
    have hc : p.2 = x'.off - x'.base := by
      unfold txDecode at hd
      revert hd
      cases readU32 w { x with base := x.off } with
      | raise e y => intro h; cases h
      | outside f => intro h; cases h
      | ok v y =>
        rw [Decoded.bind_ok]
        cases readVarInt w y with
        | raise e y => intro h; cases h
        | outside f => intro h; cases h
        | ok n y =>
          rw [Decoded.bind_ok]
          cases readInputs w (y.wlen - y.off) { y with nin := n } with
          | raise e y => intro h; cases h
          | outside f => intro h; cases h
          | ok is y =>
            rw [Decoded.bind_ok]
            cases readVarInt w y with
            | raise e y => intro h; cases h
            | outside f => intro h; cases h
            | ok n y =>
              rw [Decoded.bind_ok]
              cases readOutputs w (y.wlen - y.off) { y with nout := n } with
              | raise e y => intro h; cases h
              | outside f => intro h; cases h
              | ok os y =>
                rw [Decoded.bind_ok]
                cases readU32 w y with
                | raise e y => intro h; cases h
                | outside f => intro h; cases h
                | ok l y => intro h; cases h; rfl
    have hb := m.base
    simp only at hb
    have hpc : p.2 = b.length := by rw [hc, hb, ho]; omega
    exact ⟨⟨m.wlen, m.ntx, m.base, m.le, m.inside⟩, by rw [hpc]; exact ho, b, r, hs, hw, hpc⟩
  | raise e x' =>
    rw [hd] at key
    exact ⟨⟨key.1.wlen, key.1.ntx, key.1.base, key.1.le, key.1.inside⟩, key.2⟩
  | outside f => rw [hd] at key; exact key

theorem CompleteTx.step {α β : Type} {V : List Byte → α → Prop} {w : List Byte} {x : Regs}
    {d : Decoded α} (hd : CompleteTx V w x d) {a : α} {b r : List Byte} (hs : w.drop x.off = b ++ r)
    (hv : V b a) (k : α → Regs → Decoded β) :
    ∃ x', d.bind k = k a x' ∧ MovedTx x x' ∧ x'.off = x.off + b.length ∧ w.drop x'.off = r := by
  obtain ⟨x', he, m, ho⟩ := hd a b r hs hv
  exact ⟨x', by rw [he, Decoded.bind_ok], m, ho, by rw [ho]; exact drop_split hs⟩

theorem Complete.tx {α : Type} {V : List Byte → α → Prop} {w : List Byte} {x : Regs} {d : Decoded α}
    (h : Complete V w x d) : CompleteTx V w x d := by
  intro a b r hs hv
  obtain ⟨x', he, m, ho⟩ := h a b r hs hv
  exact ⟨x', he, m.tx, ho⟩

/-- `TxDecode` answers the transaction that stands at the cursor, whatever follows it (R141, R144). -/
theorem txDecode_complete {w : List Byte} {x : Regs} (hx : Ready w x) {t : Transaction}
    {b r : List Byte} (hs : w.drop x.off = b ++ r) (ht : TxWire b t) :
    ∃ x', txDecode w x = .ok (t, b.length) x' ∧ MovedBlk x x' ∧ x'.off = x.off + b.length := by
  obtain ⟨v, inputs, outputs, l⟩ := t
  obtain ⟨ci, i, co, o, ⟨n, hn, hnl⟩, hi, ⟨m, hm, hml⟩, ho, rfl⟩ := ht
  simp only at hn hnl hi hm hml ho hs
  simp only [List.append_assoc] at hs
  have hx0 : Ready w { x with base := x.off } := ⟨hx.wlen, hx.off⟩
  unfold txDecode
  obtain ⟨x1, e1, m1, o1, d1⟩ := (readU32_complete hx0).tx.step hs rfl _
  rw [e1]
  have hx1 := hx0.movedTx m1
  obtain ⟨x2, e2, m2, o2, d2⟩ := (readVarInt_complete hx1).tx.step d1 hn _
  rw [e2]
  have hx2 := hx1.movedTx m2
  obtain ⟨x3, e3, m3, o3⟩ := readInputs_complete w inputs (x2.wlen - x2.off) { x2 with nin := n } i _
    ⟨hx2.wlen, hx2.off⟩ (by simp only; rw [hx2.wlen]) hnl d2 hi
  rw [e3, Decoded.bind_ok]
  have m3' : MovedTx x2 x3 := ⟨m3.wlen, m3.ntx, m3.base, m3.le, m3.inside⟩
  have hx3 := hx2.movedTx m3'
  have d3 := drop_split d2
  simp only at o3
  rw [← o3] at d3
  obtain ⟨x4, e4, m4, o4, d4⟩ := (readVarInt_complete hx3).tx.step d3 hm _
  rw [e4]
  have hx4 := hx3.movedTx m4
  obtain ⟨x5, e5, m5, o5⟩ := readOutputs_complete w outputs (x4.wlen - x4.off) { x4 with nout := m } o _
    ⟨hx4.wlen, hx4.off⟩ (by simp only; rw [hx4.wlen]) hml d4 ho
  rw [e5, Decoded.bind_ok]
  have m5' : MovedTx x4 x5 := ⟨m5.wlen, m5.ntx, m5.base, m5.le, m5.inside⟩
  have hx5 := hx4.movedTx m5'
  have d5 := drop_split d4
  simp only at o5
  rw [← o5] at d5
  obtain ⟨x6, e6, m6, o6, d6⟩ := (readU32_complete hx5).tx.step d5 rfl
    fun lockTime x => Decoded.ok
      (({ version := v, inputs, outputs, lockTime } : Transaction), x.off - x.base) x
  rw [e6]
  have mm := ((((m1.trans m2).trans m3').trans m4).trans m5').trans m6
  have hb := mm.base
  simp only at hb
  have hoff : x6.off = x.off + (leBytes 4 v.toNat ++ ci ++ i ++ co ++ o ++ leBytes 4 l.toNat).length := by
    simp only [List.length_append, leBytes_length] at *
    omega
  refine ⟨x6, ?_, ⟨mm.wlen, mm.ntx, mm.base, mm.le, mm.inside⟩, hoff⟩
  rw [hb, hoff, Nat.add_sub_cancel_left]

end Sys2Proof.Machine
end

