-- ==== Sys2Proof/Laws/Block.lean ====
section
/-! SUPPORT. The block decoder, said once: it answers exactly on the wire layout of R104 and R105, and
the bound of its loop is never what ends it. -/

namespace Sys2Proof.Machine

/-- The 80 header bytes are the layout of the header they decode to (R104, R151). -/
theorem readBlockHeader_some {w : List Byte} (h : 80 ≤ w.length) :
    ∃ hd, readBlockHeader w = some hd ∧ hd.prevBlock.length = 32 ∧ hd.merkleRoot.length = 32 ∧
      w = blockHeaderBytes hd ++ w.drop 80 := by
  refine ⟨⟨BitVec.ofNat 32 (leNat ((w.drop 0).take 4)), (w.drop 4).take 32, (w.drop 36).take 32,
    BitVec.ofNat 32 (leNat ((w.drop 68).take 4)), BitVec.ofNat 32 (leNat ((w.drop 72).take 4)),
    BitVec.ofNat 32 (leNat ((w.drop 76).take 4))⟩, ?_, ?_, ?_, ?_⟩
  · simp only [readBlockHeader, memRead_eq_some (show 0 + 4 ≤ w.length by omega),
      memRead_eq_some (show 4 + 32 ≤ w.length by omega),
      memRead_eq_some (show 36 + 32 ≤ w.length by omega),
      memRead_eq_some (show 68 + 4 ≤ w.length by omega),
      memRead_eq_some (show 72 + 4 ≤ w.length by omega),
      memRead_eq_some (show 76 + 4 ≤ w.length by omega)]
  · simp; omega
  · simp; omega
  · simp only [blockHeaderBytes]
    rw [leBytes_ofNat_leNat 4 32 _ (by simp; omega) (by decide),
      leBytes_ofNat_leNat 4 32 _ (by simp; omega) (by decide),
      leBytes_ofNat_leNat 4 32 _ (by simp; omega) (by decide),
      leBytes_ofNat_leNat 4 32 _ (by simp; omega) (by decide)]
    have e1 : w.take 4 ++ w.drop 4 = w := List.take_append_drop 4 w
    have e2 : (w.drop 4).take 32 ++ w.drop 36 = w.drop 4 := by
      simpa using List.take_append_drop 32 (w.drop 4)
    have e3 : (w.drop 36).take 32 ++ w.drop 68 = w.drop 36 := by
      simpa using List.take_append_drop 32 (w.drop 36)
    have e4 : (w.drop 68).take 4 ++ w.drop 72 = w.drop 68 := by
      simpa using List.take_append_drop 4 (w.drop 68)
    have e5 : (w.drop 72).take 4 ++ w.drop 76 = w.drop 72 := by
      simpa using List.take_append_drop 4 (w.drop 72)
    have e6 : (w.drop 76).take 4 ++ w.drop 80 = w.drop 76 := by
      simpa using List.take_append_drop 4 (w.drop 76)
    simp only [List.append_assoc, List.drop_zero]
    rw [e6, e5, e4, e3, e2, e1]

theorem blockHeaderBytes_length {h : BlockHeader} (h1 : h.prevBlock.length = 32)
    (h2 : h.merkleRoot.length = 32) : (blockHeaderBytes h).length = 80 := by
  simp [blockHeaderBytes, h1, h2]

/-- The header that stands in front of a block is the one read (R104, R151). -/
theorem readBlockHeader_bytes {h : BlockHeader} {r : List Byte} (h1 : h.prevBlock.length = 32)
    (h2 : h.merkleRoot.length = 32) : readBlockHeader (blockHeaderBytes h ++ r) = some h := by
  have b0 : memRead (blockHeaderBytes h ++ r) 0 4 = some (leBytes 4 h.version.toNat) := by
    have := memRead_append (p := []) (b := leBytes 4 h.version.toNat)
      (r := h.prevBlock ++ h.merkleRoot ++ leBytes 4 h.timestamp.toNat ++ leBytes 4 h.bits.toNat ++
        leBytes 4 h.nonce.toNat ++ r) (a := 0) (n := 4) rfl (by simp)
    simpa [blockHeaderBytes] using this
  have b1 : memRead (blockHeaderBytes h ++ r) 4 32 = some h.prevBlock := by
    have := memRead_append (p := leBytes 4 h.version.toNat) (b := h.prevBlock)
      (r := h.merkleRoot ++ leBytes 4 h.timestamp.toNat ++ leBytes 4 h.bits.toNat ++
        leBytes 4 h.nonce.toNat ++ r) (a := 4) (n := 32) (by simp) h1
    simpa [blockHeaderBytes] using this
  have b2 : memRead (blockHeaderBytes h ++ r) 36 32 = some h.merkleRoot := by
    have := memRead_append (p := leBytes 4 h.version.toNat ++ h.prevBlock) (b := h.merkleRoot)
      (r := leBytes 4 h.timestamp.toNat ++ leBytes 4 h.bits.toNat ++
        leBytes 4 h.nonce.toNat ++ r) (a := 36) (n := 32) (by simp [h1]) h2
    simpa [blockHeaderBytes] using this
  have b3 : memRead (blockHeaderBytes h ++ r) 68 4 = some (leBytes 4 h.timestamp.toNat) := by
    have := memRead_append (p := leBytes 4 h.version.toNat ++ h.prevBlock ++ h.merkleRoot)
      (b := leBytes 4 h.timestamp.toNat)
      (r := leBytes 4 h.bits.toNat ++ leBytes 4 h.nonce.toNat ++ r) (a := 68) (n := 4)
      (by simp [h1, h2]) (by simp)
    simpa [blockHeaderBytes] using this
  have b4 : memRead (blockHeaderBytes h ++ r) 72 4 = some (leBytes 4 h.bits.toNat) := by
    have := memRead_append (p := leBytes 4 h.version.toNat ++ h.prevBlock ++ h.merkleRoot ++
      leBytes 4 h.timestamp.toNat) (b := leBytes 4 h.bits.toNat)
      (r := leBytes 4 h.nonce.toNat ++ r) (a := 72) (n := 4) (by simp [h1, h2]) (by simp)
    simpa [blockHeaderBytes] using this
  have b5 : memRead (blockHeaderBytes h ++ r) 76 4 = some (leBytes 4 h.nonce.toNat) := by
    have := memRead_append (p := leBytes 4 h.version.toNat ++ h.prevBlock ++ h.merkleRoot ++
      leBytes 4 h.timestamp.toNat ++ leBytes 4 h.bits.toNat) (b := leBytes 4 h.nonce.toNat)
      (r := r) (a := 76) (n := 4) (by simp [h1, h2]) (by simp)
    simpa [blockHeaderBytes] using this
  simp [readBlockHeader, b0, b1, b2, b3, b4, b5]

/-- An error of a block decode: always `TruncatedInput`, with cause and index together (R152). -/
def BlockError (e : ErrInfo) : Prop :=
  e.kind = .truncatedInput ∧
    ((e.cause = none ∧ e.txIndex = none) ∨
      ∃ k i, (k = .truncatedInput ∨ k = .malformedVarInt) ∧ e.cause = some k ∧ e.txIndex = some i)

theorem blockError_truncated (o : Nat) : BlockError (truncatedAt o) := ⟨rfl, .inl ⟨rfl, rfl⟩⟩

theorem blockError_wrap {e : ErrInfo} (i : Nat) (h : PlainError e) : BlockError (wrapTxError i e) :=
  ⟨rfl, .inr ⟨e.kind, i, h.1, rfl, rfl⟩⟩

/-- What the loop of `BlockDecode` keeps; `BASE` follows the cursor (R147). -/
structure MovedTxs (x x' : Regs) : Prop where
  wlen : x'.wlen = x.wlen
  le : x.off ≤ x'.off
  inside : x'.off ≤ x'.wlen
  base : x.base ≤ x.off → x'.base ≤ x'.off

theorem MovedTxs.trans {x y z : Regs} (h : MovedTxs x y) (g : MovedTxs y z) : MovedTxs x z :=
  ⟨g.wlen.trans h.wlen, h.le.trans g.le, g.inside, fun b => g.base (h.base b)⟩

theorem MovedBlk.txs {x y : Regs} (h : MovedBlk x y) : MovedTxs x y :=
  ⟨h.wlen, h.le, h.inside, fun _ => h.base.le.trans h.le⟩

theorem Ready.movedTxs {w : List Byte} {x x' : Regs} (h : Ready w x) (m : MovedTxs x x') :
    Ready w x' :=
  ⟨m.wlen.trans h.wlen, by have := m.inside; rw [m.wlen, h.wlen] at this; exact this⟩

/-- What one transaction of a block can answer (R151). -/
theorem tryTx_sound {w : List Byte} {x : Regs} (i : Nat) (hx : Ready w x) :
    match tryTx w i x with
    | .ok t x' => MovedBlk x x' ∧ ∃ b r, w.drop x.off = b ++ r ∧ TxWire b t ∧ x'.off = x.off + b.length
    | .raise e x' => MovedBlk x x' ∧ BlockError e
    | .outside _ => False := by
  have := txDecode_sound hx
  unfold tryTx
  cases hd : txDecode w x with
  | ok p x' =>
    rw [hd] at this
    obtain ⟨m, ho, b, r, hs, ht, hc⟩ := this
    exact ⟨m, b, r, hs, ht, by rw [ho, hc]⟩
  | raise e x' => rw [hd] at this; exact ⟨this.1, blockError_wrap i this.2⟩
  | outside f => rw [hd] at this; exact this

/-- Every transaction has at least 10 bytes (R116), here: some. -/
theorem txWire_pos {b : List Byte} {t : Transaction} (h : TxWire b t) : 0 < b.length := by
  obtain ⟨ci, i, co, o, _, _, _, _, rfl⟩ := h
  simp only [List.length_append, leBytes_length]; omega

theorem readTxs_sound (w : List Byte) : ∀ (fuel i : Nat) (x : Regs), Ready w x →
    match readTxs w fuel i x with
    | .ok ts x' => MovedTxs x x' ∧ ∃ b r, w.drop x.off = b ++ r ∧ ManyWire TxWire b ts ∧
        ts.length = x.ntx.toNat ∧ x'.off = x.off + b.length
    | .raise e x' => MovedTxs x x' ∧ BlockError e
    | .outside _ => False := by
  intro fuel
  induction fuel with
  | zero =>
    intro i x hx
    unfold readTxs
    by_cases h0 : x.ntx = 0
    · rw [if_pos h0]
      exact ⟨⟨rfl, le_refl _, by rw [hx.wlen]; exact hx.off, id⟩, [], w.drop x.off, rfl, rfl,
        by simp [h0], rfl⟩
    · rw [if_neg h0]
      exact ⟨⟨rfl, le_refl _, by simp only; rw [hx.wlen]; exact hx.off, fun _ => le_refl _⟩,
        blockError_wrap i (plainError_truncated _)⟩
  | succ n ih =>
    intro i x hx
    unfold readTxs
    by_cases h0 : x.ntx = 0
    · rw [if_pos h0]
      exact ⟨⟨rfl, le_refl _, by rw [hx.wlen]; exact hx.off, id⟩, [], w.drop x.off, rfl, rfl,
        by simp [h0], rfl⟩
    · rw [if_neg h0]
      have ht := tryTx_sound i hx
      cases hr : tryTx w i x with
      | raise e y => rw [hr] at ht; exact ⟨ht.1.txs, ht.2⟩
      | outside f => rw [hr] at ht; exact ht
      | ok t y =>
        rw [hr] at ht
        obtain ⟨m, b, r, hs, hw, ho⟩ := ht
        rw [Decoded.bind_ok]
        have hy := hx.movedTxs m.txs
        have hrec := ih (i + 1) { y with ntx := y.ntx - 1 } ⟨hy.wlen, hy.off⟩
        cases hq : readTxs w n (i + 1) { y with ntx := y.ntx - 1 } with
        | raise e z =>
          rw [hq] at hrec
          exact ⟨m.txs.trans ⟨hrec.1.wlen, hrec.1.le, hrec.1.inside, hrec.1.base⟩, hrec.2⟩
        | outside f => rw [hq] at hrec; exact hrec
        | ok ts z =>
          rw [hq] at hrec
          obtain ⟨m2, b2, r2, hs2, hw2, hlen, ho2⟩ := hrec
          refine ⟨m.txs.trans ⟨m2.wlen, m2.le, m2.inside, m2.base⟩, b ++ b2, r2, ?_, ⟨b, b2, hw, hw2, rfl⟩, ?_, ?_⟩
          · have := drop_split hs
            rw [← ho] at this
            simp only at hs2
            rw [hs2] at this
            rw [hs, ← this, List.append_assoc]
          · have hn := toNat_ne_zero h0
            simp only [List.length_cons, hlen, m.ntx, toNat_sub_one h0]
            omega
          · simp only at ho2
            rw [ho2, ho, List.length_append]; omega

theorem readTxs_complete (w : List Byte) : ∀ (ts : List Transaction) (fuel i : Nat) (x : Regs)
    (b r : List Byte), Ready w x → w.length - x.off ≤ fuel → x.ntx.toNat = ts.length →
      w.drop x.off = b ++ r → ManyWire TxWire b ts →
      ∃ x', readTxs w fuel i x = .ok ts x' ∧ MovedTxs x x' ∧ x'.off = x.off + b.length := by
  intro ts
  induction ts with
  | nil =>
    rintro fuel i x b r hx _ hn _ rfl
    have h0 : x.ntx = 0 := BitVec.eq_of_toNat_eq (by simpa using hn)
    refine ⟨x, ?_, ⟨rfl, le_refl _, by rw [hx.wlen]; exact hx.off, id⟩, rfl⟩
    cases fuel <;> simp [readTxs, h0]
  | cons t ts ih =>
    rintro fuel i x b r hx hf hn hs ⟨h, u, ht, hu, rfl⟩
    have h0 : x.ntx ≠ 0 := by intro h; simp [h] at hn
    rw [List.append_assoc] at hs
    have hpos := txWire_pos ht
    have hfit := drop_split_length hx.off hs
    cases fuel with
    | zero => omega
    | succ fuel =>
      obtain ⟨y, he, m, ho⟩ := txDecode_complete hx hs ht
      have hd := drop_split hs
      rw [← ho] at hd
      have hy := hx.movedTxs m.txs
      obtain ⟨z, he2, m2, ho2⟩ := ih fuel (i + 1) { y with ntx := y.ntx - 1 } u r ⟨hy.wlen, hy.off⟩
        (by simp only; omega)
        (by
          simp only [List.length_cons] at hn
          simp only [m.ntx, toNat_sub_one h0]
          omega) hd hu
      refine ⟨z, ?_, m.txs.trans ⟨m2.wlen, m2.le, m2.inside, m2.base⟩, ?_⟩
      · simp only [readTxs, h0, if_false, tryTx, he, Decoded.bind_ok, he2]
      · simp only at ho2; rw [ho2, ho, List.length_append]; omega

/-- The bound of the transaction loop is never what ends it: with any bound that covers the bytes
left, the loop is one turn and the loop again, as R151 writes it (R154). -/
theorem readTxs_unroll (w : List Byte) : ∀ (fuel i : Nat) (x : Regs), Ready w x →
    w.length - x.off ≤ fuel →
      readTxs w fuel i x =
        if x.ntx = 0 then .ok [] x
        else (tryTx w i x).bind fun t y =>
          (readTxs w fuel (i + 1) { y with ntx := y.ntx - 1 }).bind fun ts z => .ok (t :: ts) z := by
  intro fuel
  induction fuel with
  | zero =>
    intro i x hx hf
    have hoff := hx.off
    have hr : tryTx w i x = .raise (wrapTxError i (truncatedAt x.off)) { x with base := x.off } := by
      rw [tryTx, txDecode, readU32, readBytes_raise (by simp only; rw [hx.wlen]; omega),
        Decoded.bind_raise, Decoded.bind_raise]
    rw [hr, Decoded.bind_raise]
    rfl
  | succ n ih =>
    intro i x hx hf
    conv_lhs => unfold readTxs
    split
    · rfl
    · have ht := tryTx_sound i hx
      cases hr : tryTx w i x with
      | raise e y => rfl
      | outside f => rfl
      | ok t y =>
        rw [hr] at ht
        obtain ⟨m, b, r, hs, hw, ho⟩ := ht
        have hpos := txWire_pos hw
        have hy := hx.movedTxs m.txs
        have hyl := hy.off
        simp only [Decoded.bind_ok]
        congr 1
        rw [ih (i + 1) { y with ntx := y.ntx - 1 } ⟨hy.wlen, hy.off⟩ (by simp only; omega)]
        conv_rhs => unfold readTxs

/-- What `BlockDecode` can answer: a block whose layout is exactly the bytes it reports consumed, or
`TruncatedInput`; it never leaves the window (R152, R153), and
`BASE <= OFF` holds as it did at the start (R147). -/
theorem blockDecode_sound {w : List Byte} {x : Regs} (hx : Ready w x) :
    match blockDecode w x with
    | .ok (k, c) x' => x'.wlen = x.wlen ∧ (x.base = 0 → x'.base ≤ x'.off) ∧ x'.off = c ∧
        ∃ b r, w = b ++ r ∧ BlockWire b k ∧ c = b.length
    | .raise e x' => x'.wlen = x.wlen ∧ (x.base = 0 → x'.base ≤ x'.off) ∧
        x'.off ≤ x'.wlen ∧ BlockError e
    | .outside _ => False := by
  unfold blockDecode
  by_cases h80 : x.wlen < 80
  · rw [if_pos h80]
    exact ⟨rfl, fun h => by rw [h]; exact Nat.zero_le _, by rw [hx.wlen]; exact hx.off,
      blockError_truncated _⟩
  · rw [if_neg h80]
    have hl : 80 ≤ w.length := by rw [← hx.wlen]; omega
    obtain ⟨hd, he, hp, hm, hw⟩ := readBlockHeader_some hl
    rw [he]
    simp only
    have hx8 : Ready w { x with off := 80 } := ⟨hx.wlen, hl⟩
    have hv := readVarInt_sound hx8
    cases hr : readVarInt w { x with off := 80 } with
    | raise e y =>
      rw [hr] at hv
      refine ⟨hv.1.wlen, fun h => by rw [hv.1.base, h]; exact Nat.zero_le _, hv.1.inside, ?_⟩
      rw [(readVarInt_raise hx8 hr).1]
      exact blockError_truncated _
    | outside f => rw [hr] at hv; exact hv.elim
    | ok n y =>
      rw [hr] at hv
      obtain ⟨m, b, r, hs, hn, ho⟩ := hv
      simp only at hs ho
      have hy := hx8.moved m
      have hyb : x.base = 0 → y.base ≤ y.off := fun h => by rw [m.base, h]; exact Nat.zero_le _
      rw [Decoded.bind_ok]
      have ht := readTxs_sound w (y.wlen - y.off) 0 { y with ntx := n } ⟨hy.wlen, hy.off⟩
      cases hq : readTxs w (y.wlen - y.off) 0 { y with ntx := n } with
      | raise e z =>
        rw [hq] at ht
        exact ⟨ht.1.wlen.trans m.wlen, fun h => ht.1.base (hyb h), ht.1.inside, ht.2⟩
      | outside f => rw [hq] at ht; exact ht
      | ok ts z =>
        rw [hq] at ht
        obtain ⟨m2, b2, r2, hs2, hw2, hlen, ho2⟩ := ht
        simp only at hs2 ho2 hlen
        have hd2 := drop_split hs
        rw [← ho, hs2] at hd2
        refine ⟨m2.wlen.trans m.wlen, fun h => m2.base (hyb h), rfl, blockHeaderBytes hd ++ b ++ b2, r2, ?_,
          ⟨b, b2, ⟨n, hn, hlen.symm⟩, hw2, hp, hm, rfl⟩, ?_⟩
        · conv_lhs => rw [hw, hs, ← hd2]
          simp
        · rw [ho2, ho]
          simp only [List.length_append, blockHeaderBytes_length hp hm]

/-- `BlockDecode` answers the block at the start of the window, whatever follows it (R151, R153). -/
theorem blockDecode_complete {w : List Byte} {x : Regs} (hx : Ready w x) {k : Block}
    {b r : List Byte} (hs : w = b ++ r) (hk : BlockWire b k) :
    ∃ x', blockDecode w x = .ok (k, b.length) x' ∧ x'.wlen = x.wlen ∧ x'.off = b.length := by
  obtain ⟨hd, txs⟩ := k
  obtain ⟨c, ts, ⟨n, hn, hnl⟩, hts, hp, hm, rfl⟩ := hk
  simp only at hn hnl hts hp hm
  have hbl := blockHeaderBytes_length hp hm
  have hl : 80 ≤ w.length := by rw [hs]; simp only [List.length_append, hbl]; omega
  have hx8 : Ready w { x with off := 80 } := ⟨hx.wlen, hl⟩
  have hd80 : w.drop 80 = c ++ (ts ++ r) := by
    rw [hs, ← hbl]; simp
  have hhdr : readBlockHeader w = some hd := by
    rw [hs, List.append_assoc, List.append_assoc]; exact readBlockHeader_bytes hp hm
  obtain ⟨y, he, m, ho, hdy⟩ := (readVarInt_complete hx8).step hd80 hn
    fun ntx x => (readTxs w (x.wlen - x.off) 0 { x with ntx := ntx }).bind fun txs x =>
      Decoded.ok (({ header := hd, txs } : Block), x.off) x
  have hy := hx8.moved m
  obtain ⟨z, he2, m2, ho2⟩ := readTxs_complete w txs (y.wlen - y.off) 0 { y with ntx := n } ts r
    ⟨hy.wlen, hy.off⟩ (by simp only; rw [hy.wlen]) hnl hdy hts
  simp only at ho ho2
  have hoff : z.off = (blockHeaderBytes hd ++ c ++ ts).length := by
    simp only [List.length_append, hbl]; omega
  refine ⟨z, ?_, m2.wlen.trans m.wlen, hoff⟩
  unfold blockDecode
  rw [if_neg (by rw [hx.wlen]; omega), hhdr]
  simp only
  rw [he, he2, Decoded.bind_ok, hoff]

end Sys2Proof.Machine
end

