-- ==== Sys2Proof/Laws/Data.lean ====
section
/-! SUPPORT. What a stretch of a DATA run accepted, delivered and took from the stream is the sum over
its parts. -/

namespace Sys2Proof.Machine

@[simp] theorem fedBytes_append (a b : List Record) : fedBytes (a ++ b) = fedBytes a + fedBytes b := by
  induction a with
  | nil => simp [fedBytes]
  | cons r a ih => cases r <;> simp [fedBytes, ih, Nat.add_assoc]

@[simp] theorem deliveredFrames_append (a b : List Record) :
    deliveredFrames (a ++ b) = deliveredFrames a ++ deliveredFrames b := by
  induction a with
  | nil => rfl
  | cons r a ih => cases r <;> simp [deliveredFrames, ih]

theorem FrameStream.append {m a b : List Byte} {fs gs : List Frame} (h : FrameStream m a fs)
    (g : FrameStream m b gs) : FrameStream m (a ++ b) (fs ++ gs) := by
  induction h with
  | nil => exact g
  | valid hs hc _ ih => rw [List.append_assoc]; exact .valid hs hc ih
  | dropped hs hc _ ih => rw [List.append_assoc]; exact .dropped hs hc ih

end Sys2Proof.Machine
end

