-- ==== Sys2Proof/Laws/State.lean ====
section
/-! SUPPORT. One lemma per field per named update of the state, so that no later proof unfolds a
record update. -/

namespace Sys2Proof.Machine

@[simp] theorem State.rxlen_eq (s : State) : s.rxlen = s.mem.rx.length := rfl

/-! ### `emit` -/

@[simp] theorem State.emit_cfg (s : State) (r : Record) : (s.emit r).cfg = s.cfg := rfl
@[simp] theorem State.emit_x (s : State) (r : Record) : (s.emit r).x = s.x := rfl
@[simp] theorem State.emit_phase (s : State) (r : Record) : (s.emit r).phase = s.phase := rfl
@[simp] theorem State.emit_flags (s : State) (r : Record) : (s.emit r).flags = s.flags := rfl
@[simp] theorem State.emit_peerVersion (s : State) (r : Record) : (s.emit r).peerVersion = s.peerVersion := rfl
@[simp] theorem State.emit_peerServices (s : State) (r : Record) : (s.emit r).peerServices = s.peerServices := rfl
@[simp] theorem State.emit_errSeen (s : State) (r : Record) : (s.emit r).errSeen = s.errSeen := rfl
@[simp] theorem State.emit_rx (s : State) (r : Record) : (s.emit r).mem.rx = s.mem.rx := rfl
@[simp] theorem State.emit_fr (s : State) (r : Record) : (s.emit r).mem.fr = s.mem.fr := rfl
@[simp] theorem State.emit_w (s : State) (r : Record) : (s.emit r).mem.w = s.mem.w := rfl
@[simp] theorem State.emit_out (s : State) (r : Record) : (s.emit r).out = s.out ++ [r] := rfl
@[simp] theorem State.emit_cmd (s : State) (r : Record) : (s.emit r).cmd = s.cmd := rfl

/-! ### `setX` -/

@[simp] theorem State.setX_cfg (s : State) (x : Regs) : (s.setX x).cfg = s.cfg := rfl
@[simp] theorem State.setX_x (s : State) (x : Regs) : (s.setX x).x = x := rfl
@[simp] theorem State.setX_phase (s : State) (x : Regs) : (s.setX x).phase = s.phase := rfl
@[simp] theorem State.setX_flags (s : State) (x : Regs) : (s.setX x).flags = s.flags := rfl
@[simp] theorem State.setX_peerVersion (s : State) (x : Regs) : (s.setX x).peerVersion = s.peerVersion := rfl
@[simp] theorem State.setX_peerServices (s : State) (x : Regs) : (s.setX x).peerServices = s.peerServices := rfl
@[simp] theorem State.setX_errSeen (s : State) (x : Regs) : (s.setX x).errSeen = s.errSeen := rfl
@[simp] theorem State.setX_rx (s : State) (x : Regs) : (s.setX x).mem.rx = s.mem.rx := rfl
@[simp] theorem State.setX_fr (s : State) (x : Regs) : (s.setX x).mem.fr = s.mem.fr := rfl
@[simp] theorem State.setX_w (s : State) (x : Regs) : (s.setX x).mem.w = s.mem.w := rfl
@[simp] theorem State.setX_out (s : State) (x : Regs) : (s.setX x).out = s.out := rfl
@[simp] theorem State.setX_cmd (s : State) (x : Regs) : (s.setX x).cmd = s.cmd := rfl

/-! ### `setPhase` -/

@[simp] theorem State.setPhase_cfg (s : State) (p : Phase) : (s.setPhase p).cfg = s.cfg := rfl
@[simp] theorem State.setPhase_x (s : State) (p : Phase) : (s.setPhase p).x = s.x := rfl
@[simp] theorem State.setPhase_phase (s : State) (p : Phase) : (s.setPhase p).phase = p := rfl
@[simp] theorem State.setPhase_flags (s : State) (p : Phase) : (s.setPhase p).flags = s.flags := rfl
@[simp] theorem State.setPhase_peerVersion (s : State) (p : Phase) : (s.setPhase p).peerVersion = s.peerVersion := rfl
@[simp] theorem State.setPhase_peerServices (s : State) (p : Phase) : (s.setPhase p).peerServices = s.peerServices := rfl
@[simp] theorem State.setPhase_errSeen (s : State) (p : Phase) : (s.setPhase p).errSeen = s.errSeen := rfl
@[simp] theorem State.setPhase_rx (s : State) (p : Phase) : (s.setPhase p).mem.rx = s.mem.rx := rfl
@[simp] theorem State.setPhase_fr (s : State) (p : Phase) : (s.setPhase p).mem.fr = s.mem.fr := rfl
@[simp] theorem State.setPhase_w (s : State) (p : Phase) : (s.setPhase p).mem.w = s.mem.w := rfl
@[simp] theorem State.setPhase_out (s : State) (p : Phase) : (s.setPhase p).out = s.out := rfl
@[simp] theorem State.setPhase_cmd (s : State) (p : Phase) : (s.setPhase p).cmd = s.cmd := rfl

/-! ### `setFlags` -/

@[simp] theorem State.setFlags_cfg (s : State) (f : Flags) : (s.setFlags f).cfg = s.cfg := rfl
@[simp] theorem State.setFlags_x (s : State) (f : Flags) : (s.setFlags f).x = s.x := rfl
@[simp] theorem State.setFlags_phase (s : State) (f : Flags) : (s.setFlags f).phase = s.phase := rfl
@[simp] theorem State.setFlags_flags (s : State) (f : Flags) : (s.setFlags f).flags = f := rfl
@[simp] theorem State.setFlags_peerVersion (s : State) (f : Flags) : (s.setFlags f).peerVersion = s.peerVersion := rfl
@[simp] theorem State.setFlags_peerServices (s : State) (f : Flags) : (s.setFlags f).peerServices = s.peerServices := rfl
@[simp] theorem State.setFlags_errSeen (s : State) (f : Flags) : (s.setFlags f).errSeen = s.errSeen := rfl
@[simp] theorem State.setFlags_rx (s : State) (f : Flags) : (s.setFlags f).mem.rx = s.mem.rx := rfl
@[simp] theorem State.setFlags_fr (s : State) (f : Flags) : (s.setFlags f).mem.fr = s.mem.fr := rfl
@[simp] theorem State.setFlags_w (s : State) (f : Flags) : (s.setFlags f).mem.w = s.mem.w := rfl
@[simp] theorem State.setFlags_out (s : State) (f : Flags) : (s.setFlags f).out = s.out := rfl
@[simp] theorem State.setFlags_cmd (s : State) (f : Flags) : (s.setFlags f).cmd = s.cmd := rfl

/-! ### `setFrv` -/

@[simp] theorem State.setFrv_cfg (s : State) (b : Bool) : (s.setFrv b).cfg = s.cfg := rfl
@[simp] theorem State.setFrv_x (s : State) (b : Bool) : (s.setFrv b).x = s.x := rfl
@[simp] theorem State.setFrv_phase (s : State) (b : Bool) : (s.setFrv b).phase = s.phase := rfl
@[simp] theorem State.setFrv_flags (s : State) (b : Bool) : (s.setFrv b).flags = { s.flags with frv := b } := rfl
@[simp] theorem State.setFrv_peerVersion (s : State) (b : Bool) : (s.setFrv b).peerVersion = s.peerVersion := rfl
@[simp] theorem State.setFrv_peerServices (s : State) (b : Bool) : (s.setFrv b).peerServices = s.peerServices := rfl
@[simp] theorem State.setFrv_errSeen (s : State) (b : Bool) : (s.setFrv b).errSeen = s.errSeen := rfl
@[simp] theorem State.setFrv_rx (s : State) (b : Bool) : (s.setFrv b).mem.rx = s.mem.rx := rfl
@[simp] theorem State.setFrv_fr (s : State) (b : Bool) : (s.setFrv b).mem.fr = s.mem.fr := rfl
@[simp] theorem State.setFrv_w (s : State) (b : Bool) : (s.setFrv b).mem.w = s.mem.w := rfl
@[simp] theorem State.setFrv_out (s : State) (b : Bool) : (s.setFrv b).out = s.out := rfl
@[simp] theorem State.setFrv_cmd (s : State) (b : Bool) : (s.setFrv b).cmd = s.cmd := rfl

/-! ### `setPeer` -/

@[simp] theorem State.setPeer_cfg (s : State) (v : Word32) (sv : Word64) : (s.setPeer v sv).cfg = s.cfg := rfl
@[simp] theorem State.setPeer_x (s : State) (v : Word32) (sv : Word64) : (s.setPeer v sv).x = s.x := rfl
@[simp] theorem State.setPeer_phase (s : State) (v : Word32) (sv : Word64) : (s.setPeer v sv).phase = s.phase := rfl
@[simp] theorem State.setPeer_flags (s : State) (v : Word32) (sv : Word64) : (s.setPeer v sv).flags = { s.flags with peerInfoValid := true } := rfl
@[simp] theorem State.setPeer_peerVersion (s : State) (v : Word32) (sv : Word64) : (s.setPeer v sv).peerVersion = v := rfl
@[simp] theorem State.setPeer_peerServices (s : State) (v : Word32) (sv : Word64) : (s.setPeer v sv).peerServices = sv := rfl
@[simp] theorem State.setPeer_errSeen (s : State) (v : Word32) (sv : Word64) : (s.setPeer v sv).errSeen = s.errSeen := rfl
@[simp] theorem State.setPeer_rx (s : State) (v : Word32) (sv : Word64) : (s.setPeer v sv).mem.rx = s.mem.rx := rfl
@[simp] theorem State.setPeer_fr (s : State) (v : Word32) (sv : Word64) : (s.setPeer v sv).mem.fr = s.mem.fr := rfl
@[simp] theorem State.setPeer_w (s : State) (v : Word32) (sv : Word64) : (s.setPeer v sv).mem.w = s.mem.w := rfl
@[simp] theorem State.setPeer_out (s : State) (v : Word32) (sv : Word64) : (s.setPeer v sv).out = s.out := rfl
@[simp] theorem State.setPeer_cmd (s : State) (v : Word32) (sv : Word64) : (s.setPeer v sv).cmd = s.cmd := rfl

/-! ### `noteErr` -/

@[simp] theorem State.noteErr_cfg (s : State) (m : BitVec 7) : (s.noteErr m).cfg = s.cfg := rfl
@[simp] theorem State.noteErr_x (s : State) (m : BitVec 7) : (s.noteErr m).x = s.x := rfl
@[simp] theorem State.noteErr_phase (s : State) (m : BitVec 7) : (s.noteErr m).phase = s.phase := rfl
@[simp] theorem State.noteErr_flags (s : State) (m : BitVec 7) : (s.noteErr m).flags = s.flags := rfl
@[simp] theorem State.noteErr_peerVersion (s : State) (m : BitVec 7) : (s.noteErr m).peerVersion = s.peerVersion := rfl
@[simp] theorem State.noteErr_peerServices (s : State) (m : BitVec 7) : (s.noteErr m).peerServices = s.peerServices := rfl
@[simp] theorem State.noteErr_errSeen (s : State) (m : BitVec 7) : (s.noteErr m).errSeen = s.errSeen ||| m := rfl
@[simp] theorem State.noteErr_rx (s : State) (m : BitVec 7) : (s.noteErr m).mem.rx = s.mem.rx := rfl
@[simp] theorem State.noteErr_fr (s : State) (m : BitVec 7) : (s.noteErr m).mem.fr = s.mem.fr := rfl
@[simp] theorem State.noteErr_w (s : State) (m : BitVec 7) : (s.noteErr m).mem.w = s.mem.w := rfl
@[simp] theorem State.noteErr_out (s : State) (m : BitVec 7) : (s.noteErr m).out = s.out := rfl
@[simp] theorem State.noteErr_cmd (s : State) (m : BitVec 7) : (s.noteErr m).cmd = s.cmd := rfl

/-! ### `setRx` -/

@[simp] theorem State.setRx_cfg (s : State) (b : List Byte) : (s.setRx b).cfg = s.cfg := rfl
@[simp] theorem State.setRx_x (s : State) (b : List Byte) : (s.setRx b).x = s.x := rfl
@[simp] theorem State.setRx_phase (s : State) (b : List Byte) : (s.setRx b).phase = s.phase := rfl
@[simp] theorem State.setRx_flags (s : State) (b : List Byte) : (s.setRx b).flags = s.flags := rfl
@[simp] theorem State.setRx_peerVersion (s : State) (b : List Byte) : (s.setRx b).peerVersion = s.peerVersion := rfl
@[simp] theorem State.setRx_peerServices (s : State) (b : List Byte) : (s.setRx b).peerServices = s.peerServices := rfl
@[simp] theorem State.setRx_errSeen (s : State) (b : List Byte) : (s.setRx b).errSeen = s.errSeen := rfl
@[simp] theorem State.setRx_rx (s : State) (b : List Byte) : (s.setRx b).mem.rx = b := rfl
@[simp] theorem State.setRx_fr (s : State) (b : List Byte) : (s.setRx b).mem.fr = s.mem.fr := rfl
@[simp] theorem State.setRx_w (s : State) (b : List Byte) : (s.setRx b).mem.w = s.mem.w := rfl
@[simp] theorem State.setRx_out (s : State) (b : List Byte) : (s.setRx b).out = s.out := rfl
@[simp] theorem State.setRx_cmd (s : State) (b : List Byte) : (s.setRx b).cmd = s.cmd := rfl

/-! ### `setFr` -/

@[simp] theorem State.setFr_cfg (s : State) (f : Frame) : (s.setFr f).cfg = s.cfg := rfl
@[simp] theorem State.setFr_x (s : State) (f : Frame) : (s.setFr f).x = s.x := rfl
@[simp] theorem State.setFr_phase (s : State) (f : Frame) : (s.setFr f).phase = s.phase := rfl
@[simp] theorem State.setFr_flags (s : State) (f : Frame) : (s.setFr f).flags = s.flags := rfl
@[simp] theorem State.setFr_peerVersion (s : State) (f : Frame) : (s.setFr f).peerVersion = s.peerVersion := rfl
@[simp] theorem State.setFr_peerServices (s : State) (f : Frame) : (s.setFr f).peerServices = s.peerServices := rfl
@[simp] theorem State.setFr_errSeen (s : State) (f : Frame) : (s.setFr f).errSeen = s.errSeen := rfl
@[simp] theorem State.setFr_rx (s : State) (f : Frame) : (s.setFr f).mem.rx = s.mem.rx := rfl
@[simp] theorem State.setFr_fr (s : State) (f : Frame) : (s.setFr f).mem.fr = f := rfl
@[simp] theorem State.setFr_w (s : State) (f : Frame) : (s.setFr f).mem.w = s.mem.w := rfl
@[simp] theorem State.setFr_out (s : State) (f : Frame) : (s.setFr f).out = s.out := rfl
@[simp] theorem State.setFr_cmd (s : State) (f : Frame) : (s.setFr f).cmd = s.cmd := rfl

/-! ### `setCmd` -/

@[simp] theorem State.setCmd_cfg (s : State) (c : List HostEvent) : (s.setCmd c).cfg = s.cfg := rfl
@[simp] theorem State.setCmd_x (s : State) (c : List HostEvent) : (s.setCmd c).x = s.x := rfl
@[simp] theorem State.setCmd_phase (s : State) (c : List HostEvent) : (s.setCmd c).phase = s.phase := rfl
@[simp] theorem State.setCmd_flags (s : State) (c : List HostEvent) : (s.setCmd c).flags = s.flags := rfl
@[simp] theorem State.setCmd_peerVersion (s : State) (c : List HostEvent) : (s.setCmd c).peerVersion = s.peerVersion := rfl
@[simp] theorem State.setCmd_peerServices (s : State) (c : List HostEvent) : (s.setCmd c).peerServices = s.peerServices := rfl
@[simp] theorem State.setCmd_errSeen (s : State) (c : List HostEvent) : (s.setCmd c).errSeen = s.errSeen := rfl
@[simp] theorem State.setCmd_rx (s : State) (c : List HostEvent) : (s.setCmd c).mem.rx = s.mem.rx := rfl
@[simp] theorem State.setCmd_fr (s : State) (c : List HostEvent) : (s.setCmd c).mem.fr = s.mem.fr := rfl
@[simp] theorem State.setCmd_w (s : State) (c : List HostEvent) : (s.setCmd c).mem.w = s.mem.w := rfl
@[simp] theorem State.setCmd_out (s : State) (c : List HostEvent) : (s.setCmd c).out = s.out := rfl
@[simp] theorem State.setCmd_cmd (s : State) (c : List HostEvent) : (s.setCmd c).cmd = c := rfl

/-! ### `loadWindow` -/

@[simp] theorem State.loadWindow_cfg (s : State) (b : List Byte) : (s.loadWindow b).cfg = s.cfg := rfl
@[simp] theorem State.loadWindow_x (s : State) (b : List Byte) : (s.loadWindow b).x = { s.x with wlen := b.length } := rfl
@[simp] theorem State.loadWindow_phase (s : State) (b : List Byte) : (s.loadWindow b).phase = s.phase := rfl
@[simp] theorem State.loadWindow_flags (s : State) (b : List Byte) : (s.loadWindow b).flags = s.flags := rfl
@[simp] theorem State.loadWindow_peerVersion (s : State) (b : List Byte) : (s.loadWindow b).peerVersion = s.peerVersion := rfl
@[simp] theorem State.loadWindow_peerServices (s : State) (b : List Byte) : (s.loadWindow b).peerServices = s.peerServices := rfl
@[simp] theorem State.loadWindow_errSeen (s : State) (b : List Byte) : (s.loadWindow b).errSeen = s.errSeen := rfl
@[simp] theorem State.loadWindow_rx (s : State) (b : List Byte) : (s.loadWindow b).mem.rx = s.mem.rx := rfl
@[simp] theorem State.loadWindow_fr (s : State) (b : List Byte) : (s.loadWindow b).mem.fr = s.mem.fr := rfl
@[simp] theorem State.loadWindow_w (s : State) (b : List Byte) : (s.loadWindow b).mem.w = b := rfl
@[simp] theorem State.loadWindow_out (s : State) (b : List Byte) : (s.loadWindow b).out = s.out := rfl
@[simp] theorem State.loadWindow_cmd (s : State) (b : List Byte) : (s.loadWindow b).cmd = s.cmd := rfl

/-! ### `openWindow` -/

@[simp] theorem State.openWindow_cfg (s : State) (b : List Byte) : (s.openWindow b).cfg = s.cfg := rfl
@[simp] theorem State.openWindow_x (s : State) (b : List Byte) : (s.openWindow b).x = { s.x with wlen := b.length, off := 0, base := 0 } := rfl
@[simp] theorem State.openWindow_phase (s : State) (b : List Byte) : (s.openWindow b).phase = s.phase := rfl
@[simp] theorem State.openWindow_flags (s : State) (b : List Byte) : (s.openWindow b).flags = s.flags := rfl
@[simp] theorem State.openWindow_peerVersion (s : State) (b : List Byte) : (s.openWindow b).peerVersion = s.peerVersion := rfl
@[simp] theorem State.openWindow_peerServices (s : State) (b : List Byte) : (s.openWindow b).peerServices = s.peerServices := rfl
@[simp] theorem State.openWindow_errSeen (s : State) (b : List Byte) : (s.openWindow b).errSeen = s.errSeen := rfl
@[simp] theorem State.openWindow_rx (s : State) (b : List Byte) : (s.openWindow b).mem.rx = s.mem.rx := rfl
@[simp] theorem State.openWindow_fr (s : State) (b : List Byte) : (s.openWindow b).mem.fr = s.mem.fr := rfl
@[simp] theorem State.openWindow_w (s : State) (b : List Byte) : (s.openWindow b).mem.w = b := rfl
@[simp] theorem State.openWindow_out (s : State) (b : List Byte) : (s.openWindow b).out = s.out := rfl
@[simp] theorem State.openWindow_cmd (s : State) (b : List Byte) : (s.openWindow b).cmd = s.cmd := rfl

/-! ### `appendRx` -/

@[simp] theorem State.appendRx_cfg (s : State) (b : List Byte) : (s.appendRx b).cfg = s.cfg := rfl
@[simp] theorem State.appendRx_x (s : State) (b : List Byte) : (s.appendRx b).x = s.x := rfl
@[simp] theorem State.appendRx_phase (s : State) (b : List Byte) : (s.appendRx b).phase = s.phase := rfl
@[simp] theorem State.appendRx_flags (s : State) (b : List Byte) : (s.appendRx b).flags = s.flags := rfl
@[simp] theorem State.appendRx_peerVersion (s : State) (b : List Byte) : (s.appendRx b).peerVersion = s.peerVersion := rfl
@[simp] theorem State.appendRx_peerServices (s : State) (b : List Byte) : (s.appendRx b).peerServices = s.peerServices := rfl
@[simp] theorem State.appendRx_errSeen (s : State) (b : List Byte) : (s.appendRx b).errSeen = s.errSeen := rfl
@[simp] theorem State.appendRx_rx (s : State) (b : List Byte) : (s.appendRx b).mem.rx = s.mem.rx ++ b := rfl
@[simp] theorem State.appendRx_fr (s : State) (b : List Byte) : (s.appendRx b).mem.fr = s.mem.fr := rfl
@[simp] theorem State.appendRx_w (s : State) (b : List Byte) : (s.appendRx b).mem.w = s.mem.w := rfl
@[simp] theorem State.appendRx_out (s : State) (b : List Byte) : (s.appendRx b).out = s.out := rfl
@[simp] theorem State.appendRx_cmd (s : State) (b : List Byte) : (s.appendRx b).cmd = s.cmd := rfl

/-! ### `dropRx` -/

@[simp] theorem State.dropRx_cfg (s : State) (n : Nat) : (s.dropRx n).cfg = s.cfg := rfl
@[simp] theorem State.dropRx_x (s : State) (n : Nat) : (s.dropRx n).x = s.x := rfl
@[simp] theorem State.dropRx_phase (s : State) (n : Nat) : (s.dropRx n).phase = s.phase := rfl
@[simp] theorem State.dropRx_flags (s : State) (n : Nat) : (s.dropRx n).flags = s.flags := rfl
@[simp] theorem State.dropRx_peerVersion (s : State) (n : Nat) : (s.dropRx n).peerVersion = s.peerVersion := rfl
@[simp] theorem State.dropRx_peerServices (s : State) (n : Nat) : (s.dropRx n).peerServices = s.peerServices := rfl
@[simp] theorem State.dropRx_errSeen (s : State) (n : Nat) : (s.dropRx n).errSeen = s.errSeen := rfl
@[simp] theorem State.dropRx_rx (s : State) (n : Nat) : (s.dropRx n).mem.rx = s.mem.rx.drop n := rfl
@[simp] theorem State.dropRx_fr (s : State) (n : Nat) : (s.dropRx n).mem.fr = s.mem.fr := rfl
@[simp] theorem State.dropRx_w (s : State) (n : Nat) : (s.dropRx n).mem.w = s.mem.w := rfl
@[simp] theorem State.dropRx_out (s : State) (n : Nat) : (s.dropRx n).out = s.out := rfl
@[simp] theorem State.dropRx_cmd (s : State) (n : Nat) : (s.dropRx n).cmd = s.cmd := rfl

end Sys2Proof.Machine
end

