-- ==== Sys2Proof/Laws/Ops.lean ====
section
/-! SUPPORT. For each shared operation, once, everything it can do. -/

namespace Sys2Proof.Laws

open Sys2Proof.Machine

/-! ### Phases -/

/-- The session operations are performed in the live phases, and in no other. -/
@[simp] theorem phaseRefusal_eq_none_iff (p : Phase) : phaseRefusal p = none ↔ p.live = true := by
  cases p <;> decide

theorem phaseRefusal_live {p : Phase} (h : p.live = true) : phaseRefusal p = none :=
  (phaseRefusal_eq_none_iff p).2 h

/-- In which phases which refusal is reported. -/
theorem phaseRefusal_some {p : Phase} {r : RefuseReason} (h : phaseRefusal p = some r) :
    (p = .init ∧ r = .notConnected) ∨ ((p = .closed ∨ p = .error) ∧ r = .sessionEnded) := by
  cases p <;> simp_all [phaseRefusal]

theorem live_ne_error {p : Phase} (h : p.live = true) : p ≠ .error := by
  cases p <;> simp_all [Phase.live]

/-! ### Capacities -/

@[simp] theorem fits_iff (c : Option Nat) (n : Nat) : fits c n = true ↔ withinCap c n := by
  cases c <;> simp [fits, withinCap]

theorem feedCount_le (c : Option Nat) (r n : Nat) : feedCount c r n ≤ n := by
  cases c <;> simp [feedCount]

/-- FEED never overfills `RX`. -/
theorem feedCount_fits {c : Option Nat} {r n : Nat} (h : withinCap c r) :
    withinCap c (r + feedCount c r n) := by
  intro k hk
  subst hk
  have := h k rfl
  simp only [feedCount]
  omega

/-! ### Refusing and taking an error -/

@[simp] theorem refuse_eq (r : RefuseReason) (s : State) : refuse r s = .next (s.emit (.refused r)) := rfl

@[simp] theorem takeError_standAlone (e : ErrInfo) (s : State) :
    takeError .standAlone e s = s.emit (.err e) := rfl

/-- Everything an error does under a session operation. -/
theorem takeError_session (e : ErrInfo) (s : State) :
    takeError .session e s =
      { s with
        phase := if e.kind.fatal then .error else s.phase
        errSeen := s.errSeen ||| errBits e
        out := s.out ++ [.err e] } := by
  unfold takeError
  by_cases h : e.kind.fatal = true <;> simp [h, State.setPhase, State.noteErr, State.emit]

/-- Everything noting an unknown command does. -/
theorem noteUnknown_eq (s : State) :
    noteUnknown s =
      { s with errSeen := s.errSeen ||| 0x20, out := s.out ++ [.ignored .unknownCommand] } := rfl

/-! ### Ending a decode -/

/-- The three ways a decode operation ends. -/
theorem finishDecode_cases {α : Type} (u : Under) (rec : α → Record) (d : Decoded α) (s : State) :
    (∃ a x, d = .ok a x ∧
      finishDecode u rec d s = .next { s with x := x, out := s.out ++ [rec a] }) ∨
    (∃ e x, d = .raise e x ∧ finishDecode u rec d s = .next (takeError u e (s.setX x))) ∨
    (∃ f, d = .outside f ∧ finishDecode u rec d s = .fault f) := by
  cases d with
  | ok a x => exact .inl ⟨a, x, rfl, rfl⟩
  | raise e x => exact .inr (.inl ⟨e, x, rfl, rfl⟩)
  | outside f => exact .inr (.inr ⟨f, rfl, rfl⟩)

/-! ### The host's events -/

/-- The three things `fetch` can find. -/
theorem fetch_cases (s : State) :
    (s.cmd = [] ∧ fetch s = .idle) ∨
    (∃ rest, s.cmd = .rst :: rest ∧ fetch s = .rst { State.resetWith s.cfg with cmd := rest }) ∨
    (∃ w rest, s.cmd = .cmd w :: rest ∧ fetch s = .op w { s with cmd := rest }) := by
  unfold fetch
  rcases h : s.cmd with _ | ⟨_ | w, rest⟩
  · exact .inl ⟨rfl, rfl⟩
  · exact .inr (.inl ⟨rest, rfl, rfl⟩)
  · exact .inr (.inr ⟨w, rest, rfl, rfl⟩)

/-- What a step that answers a next state was. -/
theorem step_cases {s t : State} (h : step s = .next t) :
    (s.cmd = [] ∧ t = s) ∨
    (∃ rest, s.cmd = .rst :: rest ∧ t = { State.resetWith s.cfg with cmd := rest }) ∨
    (∃ w rest i, s.cmd = .cmd w :: rest ∧ decodeOp w = .ok i ∧
      exec i { s with cmd := rest } = .next t) := by
  unfold step at h
  rcases fetch_cases s with ⟨hc, hf⟩ | ⟨rest, hc, hf⟩ | ⟨w, rest, hc, hf⟩
  · rw [hf] at h
    exact .inl ⟨hc, by simpa using h.symm⟩
  · rw [hf] at h
    exact .inr (.inl ⟨rest, hc, by simpa using h.symm⟩)
  · rw [hf] at h
    cases hd : decodeOp w with
    | ok i => exact .inr (.inr ⟨w, rest, i, hc, hd, by simpa [hd] using h⟩)
    | error e => simp [hd] at h

/-- The operations the command port can carry: no wire form and no message form. -/
theorem decodeOp_cases {w : CmdWord} {i : Instr} (h : decodeOp w = .ok i) :
    i = .connect ∨ (∃ b, i = .feed b) ∨ i = .extract ∨ i = .route ∨ i = .close ∨
      (∃ b o, i = .varint b o) ∨ (∃ b, i = .txdec b) ∨ (∃ b, i = .blkdec b) ∨
      i ∈ [Instr.illegal0, .illegal6, .illegal7, .illegalB, .illegalC, .illegalD, .illegalE,
        .illegalF] := by
  unfold decodeOp at h
  split at h <;> first | (cases h; simp) | cases h

end Sys2Proof.Laws
end

