-- ==== Sys2Proof/Laws/Memory.lean ====
section
/-! SUPPORT. Every operation over the byte spaces keeps the sizes of `Memory.wf` and, where it writes
`W` or `WLEN`, their agreement (`spec/10_state.md` R31 to R33). -/

namespace Sys2Proof.Laws

open Sys2Proof.Machine

/-- What `Memory.wf` says, as a proposition. -/
theorem memory_wf_iff (c : Config) (m : Memory) :
    Memory.wf c m = true ↔ withinCap c.rxcap m.rx.length ∧ m.fr.sized = true := by
  simp [Memory.wf]

/-- Reset's memory has the sizes. -/
theorem reset_memory_wf (c : Config) : Memory.wf c (State.resetWith c).mem = true := by
  rw [memory_wf_iff]
  exact ⟨fun k _ => Nat.zero_le k, (by decide : blankFrame.sized = true)⟩

/-- So has the memory of `State.reset`. -/
theorem state_reset_memory_wf : Memory.wf State.reset.cfg State.reset.mem = true :=
  reset_memory_wf Config.standard

/-- Appending what FEED accepts keeps the sizes. -/
theorem appendRx_wf {s : State} {b : List Byte} (h : Memory.wf s.cfg s.mem = true) :
    Memory.wf s.cfg (s.appendRx (b.take (feedCount s.cfg.rxcap s.rxlen b.length))).mem = true := by
  rw [memory_wf_iff] at h ⊢
  refine ⟨?_, h.2⟩
  have hk := feedCount_le s.cfg.rxcap s.rxlen b.length
  rw [State.appendRx_rx, List.length_append, List.length_take, Nat.min_eq_left hk]
  exact feedCount_fits h.1

/-- Dropping bytes from the head of `RX` keeps the sizes. -/
theorem dropRx_wf {s : State} {n : Nat} (h : Memory.wf s.cfg s.mem = true) :
    Memory.wf s.cfg (s.dropRx n).mem = true := by
  rw [memory_wf_iff] at h ⊢
  refine ⟨fun k hk => ?_, h.2⟩
  have := h.1 k hk
  simp only [State.dropRx_rx, List.length_drop]
  omega

/-- Emptying `RX` keeps the sizes. -/
theorem clearRx_wf {s : State} (h : Memory.wf s.cfg s.mem = true) :
    Memory.wf s.cfg (s.setRx []).mem = true := by
  rw [memory_wf_iff] at h ⊢
  exact ⟨fun k _ => Nat.zero_le k, h.2⟩

/-- Loading `FR` with a frame of the right sizes keeps them. -/
theorem setFr_wf {s : State} {f : Frame} (h : Memory.wf s.cfg s.mem = true) (hf : f.sized = true) :
    Memory.wf s.cfg (s.setFr f).mem = true := by
  rw [memory_wf_iff] at h ⊢
  exact ⟨h.1, hf⟩

/-- Loading `W` does not touch `RX` and `FR`, and `WLEN` follows. -/
theorem loadWindow_wf {s : State} {b : List Byte} (h : Memory.wf s.cfg s.mem = true) :
    Memory.wf s.cfg (s.loadWindow b).mem = true ∧ (s.loadWindow b).windowWf = true :=
  ⟨h, by simp [State.windowWf]⟩

/-- The same of `openWindow`. -/
theorem openWindow_wf {s : State} {b : List Byte} (h : Memory.wf s.cfg s.mem = true) :
    Memory.wf s.cfg (s.openWindow b).mem = true ∧ (s.openWindow b).windowWf = true :=
  ⟨h, by simp [State.windowWf]⟩

/-! ### Reading a byte back -/

/-- After an append, the bytes that were there are there. -/
theorem readByte_appendRx_old {s : State} {b : List Byte} {a : Nat} (h : a < s.mem.rx.length) :
    (s.appendRx b).readByte .rx a = s.readByte .rx a := by
  simp [State.readByte, List.getElem?_append_left h]

/-- After an append, the new bytes stand behind them, in order. -/
theorem readByte_appendRx_new {s : State} {b : List Byte} (a : Nat) :
    (s.appendRx b).readByte .rx (s.mem.rx.length + a) = b[a]? := by
  simp [State.readByte, List.getElem?_append_right]

/-- Dropping the head moves every other byte down. -/
theorem readByte_dropRx {s : State} (n a : Nat) :
    (s.dropRx n).readByte .rx a = s.readByte .rx (n + a) := by
  simp [State.readByte]

/-- A load of `W` is read back whole. -/
theorem readByte_loadWindow {s : State} (b : List Byte) (a : Nat) :
    (s.loadWindow b).readByte .w a = b[a]? := rfl

/-- A load of `FR` is read back whole. -/
theorem readByte_setFr {s : State} (f : Frame) (a : Nat) :
    (s.setFr f).readByte .fr a = f.payload[a]? := rfl

end Sys2Proof.Laws
end

