-- ==== Sys2Proof/Laws/PerInstr.lean ====
section
/-! SUPPORT. The family `RowMatch`: the encoding of every well-formed instruction is selected by its own
row of `spec/opcode_table.json` and by no other. -/

namespace Sys2Proof.Laws.RowMatch

/-- A row of the table: the number its `mask` bits must read, none for the default row of a format. -/
structure Row where
  mnemonic : String
  number : Option Nat
  deriving DecidableEq, Repr

/-- The rows of format VI, by the first byte; the default row last. -/
def viRows : List Row :=
  [⟨"VI3", some 0xFD⟩, ⟨"VI5", some 0xFE⟩, ⟨"VI9", some 0xFF⟩, ⟨"VI1", none⟩]

/-- The rows of format MH, by the 12 bytes of the command field, the first wire byte on top. -/
def mhRows : List Row :=
  [⟨"MSG_VERSION", some 0x76657273696f6e0000000000⟩, ⟨"MSG_VERACK", some 0x76657261636b000000000000⟩,
   ⟨"MSG_BLOCK", some 0x626c6f636b00000000000000⟩, ⟨"MSG_TX", some 0x747800000000000000000000⟩,
   ⟨"MSG_UNKNOWN", none⟩]

/-- The rows of format OP, by the operation code. -/
def opRows : List Row :=
  [⟨"CONNECT", some 1⟩, ⟨"FEED", some 2⟩, ⟨"EXTRACT", some 3⟩, ⟨"ROUTE", some 4⟩, ⟨"CLOSE", some 5⟩,
   ⟨"VARINT", some 8⟩, ⟨"TXDEC", some 9⟩, ⟨"BLKDEC", some 10⟩] ++
  [⟨"ILLEGAL_0", some 0⟩, ⟨"ILLEGAL_6", some 6⟩, ⟨"ILLEGAL_7", some 7⟩, ⟨"ILLEGAL_B", some 11⟩,
   ⟨"ILLEGAL_C", some 12⟩, ⟨"ILLEGAL_D", some 13⟩, ⟨"ILLEGAL_E", some 14⟩, ⟨"ILLEGAL_F", some 15⟩]

/-- The row of a list that a number selects. -/
def pick (rows : List Row) (n : Nat) : Option String :=
  (rows.find? fun r => r.number.isNone || r.number == some n).map Row.mnemonic

/-- The row an encoding selects. -/
def rowOf : Encoding → Option String
  | .vi s => pick viRows (leNat (s.take 1))
  | .mh s => pick mhRows (beNat ((s.drop 4).take 12))
  | .op w => pick opRows w.op.toNat

/-- The mnemonic of each constructor's own row. -/
def mnemonic : Instr → String
  | .vi1 _ => "VI1"
  | .vi3 _ => "VI3"
  | .vi5 _ => "VI5"
  | .vi9 _ => "VI9"
  | .msgVersion _ _ _ => "MSG_VERSION"
  | .msgVerack _ _ _ => "MSG_VERACK"
  | .msgBlock _ _ _ => "MSG_BLOCK"
  | .msgTx _ _ _ => "MSG_TX"
  | .msgUnknown _ _ _ _ => "MSG_UNKNOWN"
  | .connect => "CONNECT"
  | .feed _ => "FEED"
  | .extract => "EXTRACT"
  | .route => "ROUTE"
  | .close => "CLOSE"
  | .varint _ _ => "VARINT"
  | .txdec _ => "TXDEC"
  | .blkdec _ => "BLKDEC"
  | .illegal0 => "ILLEGAL_0"
  | .illegal6 => "ILLEGAL_6"
  | .illegal7 => "ILLEGAL_7"
  | .illegalB => "ILLEGAL_B"
  | .illegalC => "ILLEGAL_C"
  | .illegalD => "ILLEGAL_D"
  | .illegalE => "ILLEGAL_E"
  | .illegalF => "ILLEGAL_F"

/-- The encoding of a well-formed instruction selects the instruction's own row. -/
def Statement (i : Instr) : Prop :=
  ∀ magic : List Byte, magic.length = 4 → i.wellFormed = true →
    rowOf (encode magic i) = some (mnemonic i)

/-- The number of a command field. -/
theorem command_number (magic : List Byte) (f : Frame) (hm : magic.length = 4)
    (hc : f.command.length = 12) :
    rowOf (.mh (encodeFrame magic f)) = pick mhRows (beNat f.command) := by
  have h1 : ((encodeFrame magic f).drop 4).take 12 = f.command := by
    rw [← hm, encodeFrame]
    simp only [List.append_assoc, List.drop_left]
    rw [← hc]
    simp
  simp [rowOf, h1]

/-- Fields of 12 bytes with one number are one field. -/
theorem beNat_injective {a b : List Byte} (ha : a.length = 12) (hb : b.length = 12)
    (h : beNat a = beNat b) : a = b := by
  have h1 := leBytes_leNat a.reverse
  have h2 := leBytes_leNat b.reverse
  rw [List.length_reverse, ha] at h1
  rw [List.length_reverse, hb] at h2
  unfold beNat at h
  rw [h, h2] at h1
  exact (List.reverse_injective h1).symm

theorem vi1 (p : Byte) : Statement (.vi1 p) := by
  intro magic _ hw
  have hp : p.toNat ≤ 0xFC := by simpa [Instr.wellFormed, ViForm.wellFormed] using hw
  have h : ∀ p : Byte, p.toNat ≤ 0xFC → pick viRows p.toNat = some "VI1" := by decide +kernel
  simpa [rowOf, encode, encodeVi, mnemonic, leNat] using h p hp

theorem vi3 (b : BitVec 16) : Statement (.vi3 b) := by
  intro magic _ _
  rfl

theorem vi5 (b : Word32) : Statement (.vi5 b) := by
  intro magic _ _
  rfl

theorem vi9 (b : Word64) : Statement (.vi9 b) := by
  intro magic _ _
  rfl

theorem msgVersion (n : Word32) (c p : List Byte) : Statement (.msgVersion n c p) := by
  intro magic hm _
  have h : pick mhRows (beNat (pad12 nameVersion)) = some "MSG_VERSION" := by decide +kernel
  rw [encode, command_number magic _ hm (by rfl)]
  exact h

theorem msgVerack (n : Word32) (c p : List Byte) : Statement (.msgVerack n c p) := by
  intro magic hm _
  have h : pick mhRows (beNat (pad12 nameVerack)) = some "MSG_VERACK" := by decide +kernel
  rw [encode, command_number magic _ hm (by rfl)]
  exact h

theorem msgBlock (n : Word32) (c p : List Byte) : Statement (.msgBlock n c p) := by
  intro magic hm _
  have h : pick mhRows (beNat (pad12 nameBlock)) = some "MSG_BLOCK" := by decide +kernel
  rw [encode, command_number magic _ hm (by rfl)]
  exact h

theorem msgTx (n : Word32) (c p : List Byte) : Statement (.msgTx n c p) := by
  intro magic hm _
  have h : pick mhRows (beNat (pad12 nameTx)) = some "MSG_TX" := by decide +kernel
  rw [encode, command_number magic _ hm (by rfl)]
  exact h

theorem msgUnknown (cmd : List Byte) (n : Word32) (c p : List Byte) : Statement (.msgUnknown cmd n c p) := by
  intro magic hm hw
  obtain ⟨⟨hc, -⟩, hu⟩ : (cmd.length = 12 ∧ frameSized n c p = true) ∧ selectCommand cmd = .unknown := by
    simpa [Instr.wellFormed] using hw
  have hn : ∀ k : List Byte, k.length = 12 → cmd ≠ k → beNat cmd ≠ beNat k :=
    fun k hk hne he => hne (beNat_injective hc hk he)
  simp only [selectCommand] at hu
  split at hu; · cases hu
  split at hu; · cases hu
  split at hu; · cases hu
  split at hu; · cases hu
  rename_i h1 h2 h3 h4
  have e1 := hn _ (by decide) h1
  have e2 := hn _ (by decide) h2
  have e3 := hn _ (by decide) h3
  have e4 := hn _ (by decide) h4
  rw [show beNat (pad12 nameVersion) = 0x76657273696f6e0000000000 from by decide +kernel] at e1
  rw [show beNat (pad12 nameVerack) = 0x76657261636b000000000000 from by decide +kernel] at e2
  rw [show beNat (pad12 nameBlock) = 0x626c6f636b00000000000000 from by decide +kernel] at e3
  rw [show beNat (pad12 nameTx) = 0x747800000000000000000000 from by decide +kernel] at e4
  rw [encode, command_number magic _ hm hc]
  simp [pick, mhRows, mnemonic, e1.symm, e2.symm, e3.symm, e4.symm]

theorem connect : Statement .connect := by
  intro magic _ _
  rfl

theorem feed (b : List Byte) : Statement (.feed b) := by
  intro magic _ _
  rfl

theorem extract : Statement .extract := by
  intro magic _ _
  rfl

theorem route : Statement .route := by
  intro magic _ _
  rfl

theorem close : Statement .close := by
  intro magic _ _
  rfl

theorem varint (buf : List Byte) (o : Nat) : Statement (.varint buf o) := by
  intro magic _ _
  rfl

theorem txdec (buf : List Byte) : Statement (.txdec buf) := by
  intro magic _ _
  rfl

theorem blkdec (buf : List Byte) : Statement (.blkdec buf) := by
  intro magic _ _
  rfl

theorem illegal0 : Statement .illegal0 := by
  intro magic _ _
  rfl

theorem illegal6 : Statement .illegal6 := by
  intro magic _ _
  rfl

theorem illegal7 : Statement .illegal7 := by
  intro magic _ _
  rfl

theorem illegalB : Statement .illegalB := by
  intro magic _ _
  rfl

theorem illegalC : Statement .illegalC := by
  intro magic _ _
  rfl

theorem illegalD : Statement .illegalD := by
  intro magic _ _
  rfl

theorem illegalE : Statement .illegalE := by
  intro magic _ _
  rfl

theorem illegalF : Statement .illegalF := by
  intro magic _ _
  rfl

end Sys2Proof.Laws.RowMatch
end

