-- ==== Sys2Proof/Tests/Slice0.lean ====
section
/-! SUPPORT. The model's own tests: ill-formed terms, decoding of words written out from the tables,
one step of each instruction, and for every obligation with hypotheses a state and operands that meet
them together. Expected results come from `spec/95_test_vectors.md` (named V.., TX.., BK.., S..) or
were written out by hand from the cited rule. -/

namespace Sys2Proof.Tests

open Sys2Proof.Machine

/-! ### Ill-formed terms -/

theorem test_wf_vi1_first_byte : Instr.wellFormed (.vi1 0xFD) = false := by decide
theorem test_wf_vi1_greatest : Instr.wellFormed (.vi1 0xFC) = true := by decide
theorem test_wf_checksum_length : Instr.wellFormed (.msgTx 0 [1, 2, 3] []) = false := by decide
theorem test_wf_payload_length : Instr.wellFormed (.msgBlock 2 [1, 2, 3, 4] [7]) = false := by decide
theorem test_wf_version_payload : Instr.wellFormed (.msgVersion 1 [1, 2, 3, 4] []) = false := by decide
theorem test_wf_verack_checksum : Instr.wellFormed (.msgVerack 0 [] []) = false := by decide
theorem test_wf_unknown_command_length :
    Instr.wellFormed (.msgUnknown [0x70] 0 [1, 2, 3, 4] []) = false := by decide
theorem test_wf_unknown_known_name :
    Instr.wellFormed (.msgUnknown (pad12 nameTx) 0 [1, 2, 3, 4] []) = false := by decide
theorem test_wf_unknown_sizes :
    Instr.wellFormed (.msgUnknown (pad12 [0x70]) 1 [1, 2, 3, 4] []) = false := by decide
theorem test_wf_frame_command :
    Frame.sized ⟨[0x74, 0x78], 0, [1, 2, 3, 4], []⟩ = false := by decide
theorem test_wf_input_hash :
    TxInput.wellFormed ⟨List.replicate 31 0, 0, [], 0⟩ = false := by decide
theorem test_wf_input_script (l : List Byte) (h : 2 ^ 64 ≤ l.length) :
    TxInput.wellFormed ⟨List.replicate 32 0, 0, l, 0⟩ = false := by
  simp [TxInput.wellFormed]; omega
theorem test_wf_output_script (l : List Byte) (h : 2 ^ 64 ≤ l.length) :
    TxOutput.wellFormed ⟨0, l⟩ = false := by
  simp [TxOutput.wellFormed]; omega
theorem test_wf_tx_input_count (l : List TxInput) (h : 2 ^ 64 ≤ l.length) :
    Transaction.wellFormed ⟨0, l, [], 0⟩ = false := by
  simp [Transaction.wellFormed]; omega
theorem test_wf_tx_output_count (l : List TxOutput) (h : 2 ^ 64 ≤ l.length) :
    Transaction.wellFormed ⟨0, [], l, 0⟩ = false := by
  simp [Transaction.wellFormed]; omega
theorem test_wf_tx_input : Transaction.wellFormed ⟨0, [⟨[], 0, [], 0⟩], [], 0⟩ = false := by decide
theorem test_wf_tx_output (l : List Byte) (h : 2 ^ 64 ≤ l.length) :
    Transaction.wellFormed ⟨0, [], [⟨0, l⟩], 0⟩ = false := by
  simp [Transaction.wellFormed, TxOutput.wellFormed]; omega
theorem test_wf_block_prev : Block.wellFormed ⟨⟨0, [], List.replicate 32 0, 0, 0, 0⟩, []⟩ = false := by
  decide
theorem test_wf_block_merkle :
    Block.wellFormed ⟨⟨0, List.replicate 32 0, [], 0, 0, 0⟩, []⟩ = false := by decide
theorem test_wf_block_count (l : List Transaction) (h : 2 ^ 64 ≤ l.length) :
    Block.wellFormed ⟨⟨0, List.replicate 32 0, List.replicate 32 0, 0, 0, 0⟩, l⟩ = false := by
  simp [Block.wellFormed]; omega
theorem test_wf_block_tx :
    Block.wellFormed ⟨⟨0, List.replicate 32 0, List.replicate 32 0, 0, 0, 0⟩,
      [⟨0, [⟨[], 0, [], 0⟩], [], 0⟩]⟩ = false := by decide
theorem test_wf_config_magic : Config.wf ⟨[1, 2, 3], none, none, 1⟩ = false := by decide
theorem test_wf_config_rxcap : Config.wf ⟨[1, 2, 3, 4], some 23, none, 1⟩ = false := by decide
theorem test_wf_config_nsess : Config.wf ⟨[1, 2, 3, 4], none, none, 0⟩ = false := by decide
theorem test_wf_event_operand : HostEvent.wellFormed (.cmd ⟨0x2, .nothing⟩) = false := by decide
theorem test_wf_memory_capacity :
    Memory.wf ⟨[1, 2, 3, 4], some 24, none, 1⟩ ⟨List.replicate 25 0, blankFrame, []⟩ = false := by decide
theorem test_wf_memory_frame :
    Memory.wf Config.standard ⟨[], { blankFrame with length := 1 }, []⟩ = false := by decide

/-! ### Decoding: one word per constructor, written out from R91, R95, R97, R111 and R113 -/

/-- V12 of `spec/95_test_vectors.md`. -/
theorem test_decode_vi1 : decodeVi [0x2a, 0xfd] = .ok (.vi1 0x2a, [0xfd]) := by decide
/-- V9: low byte first. -/
theorem test_decode_vi3 : decodeVi [0xfd, 0x00, 0x01] = .ok (.vi3 0x0100, []) := by decide
/-- The form of V13. -/
theorem test_decode_vi5 :
    decodeVi [0xfe, 0x78, 0x56, 0x34, 0x12] = .ok (.vi5 0x12345678, []) := by decide
/-- V33. -/
theorem test_decode_vi9 :
    decodeVi [0xff, 0x00, 0xf2, 0x05, 0x2a, 0x01, 0x00, 0x00, 0x00] = .ok (.vi9 5000000000, []) := by
  decide
/-- V17: a cut body is refused. -/
theorem test_decode_vi_cut :
    decodeVi [0xff, 0x01, 0x02, 0x03, 0x04, 0x05, 0x06, 0x07] = .error .bodyCut := by decide

/-- Magic, "version" and five zero bytes, length 2, checksum, two payload bytes, one byte more. -/
theorem test_decode_msgVersion :
    decodeMh [0xf9, 0xbe, 0xb4, 0xd9]
        [0xf9, 0xbe, 0xb4, 0xd9, 0x76, 0x65, 0x72, 0x73, 0x69, 0x6f, 0x6e, 0, 0, 0, 0, 0,
          2, 0, 0, 0, 9, 8, 7, 6, 0xaa, 0xbb, 0xcc] =
      .ok (.msgVersion 2 [9, 8, 7, 6] [0xaa, 0xbb], [0xcc]) := by decide
theorem test_decode_msgVerack :
    decodeMh [0xf9, 0xbe, 0xb4, 0xd9]
        [0xf9, 0xbe, 0xb4, 0xd9, 0x76, 0x65, 0x72, 0x61, 0x63, 0x6b, 0, 0, 0, 0, 0, 0,
          0, 0, 0, 0, 0x5d, 0xf6, 0xe0, 0xe2] =
      .ok (.msgVerack 0 [0x5d, 0xf6, 0xe0, 0xe2] [], []) := by decide
theorem test_decode_msgBlock :
    decodeMh [1, 2, 3, 4]
        [1, 2, 3, 4, 0x62, 0x6c, 0x6f, 0x63, 0x6b, 0, 0, 0, 0, 0, 0, 0, 1, 0, 0, 0, 4, 3, 2, 1, 0x55] =
      .ok (.msgBlock 1 [4, 3, 2, 1] [0x55], []) := by decide
theorem test_decode_msgTx :
    decodeMh [1, 2, 3, 4]
        [1, 2, 3, 4, 0x74, 0x78, 0, 0, 0, 0, 0, 0, 0, 0, 0, 0, 1, 0, 0, 0, 4, 3, 2, 1, 0x55] =
      .ok (.msgTx 1 [4, 3, 2, 1] [0x55], []) := by decide
/-- "tx" with a byte behind a zero byte is another command: the field is compared whole (R97). -/
theorem test_decode_msgUnknown :
    decodeMh [1, 2, 3, 4]
        [1, 2, 3, 4, 0x74, 0x78, 0, 1, 0, 0, 0, 0, 0, 0, 0, 0, 1, 0, 0, 0, 4, 3, 2, 1, 0x55] =
      .ok (.msgUnknown [0x74, 0x78, 0, 1, 0, 0, 0, 0, 0, 0, 0, 0] 1 [4, 3, 2, 1] [0x55], []) := by decide
theorem test_decode_wrong_magic :
    decodeMh [1, 2, 3, 4]
        [1, 2, 3, 5, 0x74, 0x78, 0, 0, 0, 0, 0, 0, 0, 0, 0, 0, 0, 0, 0, 0, 4, 3, 2, 1] =
      .error .wrongMagic := by decide
theorem test_decode_payload_short :
    decodeMh [1, 2, 3, 4]
        [1, 2, 3, 4, 0x74, 0x78, 0, 0, 0, 0, 0, 0, 0, 0, 0, 0, 0, 1, 0, 0, 4, 3, 2, 1, 0x55] =
      .error .payloadShort := by decide

theorem test_decode_connect : decodeOp ⟨0b0001, .nothing⟩ = .ok .connect := by decide
theorem test_decode_feed : decodeOp ⟨0b0010, .bytes [7, 8]⟩ = .ok (.feed [7, 8]) := by decide
theorem test_decode_extract : decodeOp ⟨0b0011, .nothing⟩ = .ok .extract := by decide
theorem test_decode_route : decodeOp ⟨0b0100, .nothing⟩ = .ok .route := by decide
theorem test_decode_close : decodeOp ⟨0b0101, .nothing⟩ = .ok .close := by decide
theorem test_decode_varint : decodeOp ⟨0b1000, .bytesAt [7] 1⟩ = .ok (.varint [7] 1) := by decide
theorem test_decode_txdec : decodeOp ⟨0b1001, .bytes [7]⟩ = .ok (.txdec [7]) := by decide
theorem test_decode_blkdec : decodeOp ⟨0b1010, .bytes [7]⟩ = .ok (.blkdec [7]) := by decide
theorem test_decode_illegal0 : decodeOp ⟨0b0000, .nothing⟩ = .ok .illegal0 := by decide
theorem test_decode_illegal6 : decodeOp ⟨0b0110, .bytes [1]⟩ = .ok .illegal6 := by decide
theorem test_decode_illegal7 : decodeOp ⟨0b0111, .nothing⟩ = .ok .illegal7 := by decide
theorem test_decode_illegalB : decodeOp ⟨0b1011, .nothing⟩ = .ok .illegalB := by decide
theorem test_decode_illegalC : decodeOp ⟨0b1100, .nothing⟩ = .ok .illegalC := by decide
theorem test_decode_illegalD : decodeOp ⟨0b1101, .nothing⟩ = .ok .illegalD := by decide
theorem test_decode_illegalE : decodeOp ⟨0b1110, .nothing⟩ = .ok .illegalE := by decide
theorem test_decode_illegalF : decodeOp ⟨0b1111, .nothing⟩ = .ok .illegalF := by decide
theorem test_decode_shape : decodeOp ⟨0b0010, .nothing⟩ = .error .operandShape := by decide

/-- A bare word of format VI. -/
theorem test_table_vi5 : decodeTableWord 8 0xFE = some (.vi5 0) := by decide
/-- A bare word of format OP. -/
theorem test_table_illegalD : decodeTableWord 8 0xD = some .illegalD := by decide

/-! ### Steps -/

/-- The record a step ends with. -/
def record (o : Host.Outcome State Fault Refusal) : Option Record :=
  match o with
  | .next s => s.out.getLast?
  | .fault _ => none
  | .refused _ => none

/-- One value of the state a step ends in. -/
def view {α : Type} (f : State → α) (o : Host.Outcome State Fault Refusal) : Option α :=
  match o with
  | .next s => some (f s)
  | .fault _ => none
  | .refused _ => none

/-- The state after reset in another phase, with the handshake flags that go with it. -/
def at' (p : Phase) (v k : Bool) : State :=
  { State.reset with
    phase := p
    flags := { gotVersion := v, gotVerack := k, peerInfoValid := false, frv := false } }

/-- A session in which both handshake frames have been routed. -/
def live : State := at' .handshook true true

/-- A session just opened. -/
def opened : State := at' .versionSent false false

/-- With an operation on `CMD`. -/
def put (op : BitVec 4) (o : Operand) (s : State) : State := s.setCmd [.cmd ⟨op, o⟩]

/-- With a frame in `FR`. -/
def holding (f : Frame) (s : State) : State := (s.setFr f).setFrv true

/-- `T0` of S2: version 1, no input, one output of 5000000000, lock time 0. -/
def t0 : List Byte := [1, 0, 0, 0, 0, 1, 0x00, 0xf2, 0x05, 0x2a, 0x01, 0, 0, 0, 0, 0, 0, 0, 0]

/-- What `T0` stands for. -/
def tx0 : Transaction := ⟨1, [], [⟨5000000000, []⟩], 0⟩

/-- A verack frame; its checksum is that of the empty payload (R185). -/
def verackFrame : Frame := ⟨pad12 nameVerack, 0, [0x5d, 0xf6, 0xe0, 0xe2], []⟩

/-- A frame of some command, with a payload of 19 bytes. -/
def frame19 (cmd : List Byte) : Frame := ⟨cmd, 19, [0, 0, 0, 0], t0⟩

/-- A block header of zeros with version 2. -/
def header2 : BlockHeader := ⟨2, List.replicate 32 0, List.replicate 32 0, 0, 0, 0⟩

/-- Its 80 bytes (R104). -/
def header2Bytes : List Byte := 2 :: List.replicate 79 0

/-- V13: the form stands at offset 1. -/
theorem test_step_varint :
    record (step (put 0x8 (.bytesAt [0x00, 0xfe, 0x78, 0x56, 0x34, 0x12, 0xaa] 1) State.reset)) =
      some (.varIntResult ⟨305419896, 5⟩) := by decide
/-- V15: the body is cut. -/
theorem test_step_varint_cut :
    record (step (put 0x8 (.bytesAt [0xfe, 1, 2, 3] 0) State.reset)) =
      some (.err ⟨.truncatedInput, 0, none, none⟩) := by decide
/-- TX4: bytes behind the transaction are not read. -/
theorem test_step_txdec :
    record (step (put 0x9 (.bytes (t0 ++ [0xde, 0xad])) State.reset)) =
      some (.entity (.tx tx0) 19) := by decide
/-- TX14: a script length of 2^64 - 1 is compared as a natural number. -/
theorem test_step_txdec_malformed :
    record (step (put 0x9 (.bytes ([1, 0, 0, 0, 1] ++ List.replicate 36 0 ++ List.replicate 9 0xff))
      State.reset)) = some (.err ⟨.malformedVarInt, 50, none, none⟩) := by decide
/-- R151 on a header, a count of 1 and `T0`: 80 + 1 + 19 bytes. -/
theorem test_step_blkdec :
    record (step (put 0xA (.bytes (header2Bytes ++ [1] ++ t0 ++ [0xff])) State.reset)) =
      some (.entity (.block ⟨header2, [tx0]⟩) 100) := by decide +kernel
/-- R152: the second transaction fails at its input count, 4 bytes behind 80 + 1 + 19. -/
theorem test_step_blkdec_inner :
    record (step (put 0xA (.bytes (header2Bytes ++ [2] ++ t0 ++ [1, 0, 0, 0])) State.reset)) =
      some (.err ⟨.truncatedInput, 104, some .truncatedInput, some 1⟩) := by decide +kernel
theorem test_step_connect :
    view (fun s => (s.phase, s.out)) (step (put 0x1 .nothing State.reset)) =
      some (.versionSent, [.versionReq, .ok]) := by decide
theorem test_step_connect_twice :
    record (step (put 0x1 .nothing opened)) = some (.refused .badPhase) := by decide
/-- R160 with a capacity of 24 and 23 bytes there: one byte is accepted. -/
theorem test_step_feed :
    view (fun s => (s.mem.rx.drop 22, s.out))
      (step (put 0x2 (.bytes [7, 8])
        { opened with
          cfg := { Config.standard with rxcap := some 24 }
          mem := { opened.mem with rx := List.replicate 23 1 } })) =
      some ([1, 7], [.fed 1]) := by decide
theorem test_step_extract :
    view (fun s => (s.mem.rx, s.flags.frv, s.out))
      (step (put 0x3 .nothing (opened.setRx (encodeFrame Config.standard.magic verackFrame ++ [5])))) =
      some ([5], true, [.gotFrame verackFrame]) := by decide +kernel
theorem test_step_extract_checksum :
    view (fun s => (s.phase, s.errSeen, s.mem.rx, s.flags.frv))
      (step (put 0x3 .nothing (opened.setRx
        (encodeFrame Config.standard.magic (frame19 (pad12 nameTx)) ++ [5])))) =
      some (.versionSent, 0x10, [5], false) := by decide +kernel
theorem test_step_route_verack :
    view (fun s => (s.phase, s.flags.frv, s.out)) (step (put 0x4 .nothing (holding verackFrame opened))) =
      some (.awaitingVerack, false, [.handshake .verack .awaitingVerack]) := by decide
/-- R192: the peer fields of the first 12 payload bytes, little-endian. -/
theorem test_step_route_version :
    view (fun s => (s.peerVersion, s.peerServices, s.out))
      (step (put 0x4 .nothing (holding (frame19 (pad12 nameVersion)) opened))) =
      some (1, 0x00012a05f2000100, [.verackReq, .handshake .version .awaitingVerack]) := by decide
theorem test_step_route_tx :
    record (step (put 0x4 .nothing (holding (frame19 (pad12 nameTx)) live))) =
      some (.entity (.tx tx0) 19) := by decide
/-- R195: a `block` payload of 19 bytes has no whole header. -/
theorem test_step_route_block :
    view (fun s => (s.errSeen, s.out)) (step (put 0x4 .nothing (holding (frame19 (pad12 nameBlock)) live))) =
      some (0x02, [.err ⟨.truncatedInput, 0, none, none⟩]) := by decide
theorem test_step_route_gated :
    record (step (put 0x4 .nothing (holding (frame19 (pad12 nameBlock)) opened))) =
      some (.ignored .gated) := by decide
theorem test_step_route_unknown :
    view (fun s => (s.errSeen, s.out)) (step (put 0x4 .nothing (holding (frame19 (pad12 [0x70])) opened))) =
      some (0x20, [.ignored .unknownCommand]) := by decide
theorem test_step_close :
    view (fun s => (s.phase, s.mem.rx, s.flags.frv)) (step (put 0x5 .nothing
      ((holding verackFrame live).setRx [1, 2]))) = some (.closed, [], false) := by decide
theorem test_step_illegal :
    record (step (put 0xB .nothing live)) = some (.refused .illegalOp) := by decide
theorem test_step_bad_operand :
    step (put 0x3 (.bytes []) live) = .refused (.badOperand ⟨0x3, .bytes []⟩) := by rfl
theorem test_step_idle : step live = .next live := by rfl
theorem test_step_rst :
    view (fun s => (s.phase, s.cfg.magic)) (step (live.setCmd [.rst])) =
      some (.init, [0xf9, 0xbe, 0xb4, 0xd9]) := by decide

/-- The very next step after `withFetchWord` runs a VarInt form. -/
theorem test_fetch_vi9 :
    record (step (State.reset.withFetchWord 8 0xFF)) = some (.varIntResult ⟨0, 9⟩) := by decide
/-- And a message form. -/
theorem test_fetch_version :
    record (step (State.reset.withFetchWord 96 0x76657273696f6e0000000000)) =
      some (.handshake .version .awaitingVerack) := by decide

/-! ### The hypotheses of the obligations are met

`test_meets_<Name>` gives a state and operands that meet all hypotheses of `Obligations.<Name>`
together, at a boundary value where a clause has a range. -/

/-- The empty transaction of TX3 and its 10 bytes (R143). -/
def txE : Transaction := ⟨1, [], [], 0⟩
def txEBytes : List Byte := [1, 0, 0, 0, 0, 0, 0, 0, 0, 0]

theorem countWire_small (n : Nat) (p : Byte) (h : p.toNat = n) (hp : n ≤ 0xFC) : CountWire [p] n :=
  ⟨p.setWidth 64, ⟨.vi1 p, by simp [ViForm.wellFormed]; omega, rfl, rfl⟩, by simp; omega⟩

theorem txWire_empty : TxWire txEBytes txE :=
  ⟨[0], [], [0], [], countWire_small 0 0 rfl (by decide), rfl, countWire_small 0 0 rfl (by decide), rfl,
    by decide⟩

theorem blockWire_one : BlockWire (header2Bytes ++ [1] ++ txEBytes) ⟨header2, [txE]⟩ :=
  ⟨[1], txEBytes, countWire_small 1 1 rfl (by decide), ⟨txEBytes, [], txWire_empty, rfl, rfl⟩,
    by decide, by decide, by decide⟩

theorem noVi_nil : NoVi [] := by
  intro f r _ h
  cases f <;> simp [encodeVi] at h

theorem noVi_cut : NoVi [0xFD, 1] := by
  intro f r hf h
  have hl := congrArg List.length h
  cases f with
  | vi1 p =>
    simp only [encodeVi, List.cons_append, List.cons.injEq] at h
    rw [← h.1] at hf
    exact absurd hf (by decide)
  | vi3 b => simp [encodeVi] at hl; omega
  | vi5 b => simp [encodeVi] at hl; omega
  | vi9 b => simp [encodeVi] at hl; omega

theorem test_meets_DecodeInvertsEncode :
    ([1, 2, 3, 4] : List Byte).length = 4 ∧ Instr.wellFormed (.vi1 0xFC) = true ∧
      Instr.wellFormed (.msgUnknown (pad12 [0x70]) 1 [1, 2, 3, 4] [9]) = true := by decide

theorem test_meets_StreamDecodingStopsAtTheEnd :
    ([1, 2, 3, 4] : List Byte).length = 4 ∧
      Instr.wellFormed (.vi3 7) = true ∧ encode [1, 2, 3, 4] (.vi3 7) = .vi [0xFD, 7, 0] ∧
      Instr.wellFormed (.msgTx 0 [4, 3, 2, 1] []) = true ∧
      encode [1, 2, 3, 4] (.msgTx 0 [4, 3, 2, 1] []) =
        .mh [1, 2, 3, 4, 0x74, 0x78, 0, 0, 0, 0, 0, 0, 0, 0, 0, 0, 0, 0, 0, 0, 4, 3, 2, 1] := by decide

theorem test_meets_DecodedWordsReencode :
    ([1, 2, 3, 4] : List Byte).length = 4 ∧
      decode [1, 2, 3, 4] (.vi [0xFC, 5]) = .ok (.vi1 0xFC, [5]) ∧
      decode [1, 2, 3, 4]
        (.mh [1, 2, 3, 4, 0x74, 0x78, 0, 0, 0, 0, 0, 0, 0, 0, 0, 0, 0, 0, 0, 0, 4, 3, 2, 1, 5]) =
        .ok (.msgTx 0 [4, 3, 2, 1] [], [5]) ∧
      decode [1, 2, 3, 4] (.op ⟨0xF, .bytes [5]⟩) = .ok (.illegalF, []) ∧
      decode [1, 2, 3, 4] (.op ⟨0x8, .bytesAt [5] 1⟩) = .ok (.varint [5] 1, []) := by decide

theorem test_meets_CommandFieldSelectsByTrimmedName :
    (pad12 nameVerack).length = 12 ∧ (pad12 []).length = 12 := by decide

theorem test_meets_VarIntFormsFollowTheTable :
    (0xFC : Byte).toNat ≤ 0xFC ∧ ([0, 1] : List Byte).length = 2 ∧
      ([0, 1, 2, 3] : List Byte).length = 4 ∧ ([0, 1, 2, 3, 4, 5, 6, 7] : List Byte).length = 8 := by
  decide

/-- The value 253, the least that takes 3 bytes, and a longer form of it. -/
theorem test_meets_VarIntRoundTripIsCanonical :
    ({ Regs.zero with wlen := 5 } : Regs).wlen = (varIntEncode 0xFD ++ [9, 9]).length ∧
      ({ Regs.zero with wlen := 7 } : Regs).wlen = ([0xFE, 0xFD, 0, 0, 0] ++ [9, 9] : List Byte).length ∧
      ViWire [0xFD, 0xFD, 0] 0xFD ∧ ViWire [0xFE, 0xFD, 0, 0, 0] 0xFD :=
  ⟨by decide, by decide, ⟨.vi3 0xFD, rfl, by decide, by decide⟩, ⟨.vi5 0xFD, rfl, by decide, by decide⟩⟩

/-- A capacity that the operand just fills. -/
def capped (n : Nat) : State := { State.reset with cfg := { Config.standard with wcap := some n } }

theorem withinCap_capped {n m : Nat} (h : m ≤ n) : withinCap (capped n).cfg.wcap m := by
  intro c hc
  simp only [capped, Option.some.injEq] at hc
  omega

theorem test_meets_VarintAnswersTheFormAtTheOffset :
    ViForm.wellFormed (.vi1 0xFC) = true ∧
      withinCap (capped 3).cfg.wcap ([7] ++ encodeVi (.vi1 0xFC) ++ [8]).length :=
  ⟨by decide, withinCap_capped (by decide)⟩

theorem test_meets_VarintRaisesWhereNoFormStands :
    withinCap (capped 2).cfg.wcap ([0xFD, 1] : List Byte).length ∧
      NoVi (([0xFD, 1] : List Byte).drop 0) ∧ NoVi (([0xFD, 1] : List Byte).drop 2) ∧
      NoVi (([0xFD, 1] : List Byte).drop 9) :=
  ⟨withinCap_capped (by decide), noVi_cut, noVi_nil, noVi_nil⟩

theorem test_meets_VarintRunsTheDecodedForm :
    withinCap (capped 3).cfg.wcap ([7, 0xFC, 8] : List Byte).length ∧
      decodeVi (([7, 0xFC, 8] : List Byte).drop 1) = .ok (.vi1 0xFC, [8]) :=
  ⟨withinCap_capped (by decide), by decide⟩

theorem test_meets_TxdecDeliversTheTransaction :
    TxWire txEBytes txE ∧ withinCap (capped 12).cfg.wcap (txEBytes ++ [8, 9]).length :=
  ⟨txWire_empty, withinCap_capped (by decide)⟩

theorem test_meets_TxdecDeliversOnlyWireTransactions :
    ∃ s', exec (.txdec (txEBytes ++ [8])) State.reset = .next s' ∧
      s'.out = State.reset.out ++ [.entity (.tx txE) 10] := ⟨_, rfl, by decide⟩

/-- TX7: the version is cut. -/
theorem test_meets_TxCut_version : TxCut [1, 0, 0] .truncatedInput 0 ∧ withinCap (capped 3).cfg.wcap 3 :=
  ⟨.version (by decide), withinCap_capped (by decide)⟩
/-- TX9: the input count is cut. -/
theorem test_meets_TxCut_inputCount : TxCut [1, 0, 0, 0, 0xFD, 1] .truncatedInput 4 :=
  .inputCount (v := [1, 0, 0, 0]) (r := [0xFD, 1]) rfl noVi_cut
/-- TX10: the hash of the first of two inputs is cut. -/
theorem test_meets_TxCut_hash :
    TxCut ([1, 0, 0, 0] ++ [2] ++ [] ++ List.replicate 31 0) .truncatedInput (4 + 1 + 0 + 0) :=
  .input (v := [1, 0, 0, 0]) (ci := [2]) (is := []) (n := 2) (l := []) rfl
    (countWire_small 2 2 rfl (by decide)) rfl (by decide) (.hash (by decide))
/-- TX11: the index is missing. -/
theorem test_meets_TxCut_index :
    TxCut ([1, 0, 0, 0] ++ [1] ++ [] ++ (List.replicate 32 0 ++ [])) .truncatedInput (4 + 1 + 0 + 32) :=
  .input (v := [1, 0, 0, 0]) (ci := [1]) (is := []) (n := 1) (l := []) rfl
    (countWire_small 1 1 rfl (by decide)) rfl (by decide) (.index (by decide) (by decide))
/-- TX13: a script length of 5 with 2 bytes behind it. -/
theorem test_meets_TxCut_script :
    TxCut ([1, 0, 0, 0] ++ [1] ++ [] ++ (List.replicate 32 0 ++ [0, 0, 0, 0] ++ ([5] ++ [7, 8])))
      .malformedVarInt (4 + 1 + 0 + (36 + 1)) :=
  .input (v := [1, 0, 0, 0]) (ci := [1]) (is := []) (n := 1) (l := []) rfl
    (countWire_small 1 1 rfl (by decide)) rfl (by decide)
    (.script (by decide) (by decide) (.tooLong (countWire_small 5 5 rfl (by decide)) (by decide)))
/-- TX12: the script length is missing. -/
theorem test_meets_TxCut_scriptLength :
    TxCut ([1, 0, 0, 0] ++ [1] ++ [] ++ (List.replicate 32 0 ++ [0, 0, 0, 0] ++ []))
      .truncatedInput (4 + 1 + 0 + (36 + 0)) :=
  .input (v := [1, 0, 0, 0]) (ci := [1]) (is := []) (n := 1) (l := []) rfl
    (countWire_small 1 1 rfl (by decide)) rfl (by decide)
    (.script (by decide) (by decide) (.lengthCut noVi_nil))
/-- TX15: the script fits exactly, the sequence is cut. -/
theorem test_meets_TxCut_sequence :
    TxCut ([1, 0, 0, 0] ++ [1] ++ [] ++
      (List.replicate 32 0 ++ [0, 0, 0, 0] ++ ([2] ++ [0xaa, 0xbb]) ++ [0xff, 0xff]))
      .truncatedInput (4 + 1 + 0 + (36 + 3)) :=
  .input (v := [1, 0, 0, 0]) (ci := [1]) (is := []) (n := 1) (l := []) rfl
    (countWire_small 1 1 rfl (by decide)) rfl (by decide)
    (.sequence (s := [0xaa, 0xbb]) (by decide) (by decide)
      ⟨[2], countWire_small 2 2 rfl (by decide), rfl⟩ (by decide))
/-- No output count behind no input. -/
theorem test_meets_TxCut_outputCount :
    TxCut ([1, 0, 0, 0] ++ [0] ++ [] ++ []) .truncatedInput (4 + 1 + 0) :=
  .outputCount (v := [1, 0, 0, 0]) (ci := [0]) (is := []) (l := []) rfl
    (countWire_small 0 0 rfl (by decide)) rfl noVi_nil
/-- TX17: an output value of 4 bytes. -/
theorem test_meets_TxCut_value :
    TxCut ([1, 0, 0, 0] ++ [0] ++ [] ++ [1] ++ [] ++ [7, 0, 0, 0]) .truncatedInput
      (4 + 1 + 0 + 1 + 0 + 0) :=
  .output (v := [1, 0, 0, 0]) (ci := [0]) (is := []) (co := [1]) (os := []) (m := 1) (l := []) (l' := [])
    rfl (countWire_small 0 0 rfl (by decide)) rfl (countWire_small 1 1 rfl (by decide)) rfl (by decide)
    (.value (by decide))
/-- TX16: an output script of 1 byte with none behind it. -/
theorem test_meets_TxCut_outputScript :
    TxCut ([1, 0, 0, 0] ++ [0] ++ [] ++ [1] ++ [] ++ ([7, 0, 0, 0, 0, 0, 0, 0] ++ ([1] ++ [])))
      .malformedVarInt (4 + 1 + 0 + 1 + 0 + (8 + 1)) :=
  .output (v := [1, 0, 0, 0]) (ci := [0]) (is := []) (co := [1]) (os := []) (m := 1) (l := []) (l' := [])
    rfl (countWire_small 0 0 rfl (by decide)) rfl (countWire_small 1 1 rfl (by decide)) rfl (by decide)
    (.script (by decide) (.tooLong (countWire_small 1 1 rfl (by decide)) (by decide)))
/-- A lock time of 3 bytes. -/
theorem test_meets_TxCut_lockTime :
    TxCut ([1, 0, 0, 0] ++ [0] ++ [] ++ [0] ++ [] ++ [0, 0, 0]) .truncatedInput (4 + 1 + 0 + 1 + 0) :=
  .lockTime (v := [1, 0, 0, 0]) (ci := [0]) (is := []) (co := [0]) (os := []) (l := []) (l' := []) rfl
    (countWire_small 0 0 rfl (by decide)) rfl (countWire_small 0 0 rfl (by decide)) rfl (by decide)

/-- All hypotheses of `TxdecRaisesAtTheFirstFailingField` together, at the last field. -/
theorem test_meets_TxdecRaisesAtTheFirstFailingField :
    TxCut [1, 0, 0, 0, 0, 0, 0, 0, 0] .truncatedInput 6 ∧
      withinCap (capped 9).cfg.wcap ([1, 0, 0, 0, 0, 0, 0, 0, 0] : List Byte).length :=
  ⟨test_meets_TxCut_lockTime, withinCap_capped (by decide)⟩

theorem test_meets_ReferenceLayoutsDecodeBack :
    tx0.wellFormed = true ∧ withinCap (capped 20).cfg.wcap (txBytes tx0 ++ [9]).length ∧
      Block.wellFormed ⟨header2, [tx0]⟩ = true ∧
      withinCap (capped 101).cfg.wcap (blockBytes ⟨header2, [tx0]⟩ ++ [9]).length :=
  ⟨by decide, withinCap_capped (by decide), by decide, withinCap_capped (by decide)⟩

/-- A cursor at the end of its window, `BASE` at the cursor; and each of the four decodes. -/
theorem test_meets_CursorStaysInTheWindow :
    ({ Regs.zero with wlen := 2, off := 2, base := 2 } : Regs).wlen = ([7, 8] : List Byte).length ∧
      ({ Regs.zero with wlen := 2, off := 2, base := 2 } : Regs).cursorInWindow ∧
      ((Instr.txdec txEBytes = .txdec txEBytes ∨ Instr.txdec txEBytes = .blkdec txEBytes) ∧
        withinCap (capped 10).cfg.wcap txEBytes.length) ∧
      ((Instr.msgBlock 10 [] txEBytes = .msgTx 10 [] txEBytes ∨
          Instr.msgBlock 10 [] txEBytes = .msgBlock 10 [] txEBytes) ∧ live.phase = .handshook) :=
  ⟨rfl, by unfold Regs.cursorInWindow; decide, ⟨.inl rfl, withinCap_capped (by decide)⟩, .inr rfl, rfl⟩

/-- R147 where an earlier decode left `BASE` at 100: a block without transactions ends with `OFF` 81
and `BASE` not above it. -/
theorem test_blkdec_base_not_stale :
    view (fun s => (s.x.base, s.x.off, s.x.wlen))
      (exec (.blkdec (List.replicate 81 0)) { live with x := { live.x with base := 100, off := 120 } }) =
      some (0, 81, 81) := by decide +kernel

/-- A script length of 2 with 2 bytes left, with 1, and a length VarInt that is cut. -/
theorem test_meets_ScriptLengthsAreCheckedFirst :
    ({ Regs.zero with wlen := 4, off := 1 } : Regs).wlen = ([9, 2, 7, 7] : List Byte).length ∧
      (1 : Nat) ≤ ([9, 2, 7, 7] : List Byte).length ∧
      ([9, 2, 7, 7] : List Byte).drop 1 = [2] ++ [7, 7] ∧ ViWire [2] 2 ∧
      (2 : Word64).toNat ≤ ([7, 7] : List Byte).length ∧
      ({ Regs.zero with wlen := 3, off := 1 } : Regs).wlen = ([9, 2, 7] : List Byte).length ∧
      ([9, 2, 7] : List Byte).drop 1 = [2] ++ [7] ∧ ([7] : List Byte).length < (2 : Word64).toNat ∧
      NoVi (([9, 0xFD, 1] : List Byte).drop 1) :=
  ⟨rfl, by decide, rfl, ⟨.vi1 2, rfl, rfl, rfl⟩, by decide, rfl, rfl, by decide, noVi_cut⟩

theorem test_meets_BlkdecDeliversTheBlock :
    BlockWire (header2Bytes ++ [1] ++ txEBytes) ⟨header2, [txE]⟩ ∧
      withinCap (capped 92).cfg.wcap (header2Bytes ++ [1] ++ txEBytes ++ [9]).length :=
  ⟨blockWire_one, withinCap_capped (by decide)⟩

theorem test_meets_BlkdecDeliversOnlyWireBlocks :
    ∃ s', exec (.blkdec (header2Bytes ++ [0])) State.reset = .next s' ∧
      s'.out = State.reset.out ++ [.entity (.block ⟨header2, []⟩) 81] := ⟨_, rfl, by decide +kernel⟩

/-- 79 bytes; and 80 with nothing behind them. -/
theorem test_meets_ShortBlocksRaiseAtHeaderOrCount :
    withinCap (capped 80).cfg.wcap (header2Bytes.drop 1).length ∧ (header2Bytes.drop 1).length < 80 ∧
      withinCap (capped 80).cfg.wcap header2Bytes.length ∧ 80 ≤ header2Bytes.length ∧
      NoVi (header2Bytes.drop 80) :=
  ⟨withinCap_capped (by decide), by decide, withinCap_capped (by decide), by decide, noVi_nil⟩

/-- The second of two transactions is cut in its version. -/
theorem test_meets_BlocksReportTheInnerFailure :
    header2.prevBlock.length = 32 ∧ header2.merkleRoot.length = 32 ∧ CountWire [2] 2 ∧
      ManyWire TxWire txEBytes [txE] ∧ [txE].length < 2 ∧ TxCut [1, 0, 0] .truncatedInput 0 ∧
      withinCap (capped 94).cfg.wcap (blockHeaderBytes header2 ++ [2] ++ txEBytes ++ [1, 0, 0]).length :=
  ⟨by decide, by decide, countWire_small 2 2 rfl (by decide), ⟨txEBytes, [], txWire_empty, rfl, rfl⟩,
    by decide, .version (by decide), withinCap_capped (by decide)⟩

theorem test_meets_DecodesTouchOnlyTheirWindow :
    (Instr.txdec [1] = .varint [1] 0 ∨ Instr.txdec [1] = .txdec [1] ∨ Instr.txdec [1] = .blkdec [1]) ∧
      withinCap (capped 1).cfg.wcap ([1] : List Byte).length :=
  ⟨.inr (.inl rfl), withinCap_capped (by decide)⟩

theorem test_meets_DecodeResultsDependOnlyOnTheOperand :
    (Instr.blkdec [1] = .varint [1] 0 ∨ Instr.blkdec [1] = .txdec [1] ∨ Instr.blkdec [1] = .blkdec [1]) ∧
      State.reset.cfg.wcap = live.cfg.wcap := ⟨.inr (.inr rfl), rfl⟩

/-- A session with a finite buffer, in which `n` bytes wait. -/
def buffered (n : Nat) : State :=
  { opened with
    cfg := { Config.standard with rxcap := some 24 }
    mem := { opened.mem with rx := List.replicate n 1 } }

/-- `RXCAP = INF`; and a buffer with room for 1 of 2 bytes. -/
theorem test_meets_FeedAppendsWhatFits :
    (opened.phase.live = true ∧ (opened.cfg.rxcap = none → 2 = ([7, 8] : List Byte).length) ∧
      ∀ c, opened.cfg.rxcap = some c → 2 = min ([7, 8] : List Byte).length (c - opened.mem.rx.length)) ∧
    ((buffered 23).phase.live = true ∧ ((buffered 23).cfg.rxcap = none → 1 = ([7, 8] : List Byte).length) ∧
      ∀ c, (buffered 23).cfg.rxcap = some c →
        1 = min ([7, 8] : List Byte).length (c - (buffered 23).mem.rx.length)) := by
  refine ⟨⟨rfl, fun _ => rfl, fun c h => ?_⟩, rfl, fun h => ?_, fun c h => ?_⟩
  · cases h
  · cases h
  · cases h; decide

/-- A session in whose buffer a frame stands whole, `RXCAP` the frame's own length. -/
def framed (f : Frame) (rest : List Byte) (cap : Nat) : State :=
  { opened with
    cfg := { Config.standard with rxcap := some cap }
    mem := { opened.mem with rx := encodeFrame Config.standard.magic f ++ rest } }

theorem withinCap_framed {f : Frame} {rest : List Byte} {cap n : Nat} (h : n ≤ cap) :
    withinCap (framed f rest cap).cfg.rxcap n := by
  intro c hc
  simp only [framed, Option.some.injEq] at hc
  omega

theorem test_meets_ExtractTakesTheWholeFrame :
    (framed verackFrame [] 24).phase.live = true ∧ (framed verackFrame [] 24).flags.frv = false ∧
      (framed verackFrame [] 24).cfg.magic.length = 4 ∧ verackFrame.sized = true ∧
      verackFrame.checksum = checksum verackFrame.payload ∧
      withinCap (framed verackFrame [] 24).cfg.rxcap (24 + verackFrame.length.toNat) ∧
      (framed verackFrame [] 24).mem.rx =
        encodeFrame (framed verackFrame [] 24).cfg.magic verackFrame ++ [] :=
  ⟨rfl, rfl, rfl, by decide, by decide +kernel, withinCap_framed (by decide), rfl⟩

/-- A verack frame with a zero checksum. -/
def wrongFrame : Frame := { verackFrame with checksum := [0, 0, 0, 0] }

theorem test_meets_ExtractDropsFramesWithWrongChecksum :
    (framed wrongFrame [] 24).phase.live = true ∧ (framed wrongFrame [] 24).flags.frv = false ∧
      (framed wrongFrame [] 24).cfg.magic.length = 4 ∧ wrongFrame.sized = true ∧
      wrongFrame.checksum ≠ checksum wrongFrame.payload ∧
      withinCap (framed wrongFrame [] 24).cfg.rxcap (24 + wrongFrame.length.toNat) ∧
      (framed wrongFrame [] 24).mem.rx =
        encodeFrame (framed wrongFrame [] 24).cfg.magic wrongFrame ++ [] :=
  ⟨rfl, rfl, rfl, by decide, by decide +kernel, withinCap_framed (by decide), rfl⟩

theorem test_meets_WrongMagicEndsTheSession :
    (buffered 24).phase.live = true ∧ (buffered 24).flags.frv = false ∧ 24 ≤ (buffered 24).mem.rx.length ∧
      (buffered 24).mem.rx.take 4 ≠ (buffered 24).cfg.magic := by decide

/-- A frame of 24 + 1 bytes where 24 fit. -/
theorem test_meets_OversizedFramesEndTheSession :
    let s := framed { verackFrame with length := 1 } [] 24
    s.phase.live = true ∧ s.flags.frv = false ∧ 24 ≤ s.mem.rx.length ∧
      s.mem.rx.take 4 = s.cfg.magic ∧ s.cfg.rxcap = some 24 ∧
      24 < 24 + leNat ((s.mem.rx.drop 16).take 4) := by decide

/-- 23 bytes; and a header that waits for its one payload byte. -/
theorem test_meets_IncompleteFramesWait :
    ((buffered 23).phase.live = true ∧ (buffered 23).flags.frv = false ∧
      (buffered 23).mem.rx.length < 24) ∧
    let s := framed { verackFrame with length := 1 } [] 25
    s.phase.live = true ∧ s.flags.frv = false ∧ 24 ≤ s.mem.rx.length ∧
      s.mem.rx.take 4 = s.cfg.magic ∧
      withinCap s.cfg.rxcap (24 + leNat ((s.mem.rx.drop 16).take 4)) ∧
      s.mem.rx.length < 24 + leNat ((s.mem.rx.drop 16).take 4) :=
  ⟨by decide, rfl, rfl, by decide, by decide, withinCap_framed (by decide), by decide⟩

theorem test_meets_DeliveredFramesAreVerified :
    view (fun s => s.out) (exec .extract (framed verackFrame [7] 25)) =
      some ((framed verackFrame [7] 25).out ++ [.gotFrame verackFrame]) := by decide +kernel

theorem test_meets_BytesLeaveTheBufferOnlyAsFrames :
    (∃ t, exec .extract (buffered 24) = .next t) ∧ (∃ t, exec .close (buffered 24) = .next t) ∧
      ∃ t, exec (.feed [7]) (buffered 23) = .next t := ⟨⟨_, rfl⟩, ⟨_, rfl⟩, ⟨_, rfl⟩⟩

/-- The 24 bytes of a frame in three chunks, the first of them empty. -/
theorem test_meets_FramerIsReentrant :
    opened.phase.live = true ∧ opened.flags.frv = false ∧ opened.mem.rx = [] ∧
      opened.cfg.magic.length = 4 ∧ verackFrame.sized = true ∧
      verackFrame.checksum = checksum verackFrame.payload ∧
      withinCap opened.cfg.rxcap (24 + verackFrame.length.toNat) ∧
      (encodeFrame opened.cfg.magic verackFrame).drop 23 ≠ [] ∧
      [[], (encodeFrame opened.cfg.magic verackFrame).take 23].flatten ++
        (encodeFrame opened.cfg.magic verackFrame).drop 23 =
        encodeFrame opened.cfg.magic verackFrame :=
  ⟨rfl, rfl, rfl, rfl, by decide, by decide +kernel, fun c h => (by cases h), by decide, by decide⟩

/-- A full buffer of the least capacity. -/
theorem test_meets_DataDeliversTheWholeEvent :
    (framed verackFrame [] 24).phase.live = true ∧ (framed verackFrame [] 24).flags.frv = false ∧
      (framed verackFrame [] 24).cfg.wf = true ∧
      Memory.wf (framed verackFrame [] 24).cfg (framed verackFrame [] 24).mem = true := by decide

/-- R201 with a full buffer: the first FEED accepts nothing, the waiting frame is delivered and routed,
then the event's own frame is fed whole and delivered (R275). -/
theorem test_data_feeds_the_rest :
    view (fun s => (deliveredFrames s.out, s.mem.rx, s.flags.frv))
      (data (encodeFrame Config.standard.magic verackFrame) (framed verackFrame [] 24)) =
      some ([verackFrame, verackFrame], [], false) := by decide +kernel

/-- One state for each line of the table of R222. -/
theorem test_meets_RefusedOperationsChangeOnlyTheTrace :
    State.reset.phase = .init ∧ (at' .closed true true).phase = .closed ∧
      (at' .error true true).phase = .error ∧
      ((holding verackFrame live).phase.live = true ∧ (holding verackFrame live).flags.frv = true) ∧
      (live.phase.live = true ∧ live.flags.frv = false) ∧ opened.phase ≠ .init ∧
      ¬ withinCap (capped 1).cfg.wcap ([1, 2] : List Byte).length :=
  ⟨rfl, rfl, rfl, ⟨rfl, rfl⟩, ⟨rfl, rfl⟩, by decide, fun h => absurd (h 1 rfl) (by decide)⟩

theorem test_meets_IllegalCodesAreRefused :
    ((0xF, .illegalF) : BitVec 4 × Instr) ∈
      ([(0x0, .illegal0), (0x6, .illegal6), (0x7, .illegal7), (0xB, .illegalB), (0xC, .illegalC),
        (0xD, .illegalD), (0xE, .illegalE), (0xF, .illegalF)] : List (BitVec 4 × Instr)) := by decide

theorem test_meets_ConnectOpensTheSession :
    State.reset.phase = .init ∧ opened.phase ≠ .init ∧ (at' .error false false).phase ≠ .init := by decide

theorem test_meets_RouteRunsTheFramesInstruction :
    (holding verackFrame opened).phase.live = true ∧ (holding verackFrame opened).flags.frv = true := by
  decide

theorem test_meets_RouteConsumesEveryFrame :
    (holding verackFrame live).phase.live = true ∧ (holding verackFrame live).flags.frv = true ∧
      (holding verackFrame live).mem.fr.sized = true := by decide

/-- A payload of 12 bytes, and one of 11; with and without the other flag. -/
theorem test_meets_VersionFramesRecordThePeer :
    (opened.phase ≠ .handshook ∧ (List.replicate 12 (0 : Byte)).length = (12 : Word32).toNat ∧
      Phase.awaitingVerack = (if opened.flags.gotVerack then .handshook
          else if opened.phase = .versionSent then .awaitingVerack else opened.phase) ∧
      12 ≤ (List.replicate 12 (0 : Byte)).length) ∧
    ((at' .awaitingVerack false true).phase ≠ .handshook ∧
      (List.replicate 11 (0 : Byte)).length = (11 : Word32).toNat ∧
      Phase.handshook = (if (at' .awaitingVerack false true).flags.gotVerack then .handshook
          else if (at' .awaitingVerack false true).phase = .versionSent then .awaitingVerack
          else (at' .awaitingVerack false true).phase) ∧
      (List.replicate 11 (0 : Byte)).length < 12) := by decide

theorem test_meets_VerackFramesAreNoted :
    (at' .awaitingVerack true false).phase ≠ .handshook ∧
      Phase.handshook = (if (at' .awaitingVerack true false).flags.gotVersion then .handshook
          else if (at' .awaitingVerack true false).phase = .versionSent then .awaitingVerack
          else (at' .awaitingVerack true false).phase) := by decide

theorem test_meets_DroppedFramesChangeOnlyTheTraceAndErrorMask :
    opened.phase ≠ .handshook ∧ live.phase = .handshook := by decide

theorem test_meets_RoutedEntitiesAreDelivered :
    live.phase = .handshook ∧ TxWire txEBytes txE ∧
      BlockWire (header2Bytes ++ [1] ++ txEBytes) ⟨header2, [txE]⟩ :=
  ⟨rfl, txWire_empty, blockWire_one⟩

theorem test_meets_RoutedDecodesAgreeWithStandAlone :
    live.phase = .handshook ∧ live.cfg.wcap = none := by decide

/-- The ROUTE of the verack that comes second. -/
theorem test_meets_HandshookNeedsBothFrames :
    let s := put 0x4 .nothing (holding verackFrame (at' .awaitingVerack true false))
    s.inv = true ∧ view (fun t => t.phase) (step s) = some .handshook ∧ s.phase ≠ .handshook := by decide

theorem test_meets_EntitiesAreRoutedOnlyInHandshook :
    let s := holding (frame19 (pad12 nameTx)) live
    view (fun t => t.out) (exec .route s) = some (s.out ++ [.entity (.tx tx0) 19]) := by decide

/-- Each line of R204: reset, CONNECT, the two ROUTEs, EXTRACT with a wrong magic, CLOSE. -/
theorem test_meets_PhaseMovesOnlyAsListed :
    ((live.setCmd [.rst]).inv = true ∧
      view (fun t => t.phase) (step (live.setCmd [.rst])) = some .init) ∧
    ((put 0x1 .nothing State.reset).inv = true ∧
      view (fun t => t.phase) (step (put 0x1 .nothing State.reset)) = some .versionSent) ∧
    ((put 0x4 .nothing (holding verackFrame opened)).inv = true ∧
      view (fun t => t.phase) (step (put 0x4 .nothing (holding verackFrame opened))) =
        some .awaitingVerack) ∧
    ((put 0x3 .nothing (buffered 24)).inv = true ∧
      view (fun t => t.phase) (step (put 0x3 .nothing (buffered 24))) = some .error) ∧
    ((put 0x5 .nothing opened).inv = true ∧
      view (fun t => t.phase) (step (put 0x5 .nothing opened)) = some .closed) := by decide

theorem test_meets_ErrorMaskIsSticky :
    (∃ t, step (put 0x3 .nothing (buffered 24)) = .next t) ∧ ¬ resets (put 0x3 .nothing (buffered 24)) ∧
      view (fun t => t.errSeen) (step (put 0x3 .nothing (buffered 24))) = some 0x08 := by
  refine ⟨⟨_, rfl⟩, ?_, by decide⟩
  rintro ⟨rest, h⟩
  simp [put, State.setCmd] at h

theorem test_meets_EveryOperationEmitsOneResult :
    performs (put 0x1 .nothing State.reset) .connect ∧
      ∃ t, step (put 0x1 .nothing State.reset) = .next t := ⟨⟨_, _, rfl, rfl⟩, _, rfl⟩

theorem test_meets_StepPerformsTheDecodedOperation :
    (put 0x1 .nothing State.reset).cmd = .cmd ⟨0x1, .nothing⟩ :: [] ∧
      decodeOp ⟨0x1, .nothing⟩ = .ok .connect ∧ State.reset.cmd = [] ∧
      (live.setCmd [.rst]).cmd = .rst :: [] := ⟨rfl, rfl, rfl, rfl⟩

theorem test_meets_ResetGivesTheStatedValues :
    resets (live.setCmd [.rst]) ∧ ∃ t, step (live.setCmd [.rst]) = .next t := ⟨⟨_, rfl⟩, _, rfl⟩

theorem test_meets_ResetMeetsTheInvariants :
    Config.wf ⟨[0, 0, 0, 0], some 24, some 0, 1⟩ = true ∧ Config.standard.wf = true := by decide

/-- A session that meets the invariants with everything in it: a frame, a buffered stream, a pending
operation. -/
theorem test_meets_EveryStepKeepsTheInvariants :
    let s := put 0x4 .nothing (holding (frame19 (pad12 nameTx)) live)
    s.inv = true ∧ ∃ t, step s = .next t := ⟨by decide, _, rfl⟩

theorem test_meets_NoStepFaultsOrStops :
    (put 0x3 .nothing (buffered 24)).inv = true ∧
      ∀ e rest, (put 0x3 .nothing (buffered 24)).cmd = e :: rest → e.wellFormed = true := by
  refine ⟨by decide, ?_⟩
  rintro e rest h
  cases h
  decide

/-- Two states that differ in a register, in `W` and in an unread frame. -/
theorem test_meets_UnspecifiedStateIsNeverRead :
    let s := put 0x9 (.bytes t0) live
    let t : State :=
      { s with
        x := { s.x with off := 9, ntx := 5 }
        mem := { s.mem with w := [1, 2, 3], fr := verackFrame } }
    sameSpecified s t ∧ s ≠ t ∧ ∃ t1, step s = .next t1 :=
  ⟨⟨rfl, rfl, rfl, rfl, rfl, rfl, rfl, rfl, rfl, fun h => by cases h⟩, by decide, _, rfl⟩

theorem test_meets_InstancesAreIndependent :
    let h := [put 0x1 .nothing State.reset, put 0x5 .nothing State.reset]
    (0 : Nat) ≠ 1 ∧ (∃ h', stepInstance 0 h = some (.next h')) ∧
      ∃ h', runInstances [0, 1] h = some h' := ⟨by decide, ⟨_, rfl⟩, ⟨_, rfl⟩⟩

end Sys2Proof.Tests
end

section
/-! Session instances (`spec/00_scope.md` R9, `spec/60_exceptions.md` R241): what a step of one
instance does to the block, and that steps of two instances commute. -/

namespace Sys2Proof.Machine

/-- All that a step of the block can do: instance `k` steps, and only its entry is written. -/
theorem stepInstance_eq_next_iff {k : Nat} {h h' : List State} :
    stepInstance k h = some (.next h') ↔
      ∃ s s', h[k]? = some s ∧ step s = .next s' ∧ h' = h.set k s' := by
  unfold stepInstance
  cases h[k]? with
  | none => simp
  | some s => cases hs : step s <;> simp [hs, eq_comm]

/-- The other instances stay as they were. -/
theorem stepInstance_getElem?_ne {j k : Nat} {h h' : List State} (hne : j ≠ k)
    (hstep : stepInstance j h = some (.next h')) : h'[k]? = h[k]? := by
  obtain ⟨s, s', -, -, rfl⟩ := stepInstance_eq_next_iff.mp hstep
  exact List.getElem?_set_ne hne

theorem stepInstance_length {k : Nat} {h h' : List State}
    (hstep : stepInstance k h = some (.next h')) : h'.length = h.length := by
  obtain ⟨s, s', -, -, rfl⟩ := stepInstance_eq_next_iff.mp hstep
  exact List.length_set

@[simp] theorem runInstances_nil (h : List State) : runInstances [] h = some h := rfl

theorem runInstances_cons_eq_some_iff {k : Nat} {ks : List Nat} {h h' : List State} :
    runInstances (k :: ks) h = some h' ↔
      ∃ m, stepInstance k h = some (.next m) ∧ runInstances ks m = some h' := by
  rw [runInstances]
  split
  next m hm => simp [hm]
  next hstop => simpa using fun m hm => absurd hm (hstop m)

theorem runInstances_pair_eq_some_iff {j k : Nat} {h h' : List State} :
    runInstances [j, k] h = some h' ↔
      ∃ m, stepInstance j h = some (.next m) ∧ stepInstance k m = some (.next h') := by
  simp [runInstances_cons_eq_some_iff]

/-- Two instances step in either order (R82): each reads only its own entry, which the other's step
does not write, and the two writes are to different entries. -/
theorem stepInstance_comm {j k : Nat} {h m h' : List State} (hne : j ≠ k)
    (hj : stepInstance j h = some (.next m)) (hk : stepInstance k m = some (.next h')) :
    ∃ m', stepInstance k h = some (.next m') ∧ stepInstance j m' = some (.next h') := by
  have hkept : m[k]? = h[k]? := stepInstance_getElem?_ne hne hj
  obtain ⟨s, s', hs, hstep, rfl⟩ := stepInstance_eq_next_iff.mp hj
  obtain ⟨t, t', ht, htstep, rfl⟩ := stepInstance_eq_next_iff.mp hk
  have hfirst : stepInstance k h = some (.next (h.set k t')) :=
    stepInstance_eq_next_iff.mpr ⟨t, t', hkept ▸ ht, htstep, rfl⟩
  have hs' : (h.set k t')[j]? = some s := (stepInstance_getElem?_ne hne.symm hfirst).trans hs
  exact ⟨_, hfirst, stepInstance_eq_next_iff.mpr ⟨s, s', hs', hstep, List.set_comm _ _ hne⟩⟩

/-- Settles O57: the frame of one instance's step, and the exchange of two steps. -/
theorem instancesAreIndependent : Obligations.InstancesAreIndependent := by
  intro h h' j k hne
  refine ⟨fun hstep => ⟨stepInstance_getElem?_ne hne hstep, stepInstance_length hstep⟩, fun hrun => ?_⟩
  obtain ⟨m, hj, hk⟩ := runInstances_pair_eq_some_iff.mp hrun
  exact runInstances_pair_eq_some_iff.mpr (stepInstance_comm hne hj hk)

end Sys2Proof.Machine
end

section
/-! What an operation can do, said once. `FrameEffect` and `OpEffect` list every next state that
handling a frame and performing an operation of the command port can answer; `exec_effect` and
`step_effect` say that the list is complete. The invariants of the whole machine are case splits on
these lists and do not unfold `exec`. -/

namespace Sys2Proof.Machine

open Sys2Proof.Laws

/-! ### Handshake frames and decodes -/

theorem foldl_emit (rs : List Record) (s : State) :
    rs.foldl State.emit s = { s with out := s.out ++ rs } := by
  induction rs generalizing s with
  | nil => simp
  | cons r rs ih => simp [ih, State.emit]

theorem handshakeStep_eq (f : Flags) (rs : List Record) (c : HandshakeCmd) (s : State) :
    handshakeStep f rs c s =
      { s with
        flags := f
        phase := updatePhase f s.phase
        out := s.out ++ rs ++ [.handshake c (updatePhase f s.phase)] } := by
  simp [handshakeStep, foldl_emit, State.setFlags, State.setPhase, State.emit]

/-- The window a transaction or block decode opens meets what the reads ask for. -/
theorem openWindow_ready (s : State) (buf : List Byte) : Ready buf (s.openWindow buf).x :=
  ⟨rfl, Nat.zero_le _⟩

/-- What a decode may end with: a value, or one of the two decode errors; never a read outside the
window, and always with `WLEN` as it was. -/
def Decoded.Ends {α : Type} (n : Nat) : Decoded α → Prop
  | .ok _ x => x.wlen = n
  | .raise e x => x.wlen = n ∧ (e.kind = .truncatedInput ∨ e.kind = .malformedVarInt)
  | .outside _ => False

theorem txDecode_ends {w : List Byte} {x : Regs} (hx : Ready w x) :
    (txDecode w x).Ends w.length := by
  have h := txDecode_sound hx
  cases hd : txDecode w x with
  | ok p y => rw [hd] at h; exact h.1.wlen.trans hx.wlen
  | raise e y => rw [hd] at h; exact ⟨h.1.wlen.trans hx.wlen, h.2.1⟩
  | outside f => rw [hd] at h; exact h

theorem blockDecode_ends {w : List Byte} {x : Regs} (hx : Ready w x) :
    (blockDecode w x).Ends w.length := by
  have h := blockDecode_sound hx
  cases hd : blockDecode w x with
  | ok p y => rw [hd] at h; exact h.1.trans hx.wlen
  | raise e y =>
    rw [hd] at h
    obtain ⟨hw, -, -, hk, -⟩ := h
    exact ⟨hw.trans hx.wlen, .inl hk⟩
  | outside f => rw [hd] at h; exact h

theorem varIntDecode_ends {w : List Byte} {x : Regs} (o : Nat) (hx : x.wlen = w.length) :
    (varIntDecode w o x).Ends w.length := by
  rcases form_or_cut (w.drop o) with ⟨f, r, hf, hs⟩ | hcut
  · rw [varIntDecode_form hx f hf r hs]; exact hx
  · rw [varIntDecode_raise hx hcut]; exact ⟨hx, .inl rfl⟩

/-! ### Frames -/

/-- Everything that handling a frame can do (R192 to R199), the frame already consumed. -/
inductive FrameEffect (s : State) : State → Prop
  /-- A gated or a late frame (R198, R199). -/
  | ignored (reason : IgnoreReason) : FrameEffect s (s.emit (.ignored reason))
  /-- A frame with an unknown command (R197). -/
  | unknown : FrameEffect s (noteUnknown s)
  /-- A `version` frame too short for the peer fields (R192). -/
  | version : s.phase ≠ .handshook → FrameEffect s (finishVersion s)
  /-- A `version` frame with the peer fields (R192). -/
  | versionPeer (v : Word32) (sv : Word64) : s.phase ≠ .handshook →
      FrameEffect s (finishVersion (s.setPeer v sv))
  /-- A `verack` frame (R193). -/
  | verack : s.phase ≠ .handshook →
      FrameEffect s (handshakeStep { s.flags with gotVerack := true } [] .verack s)
  /-- A `block` or `tx` frame that decodes (R195, R196). -/
  | entity (p : List Byte) (x : Regs) (e : Entity) (n : Nat) : x.wlen = p.length →
      FrameEffect s (((s.openWindow p).setX x).emit (.entity e n))
  /-- A `block` or `tx` frame that does not (R195, R196, R232). -/
  | failed (p : List Byte) (x : Regs) (e : ErrInfo) : x.wlen = p.length →
      e.kind = .truncatedInput ∨ e.kind = .malformedVarInt →
      FrameEffect s (takeError .session e ((s.openWindow p).setX x))

/-- A routed decode that ends well has one of the last two effects. -/
theorem finishDecode_frameEffect {α : Type} {s t : State} {p : List Byte} {d : Decoded α}
    {rec : α → Record} (hrec : ∀ a, ∃ e n, rec a = .entity e n) (hd : d.Ends p.length)
    (h : finishDecode .session rec d (s.openWindow p) = .next t) : FrameEffect s t := by
  cases d with
  | ok a x =>
    obtain ⟨e, n, he⟩ := hrec a
    cases h
    rw [he]
    exact .entity p x e n hd
  | raise e x =>
    cases h
    exact .failed p x e hd.1 hd.2
  | outside f => exact hd.elim

section
variable {s t : State} {n : Word32} {c p : List Byte}

theorem execMsgVersion_effect (h : execMsgVersion n c p s = .next t) : FrameEffect s t := by
  unfold execMsgVersion at h
  split at h
  · cases h; exact .ignored _
  next hph =>
    split at h
    · split at h
      · cases h
      · cases h; exact .versionPeer _ _ hph
    · cases h; exact .version hph

theorem execMsgVerack_effect (h : execMsgVerack n c p s = .next t) : FrameEffect s t := by
  unfold execMsgVerack at h
  split at h
  · cases h; exact .ignored _
  next hph => cases h; exact .verack hph

theorem execMsgBlock_effect (h : execMsgBlock n c p s = .next t) : FrameEffect s t := by
  unfold execMsgBlock at h
  split at h
  · exact finishDecode_frameEffect (rec := blockRecord) (fun r => ⟨.block r.1, r.2, rfl⟩)
      (blockDecode_ends (openWindow_ready s p)) h
  · cases h; exact .ignored _

theorem execMsgTx_effect (h : execMsgTx n c p s = .next t) : FrameEffect s t := by
  unfold execMsgTx at h
  split at h
  · exact finishDecode_frameEffect (rec := txRecord) (fun r => ⟨.tx r.1, r.2, rfl⟩)
      (txDecode_ends (openWindow_ready s p)) h
  · cases h; exact .ignored _

theorem execMsgUnknown_effect {cmd : List Byte} (h : execMsgUnknown cmd n c p s = .next t) :
    FrameEffect s t := by
  cases h; exact .unknown

theorem routeFrame_effect {f : Frame} (h : routeFrame f s = .next t) : FrameEffect s t := by
  unfold routeFrame at h
  split at h
  · exact execMsgVersion_effect h
  · exact execMsgVerack_effect h
  · exact execMsgBlock_effect h
  · exact execMsgTx_effect h
  · exact execMsgUnknown_effect h

end

/-! ### Operations of the command port -/

/-- Frame `f`, with the configured magic and of the length it declares, stands at the head of `RX`,
and `rest` behind it (R98, R161). -/
structure FrameAtHead (s : State) (f : Frame) (rest : List Byte) : Prop where
  magic : s.cfg.magic.length = 4
  sized : f.sized = true
  rx : s.mem.rx = encodeFrame s.cfg.magic f ++ rest

/-- `i` is a stand-alone decode of `buf` (R73). -/
def StandAlone (buf : List Byte) (i : Instr) : Prop :=
  (∃ o, i = .varint buf o) ∨ i = .txdec buf ∨ i = .blkdec buf

/-- Everything that performing an operation of the command port can do. -/
inductive OpEffect (s : State) : Instr → State → Prop
  /-- Not performed (R113, R222). -/
  | refused (i : Instr) (reason : RefuseReason) : OpEffect s i (s.emit (.refused reason))
  /-- CONNECT in Init (R190). -/
  | connected : s.phase = .init →
      OpEffect s .connect (((s.setPhase .versionSent).emit .versionReq).emit .ok)
  /-- FEED in a live phase (R160). -/
  | fed (b : List Byte) :
      OpEffect s (.feed b)
        ((s.appendRx (b.take (feedCount s.cfg.rxcap s.rxlen b.length))).emit
          (.fed (feedCount s.cfg.rxcap s.rxlen b.length)))
  /-- EXTRACT with no complete frame (R163). -/
  | waiting : OpEffect s .extract (s.emit .noFrameYet)
  /-- EXTRACT on a wrong magic or a frame that can never fit (R166, R167). -/
  | unframed (k : ErrKind) (o : Nat) : s.flags.frv = false → k.fatal = true →
      OpEffect s .extract (takeError .session (framerError k o) s)
  /-- EXTRACT of a frame with a wrong checksum (R165). -/
  | dropped (f : Frame) (rest : List Byte) : FrameAtHead s f rest →
      OpEffect s .extract (takeError .session (framerError .checksumMismatch 20) (s.setRx rest))
  /-- EXTRACT of a verified frame (R161). -/
  | delivered (f : Frame) (rest : List Byte) : s.phase.live = true → FrameAtHead s f rest →
      f.checksum = checksum f.payload →
      OpEffect s .extract ((((s.setRx rest).setFr f).setFrv true).emit (.gotFrame f))
  /-- ROUTE of the frame in `FR` (R191). -/
  | routed {t : State} : s.phase.live = true → FrameEffect (s.setFrv false) t → OpEffect s .route t
  /-- CLOSE (R200). -/
  | closed :
      OpEffect s .close ((((s.setPhase (closedPhase s.phase)).setRx []).setFrv false).emit .ok)
  /-- A stand-alone decode, however it ends (R73). -/
  | decoded {i : Instr} (buf : List Byte) (x : Regs) (r : Record) : StandAlone buf i →
      x.wlen = buf.length → r.isResult = true → OpEffect s i (((s.openWindow buf).setX x).emit r)

section
variable {s t : State}

theorem execConnect_effect (h : execConnect s = .next t) : OpEffect s .connect t := by
  unfold execConnect at h
  split at h
  next hph => cases h; exact .connected hph
  · cases h; exact .refused _ _

theorem execFeed_effect {b : List Byte} (h : execFeed b s = .next t) : OpEffect s (.feed b) t := by
  unfold execFeed at h
  split at h
  · cases h; exact .refused _ _
  · cases h; exact .fed b

/-- The header with the configured magic and the payload it declares are the frame at the head. -/
theorem frameAtHead_of_parseHeader {hd : Header} {p : List Byte} (hlen : 24 ≤ s.mem.rx.length)
    (hhd : parseHeader s.mem.rx = some hd) (hmagic : hd.magic = s.cfg.magic)
    (hp : memRead s.mem.rx 24 hd.length.toNat = some p) :
    FrameAtHead s ⟨hd.command, hd.length, hd.checksum, p⟩
      (s.mem.rx.drop (24 + hd.length.toNat)) := by
  obtain ⟨hd', hhd', hm, hc, hk, hrx⟩ := parseHeader_some hlen
  obtain rfl : hd' = hd := Option.some.inj (hhd'.symm.trans hhd)
  obtain ⟨-, hpeq, hplen⟩ := memRead_some hp
  refine ⟨hmagic ▸ hm, by simp [Frame.sized, frameSized, hc, hk, hplen], ?_⟩
  have htail : s.mem.rx.drop 24 = p ++ s.mem.rx.drop (24 + hd'.length.toNat) := by
    rw [hpeq, ← List.drop_drop, List.take_append_drop]
  rw [← hmagic]
  calc s.mem.rx = _ := hrx
    _ = _ := by rw [htail]; simp [encodeFrame]

theorem extractFrame_effect {hd : Header} {p : List Byte} (hlive : s.phase.live = true)
    (hhead : FrameAtHead s ⟨hd.command, hd.length, hd.checksum, p⟩
      (s.mem.rx.drop (24 + hd.length.toNat))) :
    OpEffect s .extract (extractFrame hd p s) := by
  unfold extractFrame
  split
  · exact .dropped _ _ hhead
  next hsum => exact .delivered _ _ hlive hhead (not_not.mp hsum).symm

theorem execExtract_effect (h : execExtract s = .next t) : OpEffect s .extract t := by
  unfold execExtract at h
  split at h
  · cases h; exact .refused _ _
  next hlive =>
  split at h
  · cases h; exact .refused _ _
  next hfrv =>
  split at h
  · cases h; exact .waiting
  next hlen =>
  split at h
  · cases h
  next hd hhd =>
  split at h
  · cases h; exact .unframed _ _ (by simpa using hfrv) rfl
  next hmagic =>
  split at h
  · cases h; exact .unframed _ _ (by simpa using hfrv) rfl
  split at h
  · cases h; exact .waiting
  split at h
  · cases h
  next p hp =>
  cases h
  exact extractFrame_effect ((phaseRefusal_eq_none_iff _).mp hlive)
    (frameAtHead_of_parseHeader (not_lt.mp hlen) hhd (not_not.mp hmagic) hp)

theorem execRoute_effect (h : execRoute s = .next t) : OpEffect s .route t := by
  unfold execRoute at h
  split at h
  · cases h; exact .refused _ _
  next hlive =>
    split at h
    · exact .routed ((phaseRefusal_eq_none_iff _).mp hlive) (routeFrame_effect h)
    · cases h; exact .refused _ _

theorem execClose_effect (h : execClose s = .next t) : OpEffect s .close t := by
  cases h; exact .closed

/-- A stand-alone decode, its window opened, ends with one result record. -/
theorem finishDecode_opEffect {α : Type} {buf : List Byte} {i : Instr} {d : Decoded α}
    {rec : α → Record} (hi : StandAlone buf i) (hrec : ∀ a, (rec a).isResult = true)
    (hd : d.Ends buf.length) (h : finishDecode .standAlone rec d (s.openWindow buf) = .next t) :
    OpEffect s i t := by
  cases d with
  | ok a x => cases h; exact .decoded buf x _ hi hd (hrec a)
  | raise e x => cases h; exact .decoded buf x _ hi hd.1 rfl
  | outside f => exact hd.elim

/-- The registers are overwritten at the end of a decode, so how its window was loaded is forgotten. -/
theorem finishDecode_loadWindow {α : Type} (u : Under) (rec : α → Record) (d : Decoded α)
    (s : State) (buf : List Byte) :
    finishDecode u rec d (s.loadWindow buf) = finishDecode u rec d (s.openWindow buf) := by
  cases d <;> rfl

theorem execVarint_effect {buf : List Byte} {o : Nat} (h : execVarint buf o s = .next t) :
    OpEffect s (.varint buf o) t := by
  unfold execVarint at h
  split at h
  · rw [finishDecode_loadWindow] at h
    exact finishDecode_opEffect (.inl ⟨o, rfl⟩) (fun _ => rfl) (varIntDecode_ends o rfl) h
  · cases h; exact .refused _ _

theorem execTxdec_effect {buf : List Byte} (h : execTxdec buf s = .next t) :
    OpEffect s (.txdec buf) t := by
  unfold execTxdec at h
  split at h
  · exact finishDecode_opEffect (.inr (.inl rfl)) (fun _ => rfl)
      (txDecode_ends (openWindow_ready s buf)) h
  · cases h; exact .refused _ _

theorem execBlkdec_effect {buf : List Byte} (h : execBlkdec buf s = .next t) :
    OpEffect s (.blkdec buf) t := by
  unfold execBlkdec at h
  split at h
  · exact finishDecode_opEffect (.inr (.inr rfl)) (fun _ => rfl)
      (blockDecode_ends (openWindow_ready s buf)) h
  · cases h; exact .refused _ _

/-- What an instruction can do, by its format: a wire form writes working registers, a message form
handles a frame, and the rest are the operations of the command port. -/
def ExecEffect (s t : State) : Instr → Prop
  | .vi1 _ | .vi3 _ | .vi5 _ | .vi9 _ => ∃ x, t = s.setX x
  | .msgVersion .. | .msgVerack .. | .msgBlock .. | .msgTx .. | .msgUnknown .. => FrameEffect s t
  | i => OpEffect s i t

theorem exec_effect {i : Instr} (h : exec i s = .next t) : ExecEffect s t i := by
  cases i with
  | vi1 | vi3 | vi5 | vi9 => cases h; exact ⟨_, rfl⟩
  | msgVersion n c p => exact execMsgVersion_effect (c := c) h
  | msgVerack n c p => exact execMsgVerack_effect (n := n) (c := c) (p := p) h
  | msgBlock n c p => exact execMsgBlock_effect (n := n) (c := c) h
  | msgTx n c p => exact execMsgTx_effect (n := n) (c := c) h
  | msgUnknown cmd n c p => exact execMsgUnknown_effect (n := n) (c := c) (p := p) (cmd := cmd) h
  | connect => exact execConnect_effect h
  | feed b => exact execFeed_effect h
  | extract => exact execExtract_effect h
  | route => exact execRoute_effect h
  | close => exact execClose_effect h
  | varint buf o => exact execVarint_effect h
  | txdec buf => exact execTxdec_effect h
  | blkdec buf => exact execBlkdec_effect h
  | illegal0 | illegal6 | illegal7 | illegalB | illegalC | illegalD | illegalE | illegalF =>
    cases h; exact .refused _ _

theorem ExecEffect.cases {i : Instr} (h : ExecEffect s t i) :
    (∃ x, t = s.setX x) ∨ FrameEffect s t ∨ OpEffect s i t := by
  cases i with
  | vi1 | vi3 | vi5 | vi9 => exact .inl h
  | msgVersion | msgVerack | msgBlock | msgTx | msgUnknown => exact .inr (.inl h)
  | _ => exact .inr (.inr h)

/-- A decoded word of the command port is an operation, no wire form and no message form. -/
theorem execEffect_of_decodeOp {w : CmdWord} {i : Instr} (hw : decodeOp w = .ok i)
    (h : ExecEffect s t i) : OpEffect s i t := by
  rcases decodeOp_cases hw with
    rfl | ⟨b, rfl⟩ | rfl | rfl | rfl | ⟨b, o, rfl⟩ | ⟨b, rfl⟩ | ⟨b, rfl⟩ | hi
  on_goal 9 =>
    simp only [List.mem_cons, List.not_mem_nil, or_false] at hi
    rcases hi with rfl | rfl | rfl | rfl | rfl | rfl | rfl | rfl
  all_goals exact h

/-- Everything that a step can do. -/
theorem step_effect (h : step s = .next t) :
    (s.cmd = [] ∧ t = s) ∨ (∃ rest, s.cmd = .rst :: rest ∧ t = assertRst rest s) ∨
      ∃ i, performs s i ∧ OpEffect (s.setCmd s.cmd.tail) i t := by
  rcases step_cases h with ⟨hc, ht⟩ | ⟨rest, hc, ht⟩ | ⟨w, rest, i, hc, hw, hi⟩
  · exact .inl ⟨hc, ht⟩
  · exact .inr (.inl ⟨rest, hc, ht⟩)
  · refine .inr (.inr ⟨i, ⟨w, rest, hc, hw⟩, ?_⟩)
    rw [hc]
    exact execEffect_of_decodeOp hw (exec_effect hi)

end

end Sys2Proof.Machine
end

section
/-! The rules of `spec/10_state.md` that every step keeps, read off the lists of effects: what an
operation writes to `RX`, `OUT` and `ERRSEEN`, and the invariants of R46. -/

namespace Sys2Proof.Machine

open Sys2Proof.Laws

/-! ### `RX`: first in, first out (R25, R31) -/

theorem FrameEffect.rx {s t : State} (h : FrameEffect s t) : t.mem.rx = s.mem.rx := by
  cases h with
  | ignored reason => rfl
  | unknown => rfl
  | version hph => simp [finishVersion, handshakeStep_eq]
  | versionPeer v sv hph => simp [finishVersion, handshakeStep_eq]
  | verack hph => simp [handshakeStep_eq]
  | entity p x e n hx => rfl
  | failed p x e hx hk => simp [takeError_session]

/-- The bytes of a frame say themselves with which magic they begin and how many they are (R95, R98). -/
theorem FrameAtHead.layout {s : State} {f : Frame} {rest : List Byte} (h : FrameAtHead s f rest) :
    (encodeFrame s.cfg.magic f).take 4 = s.cfg.magic ∧
      (encodeFrame s.cfg.magic f).length =
        24 + leNat (((encodeFrame s.cfg.magic f).drop 16).take 4) := by
  have hcmd : f.command.length = 12 := by
    have := h.sized
    simp only [Frame.sized, Bool.and_eq_true, beq_iff_eq] at this
    exact this.1
  constructor
  · simp [encodeFrame, h.magic]
  · rw [encodeFrame_length _ _ h.magic h.sized]
    have hfield : ((encodeFrame s.cfg.magic f).drop 16).take 4 = leBytes 4 f.length.toNat := by
      have := (memRead_some (memRead_append (p := s.cfg.magic ++ f.command)
        (b := leBytes 4 f.length.toNat) (r := f.checksum ++ f.payload) (a := 16) (n := 4)
        (by simp [h.magic, hcmd]) (leBytes_length ..))).2.1
      simpa [encodeFrame] using this.symm
    rw [hfield, leNat_leBytes _ _ (by have := f.length.isLt; omega)]

/-- Only FEED, CLOSE and EXTRACT write `RX`, and what EXTRACT drops is the frame at the head. -/
theorem OpEffect.rx {s t : State} {i : Instr} (h : OpEffect s i t) :
    t.mem.rx = s.mem.rx ∨
    (∃ b k, i = .feed b ∧ t.mem.rx = s.mem.rx ++ b.take k) ∨
    (i = .close ∧ t.mem.rx = []) ∨
    (i = .extract ∧ ∃ f, FrameAtHead s f t.mem.rx) := by
  cases h with
  | refused reason => exact .inl rfl
  | connected hph => exact .inl rfl
  | fed b => exact .inr (.inl ⟨b, _, rfl, rfl⟩)
  | waiting => exact .inl rfl
  | unframed k o hfrv hk => exact .inl (by simp [takeError_session])
  | dropped f rest hhead =>
    exact .inr (.inr (.inr ⟨rfl, f, by simpa [takeError_session] using hhead⟩))
  | delivered f rest hlive hhead hsum => exact .inr (.inr (.inr ⟨rfl, f, hhead⟩))
  | routed hlive hframe => exact .inl hframe.rx
  | closed => exact .inr (.inr (.inl ⟨rfl, rfl⟩))
  | decoded buf x r hi hx hr => exact .inl rfl

/-- Settles O32: a frame that leaves is the whole frame at the head, and no other effect drops bytes. -/
theorem bytesLeaveTheBufferOnlyAsFrames : Obligations.BytesLeaveTheBufferOnlyAsFrames := by
  intro s t i h
  rcases (exec_effect h).cases with ⟨x, rfl⟩ | hframe | hop
  · exact .inl rfl
  · exact .inl hframe.rx
  · rcases hop.rx with hkept | hfed | hclosed | ⟨hi, f, hhead⟩
    · exact .inl hkept
    · exact .inr (.inl hfed)
    · exact .inr (.inr (.inl hclosed))
    · exact .inr (.inr (.inr ⟨hi, _, hhead.rx, hhead.layout⟩))

/-- Settles O31: only one effect of EXTRACT emits a `GotFrame` record. -/
theorem deliveredFramesAreVerified : Obligations.DeliveredFramesAreVerified := by
  intro s t f h hout
  cases execExtract_effect h with
  | refused _ reason => simp at hout
  | waiting => simp at hout
  | unframed k o hfrv hk => simp [takeError_session] at hout
  | dropped g rest hhead => simp [takeError_session] at hout
  | delivered g rest hlive hhead hsum =>
    obtain rfl : g = f := by simpa using hout
    exact ⟨hhead.sized, hsum, rfl, _, rfl, hhead.rx⟩
  | decoded buf x r hi => simp [StandAlone] at hi

/-! ### `OUT`: one result record (R36 to R38) -/

theorem FrameEffect.out {s t : State} (h : FrameEffect s t) :
    ∃ rs r, t.out = s.out ++ rs ++ [r] ∧ r.isResult = true ∧ (rs = [] ∨ rs = [.verackReq]) := by
  cases h with
  | ignored reason => exact ⟨[], .ignored reason, by simp, rfl, .inl rfl⟩
  | unknown => exact ⟨[], .ignored .unknownCommand, by simp [noteUnknown_eq], rfl, .inl rfl⟩
  | version hph =>
    exact ⟨[.verackReq], .handshake .version _, by rw [finishVersion, handshakeStep_eq], rfl,
      .inr rfl⟩
  | versionPeer v sv hph =>
    exact ⟨[.verackReq], .handshake .version _, by rw [finishVersion, handshakeStep_eq]; rfl, rfl,
      .inr rfl⟩
  | verack hph => exact ⟨[], .handshake .verack _, by rw [handshakeStep_eq], rfl, .inl rfl⟩
  | entity p x e n hx => exact ⟨[], .entity e n, by simp, rfl, .inl rfl⟩
  | failed p x e hx hk => exact ⟨[], .err e, by simp [takeError_session], rfl, .inl rfl⟩

theorem OpEffect.out {s t : State} {i : Instr} (h : OpEffect s i t) :
    ∃ rs r, t.out = s.out ++ rs ++ [r] ∧ r.isResult = true ∧
      (rs = [] ∨ (rs = [.versionReq] ∧ i = .connect) ∨ (rs = [.verackReq] ∧ i = .route)) := by
  cases h with
  | refused _ reason => exact ⟨[], .refused reason, by simp, rfl, .inl rfl⟩
  | connected hph => exact ⟨[.versionReq], .ok, by simp, rfl, .inr (.inl ⟨rfl, rfl⟩)⟩
  | fed b => exact ⟨[], .fed _, by rw [List.append_nil]; rfl, rfl, .inl rfl⟩
  | waiting => exact ⟨[], .noFrameYet, by simp, rfl, .inl rfl⟩
  | unframed k o hfrv hk =>
    exact ⟨[], .err (framerError k o), by simp [takeError_session], rfl, .inl rfl⟩
  | dropped f rest hhead =>
    exact ⟨[], .err (framerError .checksumMismatch 20), by simp [takeError_session], rfl, .inl rfl⟩
  | delivered f rest hlive hhead hsum => exact ⟨[], .gotFrame f, by simp, rfl, .inl rfl⟩
  | routed hlive hframe =>
    obtain ⟨rs, r, hout, hr, hrs⟩ := hframe.out
    exact ⟨rs, r, hout, hr, hrs.imp_right fun h => .inr ⟨h, rfl⟩⟩
  | closed => exact ⟨[], .ok, by simp, rfl, .inl rfl⟩
  | decoded buf x r hi hx hr => exact ⟨[], r, by simp, hr, .inl rfl⟩

/-- The parameters and the rest of the queue are no operation's to write (R38, R40). -/
theorem FrameEffect.cfg_cmd {s t : State} (h : FrameEffect s t) : t.cfg = s.cfg ∧ t.cmd = s.cmd := by
  cases h <;> simp [takeError_session, noteUnknown_eq, finishVersion, handshakeStep_eq]

theorem OpEffect.cfg_cmd {s t : State} {i : Instr} (h : OpEffect s i t) :
    t.cfg = s.cfg ∧ t.cmd = s.cmd := by
  cases h with
  | routed hlive hframe => exact hframe.cfg_cmd
  | _ => simp [takeError_session]

/-- The step of a pending operation has that operation's effect. -/
theorem performs_effect {s t : State} {i : Instr} (hi : performs s i) (h : step s = .next t) :
    OpEffect (s.setCmd s.cmd.tail) i t := by
  obtain ⟨w, rest, hc, hw⟩ := hi
  rcases step_effect h with ⟨hc', -⟩ | ⟨rest', hc', -⟩ | ⟨j, ⟨w', rest', hc', hw'⟩, hj⟩
  · simp [hc] at hc'
  · simp [hc] at hc'
  · obtain ⟨rfl, rfl⟩ : w = w' ∧ rest = rest' := by simpa [hc] using hc'
    obtain rfl : i = j := by simpa [hw] using hw'
    exact hj

/-- Settles O50, from what the operation's effect writes. -/
theorem everyOperationEmitsOneResult : Obligations.EveryOperationEmitsOneResult := by
  intro s t i hi h
  have hop := performs_effect hi h
  obtain ⟨hcfg, hcmd⟩ := hop.cfg_cmd
  exact ⟨hcfg, hcmd, hop.out⟩

/-! ### `ERRSEEN` (R29) -/

theorem errBit_bit0 (k : ErrKind) : (errBit k).getLsbD 0 = false := by cases k <;> decide

/-- Bits 3 and 6 are those of the fatal kinds (R215). -/
theorem errBit_nonfatal {k : ErrKind} (h : k.fatal = false) :
    (errBit k).getLsbD 3 = false ∧ (errBit k).getLsbD 6 = false := by
  cases k with
  | invalidMagic | frameTooLarge => cases h
  | _ => decide

/-- A bit that neither the kind's mask nor the cause's has is not set (R232). -/
theorem errBits_unset {e : ErrInfo} {i : Nat} (hkind : (errBit e.kind).getLsbD i = false)
    (hcause : (errBit .malformedVarInt).getLsbD i = false) : (errBits e).getLsbD i = false := by
  unfold errBits
  split <;> simp [BitVec.getLsbD_or, hkind, hcause]

theorem errBits_bit0 (e : ErrInfo) : (errBits e).getLsbD 0 = false :=
  errBits_unset (errBit_bit0 _) (errBit_bit0 _)

theorem errBits_nonfatal {e : ErrInfo} (h : e.kind.fatal = false) :
    (errBits e).getLsbD 3 = false ∧ (errBits e).getLsbD 6 = false :=
  ⟨errBits_unset (errBit_nonfatal h).1 (by decide), errBits_unset (errBit_nonfatal h).2 (by decide)⟩

/-- Adding a mask leaves the bits outside it. -/
theorem getLsbD_or_of_unset {e m : BitVec 7} {i : Nat} (h : m.getLsbD i = false) :
    (e ||| m).getLsbD i = e.getLsbD i := by
  rw [BitVec.getLsbD_or, h, Bool.or_false]

/-- The kinds a decode raises end no session (R140, R215). -/
theorem decodeKind_nonfatal {k : ErrKind} (h : k = .truncatedInput ∨ k = .malformedVarInt) :
    k.fatal = false := by
  rcases h with rfl | rfl <;> rfl

/-- Handling a frame sets bits of kinds that end no session, and no other. -/
theorem FrameEffect.errSeen {s t : State} (h : FrameEffect s t) :
    ∃ m : BitVec 7, t.errSeen = s.errSeen ||| m ∧ m.getLsbD 0 = false ∧ m.getLsbD 3 = false ∧
      m.getLsbD 6 = false := by
  have hnone : ∀ u : State, u.errSeen = s.errSeen → ∃ m : BitVec 7, u.errSeen = s.errSeen ||| m ∧
      m.getLsbD 0 = false ∧ m.getLsbD 3 = false ∧ m.getLsbD 6 = false :=
    fun u hu => ⟨0, by simp [hu], by simp⟩
  cases h with
  | ignored reason => exact hnone _ rfl
  | unknown => exact ⟨0x20, rfl, by decide⟩
  | version hph => exact hnone _ (by rw [finishVersion, handshakeStep_eq])
  | versionPeer v sv hph => exact hnone _ (by rw [finishVersion, handshakeStep_eq]; rfl)
  | verack hph => exact hnone _ (by rw [handshakeStep_eq])
  | entity p x e n hx => exact hnone _ rfl
  | failed p x e hx hk =>
    exact ⟨errBits e, by simp [takeError_session], errBits_bit0 e,
      errBits_nonfatal (decodeKind_nonfatal hk)⟩

/-- Only EXTRACT and ROUTE set bits, and none of them bit 0. -/
theorem OpEffect.errSeen {s t : State} {i : Instr} (h : OpEffect s i t) :
    t.errSeen = s.errSeen ∨ ((i = .extract ∨ i = .route) ∧
      ∃ m : BitVec 7, t.errSeen = s.errSeen ||| m ∧ m.getLsbD 0 = false) := by
  cases h with
  | refused _ reason => exact .inl rfl
  | connected hph => exact .inl rfl
  | fed b => exact .inl rfl
  | waiting => exact .inl rfl
  | unframed k o hfrv hk =>
    exact .inr ⟨.inl rfl, _, by rw [takeError_session], errBits_bit0 _⟩
  | dropped f rest hhead =>
    exact .inr ⟨.inl rfl, _, by rw [takeError_session]; rfl, errBits_bit0 _⟩
  | delivered f rest hlive hhead hsum => exact .inl rfl
  | routed hlive hframe =>
    obtain ⟨m, hm, h0, -⟩ := hframe.errSeen
    exact .inr ⟨.inr rfl, m, hm, h0⟩
  | closed => exact .inl rfl
  | decoded buf x r hi hx hr => exact .inl rfl

/-- Settles O49: bits are added by an `or`, so none is ever lost. -/
theorem errorMaskIsSticky : Obligations.ErrorMaskIsSticky := by
  intro s t h hreset
  rcases step_effect h with ⟨-, rfl⟩ | ⟨rest, hc, -⟩ | ⟨i, hi, hop⟩
  · exact ⟨fun k hk => hk, fun hne => absurd rfl hne, rfl⟩
  · exact absurd ⟨rest, hc⟩ hreset
  · rcases hop.errSeen with hsame | ⟨hwriter, m, hm, h0⟩
    · rw [State.setCmd_errSeen] at hsame
      rw [hsame]
      exact ⟨fun k hk => hk, fun hne => absurd rfl hne, rfl⟩
    · rw [State.setCmd_errSeen] at hm
      refine ⟨fun k hk => by simp [hm, hk], fun _ => ?_, hm ▸ getLsbD_or_of_unset h0⟩
      rcases hwriter with rfl | rfl
      · exact .inl hi
      · exact .inr hi

/-! ### The invariants (R32, R33, R46) -/

/-- The sizes of the byte spaces, and `WLEN = len(W)` (R31 to R33). -/
structure BuffersOk (c : Config) (m : Memory) (wlen : Nat) : Prop where
  mem : Memory.wf c m = true
  window : wlen = m.w.length

/-- What R46 asks of the status registers. -/
structure StatusOk (p : Phase) (f : Flags) (e : BitVec 7) : Prop where
  flags : phaseMatchesFlags p f = true
  frv : f.frv = true → p.live = true
  peer : f.peerInfoValid = true → f.gotVersion = true
  bit0 : e.getLsbD 0 = false
  fatal : p = .error ∨ (e.getLsbD 3 = false ∧ e.getLsbD 6 = false)

theorem inv_iff (s : State) :
    s.inv = true ↔ BuffersOk s.cfg s.mem s.x.wlen ∧ StatusOk s.phase s.flags s.errSeen := by
  have himp_iff : ∀ a b : Bool, (!a || b) = true ↔ (a = true → b = true) := by decide
  simp only [State.inv, State.windowWf, frvAllowed, errSeenAllowed, himp_iff, Bool.and_eq_true,
    Bool.or_eq_true, beq_iff_eq, decide_eq_true_eq, Bool.not_eq_true', Option.isNone_iff_eq_none,
    phaseRefusal_eq_none_iff]
  exact ⟨fun ⟨⟨⟨⟨⟨hm, hw⟩, hf⟩, hv⟩, hp⟩, h0, he⟩ => ⟨⟨hm, hw⟩, ⟨hf, hv, hp, h0, he⟩⟩,
    fun ⟨⟨hm, hw⟩, ⟨hf, hv, hp, h0, he⟩⟩ => ⟨⟨⟨⟨⟨hm, hw⟩, hf⟩, hv⟩, hp⟩, h0, he⟩⟩

theorem buffersOk_reset (c : Config) :
    BuffersOk c (State.resetWith c).mem (State.resetWith c).x.wlen :=
  ⟨reset_memory_wf c, rfl⟩

/-- Whatever the parameters are, the reset values meet the invariants. -/
theorem inv_resetWith (c : Config) : (State.resetWith c).inv = true :=
  (inv_iff _).mpr ⟨buffersOk_reset c, ⟨rfl, nofun, nofun, BitVec.getLsbD_zero,
    .inr ⟨BitVec.getLsbD_zero, BitVec.getLsbD_zero⟩⟩⟩

/-- Settles O53: the ranges of the parameters are not even needed. -/
theorem resetMeetsTheInvariants : Obligations.ResetMeetsTheInvariants :=
  fun c _ => inv_resetWith c

/-- `UpdatePhase` after a handshake frame, which has set one of the two flags (R194). -/
theorem updatePhase_of_flag {p : Phase} {g : Flags} (hlive : p.live = true) (hp : p ≠ .handshook) :
    updatePhase g p = if g.gotVersion && g.gotVerack then .handshook else .awaitingVerack := by
  cases p with
  | versionSent | awaitingVerack => rfl
  | handshook => exact absurd rfl hp
  | init | closed | error => cases hlive

namespace StatusOk

variable {p : Phase} {f : Flags} {e : BitVec 7}

/-- CONNECT: no flag is set in Init, and none needs to be in VersionSent. -/
theorem connected (h : StatusOk .init f e) : StatusOk .versionSent f e :=
  ⟨h.flags, fun _ => rfl, h.peer, h.bit0, .inr (h.fatal.resolve_left nofun)⟩

/-- Taking an error that ends no session. -/
theorem noted (h : StatusOk p f e) {m : BitVec 7} (h0 : m.getLsbD 0 = false)
    (h3 : m.getLsbD 3 = false) (h6 : m.getLsbD 6 = false) : StatusOk p f (e ||| m) := by
  refine ⟨h.flags, h.frv, h.peer, ?_, ?_⟩
  · rw [getLsbD_or_of_unset h0]; exact h.bit0
  · rw [getLsbD_or_of_unset h3, getLsbD_or_of_unset h6]; exact h.fatal

/-- Taking an error that ends the session, with no frame unrouted. -/
theorem failed (h : StatusOk p f e) (hfrv : f.frv = false) {m : BitVec 7}
    (h0 : m.getLsbD 0 = false) : StatusOk .error f (e ||| m) :=
  ⟨rfl, by simp [hfrv], h.peer, by rw [getLsbD_or_of_unset h0]; exact h.bit0, .inl rfl⟩

/-- `FRV` is written only in a live phase, or cleared. -/
theorem setFrv (h : StatusOk p f e) {b : Bool} (hb : b = true → p.live = true) :
    StatusOk p { f with frv := b } e :=
  ⟨by have := h.flags; cases p <;> exact this, hb, h.peer, h.bit0, h.fatal⟩

theorem closed (h : StatusOk p f e) : StatusOk (closedPhase p) { f with frv := false } e := by
  unfold closedPhase
  split
  next hp => exact (hp ▸ h).setFrv nofun
  next hp => exact ⟨rfl, nofun, h.peer, h.bit0, .inr (h.fatal.resolve_left hp)⟩

/-- A handshake frame: `UpdatePhase` follows the number of flags set (R194). -/
theorem handshake (h : StatusOk p f e) (hlive : p.live = true) (hp : p ≠ .handshook) {g : Flags}
    (hset : g.gotVersion = true ∨ g.gotVerack = true)
    (hpeer : g.peerInfoValid = true → g.gotVersion = true) :
    StatusOk (updatePhase g p) g e := by
  have herr := h.fatal.resolve_left (live_ne_error hlive)
  rw [updatePhase_of_flag hlive hp]
  split
  next hboth => exact ⟨hboth, fun _ => rfl, hpeer, h.bit0, .inr herr⟩
  next hboth =>
    have hone : phaseMatchesFlags .awaitingVerack g = true := by
      unfold phaseMatchesFlags
      cases hv : g.gotVersion <;> cases hk : g.gotVerack <;> simp_all
    exact ⟨hone, fun _ => rfl, hpeer, h.bit0, .inr herr⟩

end StatusOk

/-- Handling a frame in a live phase, the frame consumed, keeps the invariants. -/
theorem FrameEffect.inv {s t : State} (h : FrameEffect s t) (hlive : s.phase.live = true)
    (hs : s.inv = true) : t.inv = true := by
  obtain ⟨hb, hst⟩ := (inv_iff s).mp hs
  rw [inv_iff]
  cases h with
  | ignored reason => exact ⟨hb, hst⟩
  | unknown => exact ⟨hb, hst.noted (by decide) (by decide) (by decide)⟩
  | version hph =>
    rw [finishVersion, handshakeStep_eq]
    exact ⟨hb, hst.handshake hlive hph (.inl rfl) fun _ => rfl⟩
  | versionPeer v sv hph =>
    rw [finishVersion, handshakeStep_eq]
    exact ⟨hb, hst.handshake hlive hph (.inl rfl) fun _ => rfl⟩
  | verack hph =>
    rw [handshakeStep_eq]
    exact ⟨hb, hst.handshake hlive hph (.inr rfl) hst.peer⟩
  | entity p x e n hx => exact ⟨⟨hb.mem, hx⟩, hst⟩
  | failed p x e hx hk =>
    have hnf := decodeKind_nonfatal hk
    obtain ⟨h3, h6⟩ := errBits_nonfatal hnf
    rw [takeError_session, hnf]
    exact ⟨⟨hb.mem, hx⟩, hst.noted (errBits_bit0 e) h3 h6⟩

/-- What stands behind a frame fits where frame and rest fitted. -/
theorem FrameAtHead.rest_wf {s : State} {f : Frame} {rest : List Byte} (h : FrameAtHead s f rest)
    (hm : Memory.wf s.cfg s.mem = true) : Memory.wf s.cfg (s.setRx rest).mem = true := by
  have hrest : s.dropRx (encodeFrame s.cfg.magic f).length = s.setRx rest := by
    simp [State.dropRx, h.rx]
  exact hrest ▸ dropRx_wf hm

theorem OpEffect.inv {s t : State} {i : Instr} (h : OpEffect s i t) (hs : s.inv = true) :
    t.inv = true := by
  obtain ⟨hb, hst⟩ := (inv_iff s).mp hs
  rw [inv_iff]
  cases h with
  | refused _ reason => exact ⟨hb, hst⟩
  | connected hph => exact ⟨hb, (hph ▸ hst).connected⟩
  | fed b => exact ⟨⟨appendRx_wf hb.mem, hb.window⟩, hst⟩
  | waiting => exact ⟨hb, hst⟩
  | unframed k o hfrv hk =>
    rw [takeError_session, framerError, hk]
    exact ⟨hb, hst.failed hfrv (errBits_bit0 _)⟩
  | dropped f rest hhead =>
    rw [takeError_session]
    exact ⟨⟨hhead.rest_wf hb.mem, hb.window⟩,
      hst.noted (errBits_bit0 _) (errBits_nonfatal rfl).1 (errBits_nonfatal rfl).2⟩
  | delivered f rest hlive hhead hsum =>
    have hmem := setFr_wf (s := s.setRx rest) (hhead.rest_wf hb.mem) hhead.sized
    exact ⟨⟨hmem, hb.window⟩, hst.setFrv fun _ => hlive⟩
  | routed hlive hframe =>
    exact (inv_iff t).mp (hframe.inv hlive ((inv_iff _).mpr ⟨hb, hst.setFrv nofun⟩))
  | closed => exact ⟨⟨clearRx_wf (s := s) hb.mem, hb.window⟩, hst.closed⟩
  | decoded buf x r hi hx hr => exact ⟨⟨hb.mem, hx⟩, hst⟩

/-- Settles O54: a case split on what a step can do, with the base case of a reset. -/
theorem everyStepKeepsTheInvariants : Obligations.EveryStepKeepsTheInvariants := by
  intro s t hs h
  rcases step_effect h with ⟨-, rfl⟩ | ⟨rest, -, rfl⟩ | ⟨i, -, hop⟩
  · exact hs
  · exact inv_resetWith s.cfg
  · exact hop.inv hs

/-! ### Single steps, reset and `STATUS` (R26 to R30, R42, R45) -/

/-- Settles O51, by running `fetch` on each of the three queues. -/
theorem stepPerformsTheDecodedOperation : Obligations.StepPerformsTheDecodedOperation := by
  intro s w rest i
  refine ⟨fun hc hw => ?_, fun hc => ?_, fun hc => ?_⟩
  · simp only [step, fetch, hc, hw]; rfl
  · simp only [step, fetch, hc]
  · simp only [step, fetch, hc]; rfl

/-- Settles O52: a reset and `State.reset` differ in the parameters and the queue, which no stated value
is about. -/
theorem resetGivesTheStatedValues : Obligations.ResetGivesTheStatedValues := by
  have hreset : ∀ (c : Config) (q : List HostEvent) (t : State),
      t = (State.resetWith c).setCmd q →
      t.phase = .init ∧ t.status.phase = 0 ∧ t.status.flags = 0 ∧ t.peerVersion = 0 ∧
        t.peerServices = 0 ∧ t.errSeen = 0 ∧ t.mem.rx = [] ∧ t.rxlen = 0 ∧ t.out = [] := by
    rintro c q t rfl
    exact ⟨rfl, rfl, rfl, rfl, rfl, rfl, rfl, rfl, rfl⟩
  rintro s t (⟨⟨rest, hc⟩, h⟩ | rfl)
  · rw [(stepPerformsTheDecodedOperation s ⟨0, .nothing⟩ rest .illegal0).2.2 hc] at h
    cases h
    exact hreset s.cfg rest _ rfl
  · exact hreset Config.standard [] _ rfl

/-- Each flag stands at its bit of the word (R27). -/
theorem flagsWord_bits (f : Flags) :
    f.word.getLsbD 0 = f.gotVersion ∧ f.word.getLsbD 1 = f.gotVerack ∧
      f.word.getLsbD 2 = f.peerInfoValid ∧ f.word.getLsbD 3 = f.frv := by
  have htable : ∀ a b c d : Bool, (Flags.mk a b c d).word.getLsbD 0 = a ∧
      (Flags.mk a b c d).word.getLsbD 1 = b ∧ (Flags.mk a b c d).word.getLsbD 2 = c ∧
      (Flags.mk a b c d).word.getLsbD 3 = d := by decide
  exact htable _ _ _ _

/-- Settles O58: all but the phase's number and the flags is a projection. -/
theorem statusShowsTheRegisters : Obligations.StatusShowsTheRegisters := by
  intro s
  obtain ⟨h0, h1, h2, h3⟩ := flagsWord_bits s.flags
  refine ⟨?_, h0, h1, h2, h3, rfl, rfl, rfl, rfl, rfl⟩
  show s.phase.code = _
  cases s.phase <;> rfl

end Sys2Proof.Machine
end

section
/-! What the spec leaves unspecified is never read. The decoders are run twice, on registers that agree
only on the cursor, and answer alike (`Decoded.Same`); the operations are run twice, on states that
agree only on what the spec fixes, and answer alike (`SameAnswer`). -/

namespace Sys2Proof.Machine

open Sys2Proof.Laws

/-! ### Decoding with other working registers (R22) -/

/-- Registers that agree on the window and the cursor, and on those counters that are asked for: each
loop reads its own counter only, after it has been written (R22, R141, R151). -/
structure SameCursor (ins outs txs : Prop) (x y : Regs) : Prop where
  off : x.off = y.off
  wlen : x.wlen = y.wlen
  base : x.base = y.base
  nin : ins → x.nin = y.nin
  nout : outs → x.nout = y.nout
  ntx : txs → x.ntx = y.ntx

/-- Two decodes end alike: with the same value, the same error or the same fault, and with registers
related by `R`. -/
inductive Decoded.Same {α : Type} (R : Regs → Regs → Prop) : Decoded α → Decoded α → Prop
  | ok (a : α) {x y : Regs} : R x y → Same R (.ok a x) (.ok a y)
  | raise (e : ErrInfo) {x y : Regs} : R x y → Same R (.raise e x) (.raise e y)
  | outside (f : Fault) : Same R (.outside f) (.outside f)

theorem Decoded.Same.mono {α : Type} {R S : Regs → Regs → Prop} {d d' : Decoded α}
    (h : d.Same R d') (hRS : ∀ x y, R x y → S x y) : d.Same S d' := by
  cases h with
  | ok a h => exact .ok a (hRS _ _ h)
  | raise e h => exact .raise e (hRS _ _ h)
  | outside f => exact .outside f

theorem Decoded.Same.bind {α β : Type} {R : Regs → Regs → Prop} {d d' : Decoded α}
    {k k' : α → Regs → Decoded β} (h : d.Same R d')
    (hk : ∀ a x y, R x y → (k a x).Same R (k' a y)) : (d.bind k).Same R (d'.bind k') := by
  cases h with
  | ok a h => exact hk a _ _ h
  | raise e h => exact .raise e h
  | outside f => exact .outside f

section
variable {ins outs txs : Prop} {x y : Regs}

theorem SameCursor.setOff (h : SameCursor ins outs txs x y) (o : Nat) :
    SameCursor ins outs txs { x with off := o } { y with off := o } :=
  ⟨rfl, h.wlen, h.base, h.nin, h.nout, h.ntx⟩

theorem SameCursor.setVarInt (h : SameCursor ins outs txs x y) (v : VarInt) :
    SameCursor ins outs txs (x.setVarInt v) (y.setVarInt v) :=
  ⟨h.off, h.wlen, h.base, h.nin, h.nout, h.ntx⟩

/-- A counter that has been written is known from then on. -/
theorem SameCursor.setNin (h : SameCursor ins outs txs x y) (n : Word64) :
    SameCursor True outs txs { x with nin := n } { y with nin := n } :=
  ⟨h.off, h.wlen, h.base, fun _ => rfl, h.nout, h.ntx⟩

theorem SameCursor.setNout (h : SameCursor ins outs txs x y) (n : Word64) :
    SameCursor ins True txs { x with nout := n } { y with nout := n } :=
  ⟨h.off, h.wlen, h.base, h.nin, fun _ => rfl, h.ntx⟩

theorem SameCursor.setNtx (h : SameCursor ins outs txs x y) (n : Word64) :
    SameCursor ins outs True { x with ntx := n } { y with ntx := n } :=
  ⟨h.off, h.wlen, h.base, h.nin, h.nout, fun _ => rfl⟩

/-- The bound of a loop is the number of bytes that remain. -/
theorem SameCursor.remain (h : SameCursor ins outs txs x y) : x.wlen - x.off = y.wlen - y.off := by
  rw [h.wlen, h.off]

/-- Less may be asked for. -/
theorem SameCursor.mono {ins' outs' txs' : Prop} (h : SameCursor ins outs txs x y)
    (hi : ins' → ins) (ho : outs' → outs) (ht : txs' → txs) : SameCursor ins' outs' txs' x y :=
  ⟨h.off, h.wlen, h.base, h.nin ∘ hi, h.nout ∘ ho, h.ntx ∘ ht⟩

variable (w : List Byte)

theorem readBytes_same (n : Nat) (h : SameCursor ins outs txs x y) :
    (readBytes w n x).Same (SameCursor ins outs txs) (readBytes w n y) := by
  unfold readBytes
  rw [h.off, h.wlen]
  split
  · exact .raise _ h
  · split
    · exact .ok _ ⟨rfl, rfl, h.base, h.nin, h.nout, h.ntx⟩
    · exact .outside _

theorem readU32_same (h : SameCursor ins outs txs x y) :
    (readU32 w x).Same (SameCursor ins outs txs) (readU32 w y) :=
  (readBytes_same w 4 h).bind fun _ _ _ h => .ok _ h

theorem readU64_same (h : SameCursor ins outs txs x y) :
    (readU64 w x).Same (SameCursor ins outs txs) (readU64 w y) :=
  (readBytes_same w 8 h).bind fun _ _ _ h => .ok _ h

/-- `VarIntDecode` reads no register but `WLEN` (R131). -/
theorem varIntDecode_same {R : Regs → Regs → Prop} (o : Nat) (hw : x.wlen = y.wlen) (h : R x y)
    (hv : ∀ v, R (x.setVarInt v) (y.setVarInt v)) :
    (varIntDecode w o x).Same R (varIntDecode w o y) := by
  unfold varIntDecode
  rw [hw]
  split
  · exact .raise _ h
  split
  · exact .outside _
  dsimp only
  split
  · exact .raise _ h
  split
  · exact .outside _
  · exact .ok _ (hv _)

theorem readVarInt_same (h : SameCursor ins outs txs x y) :
    (readVarInt w x).Same (SameCursor ins outs txs) (readVarInt w y) := by
  unfold readVarInt
  rw [h.off]
  refine (varIntDecode_same w y.off h.wlen h h.setVarInt).bind fun v x y h => ?_
  rw [h.off]
  exact .ok _ (h.setOff _)

theorem readScript_same (h : SameCursor ins outs txs x y) :
    (readScript w x).Same (SameCursor ins outs txs) (readScript w y) := by
  refine (readVarInt_same w h).bind fun n x y h => ?_
  rw [h.off, h.wlen]
  split
  · exact .raise _ h
  · exact readBytes_same w _ h

theorem readTxInput_same (h : SameCursor ins outs txs x y) :
    (readTxInput w x).Same (SameCursor ins outs txs) (readTxInput w y) :=
  (readBytes_same w 32 h).bind fun _ _ _ h => (readU32_same w h).bind fun _ _ _ h =>
    (readScript_same w h).bind fun _ _ _ h => (readU32_same w h).bind fun _ _ _ h => .ok _ h

theorem readTxOutput_same (h : SameCursor ins outs txs x y) :
    (readTxOutput w x).Same (SameCursor ins outs txs) (readTxOutput w y) :=
  (readU64_same w h).bind fun _ _ _ h => (readScript_same w h).bind fun _ _ _ h => .ok _ h

theorem readInputs_same (fuel : Nat) (h : SameCursor True outs txs x y) :
    (readInputs w fuel x).Same (SameCursor True outs txs) (readInputs w fuel y) := by
  induction fuel generalizing x y with
  | zero =>
    simp only [readInputs, h.nin trivial, h.off]
    split
    · exact .ok _ h
    · exact .raise _ h
  | succ fuel ih =>
    simp only [readInputs, h.nin trivial]
    split
    · exact .ok _ h
    · refine (readTxInput_same w h).bind fun i x y h => ?_
      rw [h.nin trivial]
      exact (ih (h.setNin _)).bind fun is _ _ h => .ok _ h

theorem readOutputs_same (fuel : Nat) (h : SameCursor ins True txs x y) :
    (readOutputs w fuel x).Same (SameCursor ins True txs) (readOutputs w fuel y) := by
  induction fuel generalizing x y with
  | zero =>
    simp only [readOutputs, h.nout trivial, h.off]
    split
    · exact .ok _ h
    · exact .raise _ h
  | succ fuel ih =>
    simp only [readOutputs, h.nout trivial]
    split
    · exact .ok _ h
    · refine (readTxOutput_same w h).bind fun o x y h => ?_
      rw [h.nout trivial]
      exact (ih (h.setNout _)).bind fun os _ _ h => .ok _ h

theorem txDecode_same (h : SameCursor ins outs txs x y) :
    (txDecode w x).Same (SameCursor ins outs txs) (txDecode w y) := by
  have hbase : SameCursor ins outs txs { x with base := x.off } { y with base := y.off } :=
    ⟨h.off, h.wlen, h.off, h.nin, h.nout, h.ntx⟩
  refine (readU32_same w hbase).bind fun version x y h => ?_
  refine (readVarInt_same w h).bind fun n x y h => ?_
  rw [h.remain]
  have hins := (readInputs_same w (y.wlen - y.off) (h.setNin n)).mono
    fun x y h => h.mono (ins' := ins) (fun _ => trivial) id id
  refine hins.bind fun inputs x y h => ?_
  refine (readVarInt_same w h).bind fun m x y h => ?_
  rw [h.remain]
  have houts := (readOutputs_same w (y.wlen - y.off) (h.setNout m)).mono
    fun x y h => h.mono (outs' := outs) id (fun _ => trivial) id
  refine houts.bind fun outputs x y h => ?_
  refine (readU32_same w h).bind fun lockTime x y h => ?_
  rw [h.off, h.base]
  exact .ok _ h

theorem tryTx_same (i : Nat) (h : SameCursor ins outs txs x y) :
    (tryTx w i x).Same (SameCursor ins outs txs) (tryTx w i y) := by
  have hd := txDecode_same w h
  unfold tryTx
  generalize txDecode w x = d, txDecode w y = d' at hd ⊢
  cases hd with
  | ok a h => exact .ok _ h
  | raise e h => exact .raise _ h
  | outside f => exact .outside _

theorem readTxs_same (fuel i : Nat) (h : SameCursor ins outs True x y) :
    (readTxs w fuel i x).Same (SameCursor ins outs True) (readTxs w fuel i y) := by
  induction fuel generalizing x y i with
  | zero =>
    simp only [readTxs, h.ntx trivial, h.off]
    split
    · exact .ok _ h
    · exact .raise _ ⟨rfl, h.wlen, rfl, h.nin, h.nout, fun _ => rfl⟩
  | succ fuel ih =>
    simp only [readTxs, h.ntx trivial]
    split
    · exact .ok _ h
    · refine (tryTx_same w i h).bind fun t x y h => ?_
      rw [h.ntx trivial]
      exact (ih (i + 1) (h.setNtx _)).bind fun ts _ _ h => .ok _ h

theorem blockDecode_same (h : SameCursor ins outs txs x y) :
    (blockDecode w x).Same (SameCursor ins outs txs) (blockDecode w y) := by
  unfold blockDecode
  by_cases h80 : x.wlen < 80
  · rw [if_pos h80, if_pos (h.wlen ▸ h80)]
    exact .raise _ h
  rw [if_neg h80, if_neg (h.wlen ▸ h80)]
  split
  · exact .outside _
  refine (readVarInt_same w (h.setOff 80)).bind fun n x y h => ?_
  rw [h.remain]
  have htxs := (readTxs_same w (y.wlen - y.off) 0 (h.setNtx n)).mono
    fun x y h => h.mono (txs' := txs) id id fun _ => trivial
  refine htxs.bind fun ts x y h => ?_
  rw [h.off]
  exact .ok _ h

end

/-- Whatever the registers held, opening a window makes the cursor the same. -/
theorem openWindow_sameCursor (s t : State) (buf : List Byte) :
    SameCursor False False False (s.openWindow buf).x (t.openWindow buf).x :=
  ⟨rfl, rfl, rfl, nofun, nofun, nofun⟩

/-! ### Stand-alone decodes (R73, R148) -/

/-- Decodes that end alike, and answer at all, emit one and the same record. -/
theorem finishDecode_sameRecord {α : Type} {R : Regs → Regs → Prop} {d d' : Decoded α} {n : Nat}
    (rec : α → Record) (h : d.Same R d') (hd : d.Ends n) (s s' : State) :
    ∃ t t' r, finishDecode .standAlone rec d s = .next t ∧
      finishDecode .standAlone rec d' s' = .next t' ∧ t.out = s.out ++ [r] ∧
      t'.out = s'.out ++ [r] := by
  cases h with
  | ok a h => exact ⟨_, _, rec a, rfl, rfl, rfl, rfl⟩
  | raise e h => exact ⟨_, _, .err e, rfl, rfl, rfl, rfl⟩
  | outside f => exact hd.elim

/-- Settles O24: both decodes open the same window and end alike. -/
theorem decodeResultsDependOnlyOnTheOperand : Obligations.DecodeResultsDependOnlyOnTheOperand := by
  intro s s' buf o i hi hcap
  rcases hi with rfl | rfl | rfl
  · simp only [exec, execVarint, hcap, finishDecode_loadWindow]
    split
    · exact finishDecode_sameRecord (R := fun _ _ => True) _
        (varIntDecode_same (x := (s.loadWindow buf).x) (y := (s'.loadWindow buf).x) buf o rfl
          trivial fun _ => trivial)
        (varIntDecode_ends o rfl) _ _
    · exact ⟨_, _, _, rfl, rfl, rfl, rfl⟩
  · simp only [exec, execTxdec, hcap]
    split
    · exact finishDecode_sameRecord _ (txDecode_same buf (openWindow_sameCursor s s' buf))
        (txDecode_ends (openWindow_ready s buf)) _ _
    · exact ⟨_, _, _, rfl, rfl, rfl, rfl⟩
  · simp only [exec, execBlkdec, hcap]
    split
    · exact finishDecode_sameRecord _ (blockDecode_same buf (openWindow_sameCursor s s' buf))
        (blockDecode_ends (openWindow_ready s buf)) _ _
    · exact ⟨_, _, _, rfl, rfl, rfl, rfl⟩

/-! ### States that differ in what is unspecified (U10) -/

/-- The state with other contents in the registers, in `W` and in `FR`. -/
def State.withUnspecified (s : State) (x : Regs) (w : List Byte) (fr : Frame) : State :=
  { s with x := x, mem := { s.mem with w := w, fr := fr } }

theorem sameSpecified_withUnspecified {s : State} {x : Regs} {w : List Byte} {fr : Frame}
    (hfr : s.flags.frv = true → fr = s.mem.fr) : sameSpecified s (s.withUnspecified x w fr) :=
  ⟨rfl, rfl, rfl, rfl, rfl, rfl, rfl, rfl, rfl, fun h => (hfr h).symm⟩

/-- States that differ only there are of this form, so that an update of one, applied to the other,
is the updated state with other contents. -/
theorem sameSpecified.exists_eq {s t : State} (h : sameSpecified s t) :
    ∃ x w fr, t = s.withUnspecified x w fr ∧ (s.flags.frv = true → fr = s.mem.fr) := by
  obtain ⟨hcfg, hphase, hflags, hpv, hps, herr, hrx, hout, hcmd, hfr⟩ := h
  obtain ⟨cfg, x, phase, flags, pv, ps, err, ⟨rx, fr, w⟩, out, cmd⟩ := t
  dsimp only at hcfg hphase hflags hpv hps herr hrx hout hcmd hfr
  subst hcfg hphase hflags hpv hps herr hrx hout hcmd
  exact ⟨x, w, fr, rfl, fun h => (hfr h).symm⟩

/-- A state resembles itself. -/
theorem sameSpecified.refl (s : State) : sameSpecified s s :=
  ⟨rfl, rfl, rfl, rfl, rfl, rfl, rfl, rfl, rfl, fun _ => rfl⟩

section
variable {s t : State}

theorem sameSpecified.emit (h : sameSpecified s t) (r : Record) :
    sameSpecified (s.emit r) (t.emit r) := by
  obtain ⟨x, w, fr, rfl, hfr⟩ := h.exists_eq
  exact sameSpecified_withUnspecified (s := s.emit r) hfr

theorem sameSpecified.setPhase (h : sameSpecified s t) (p : Phase) :
    sameSpecified (s.setPhase p) (t.setPhase p) := by
  obtain ⟨x, w, fr, rfl, hfr⟩ := h.exists_eq
  exact sameSpecified_withUnspecified (s := s.setPhase p) hfr

theorem sameSpecified.setPeer (h : sameSpecified s t) (v : Word32) (sv : Word64) :
    sameSpecified (s.setPeer v sv) (t.setPeer v sv) := by
  obtain ⟨x, w, fr, rfl, hfr⟩ := h.exists_eq
  exact sameSpecified_withUnspecified (s := s.setPeer v sv) hfr

theorem sameSpecified.noteErr (h : sameSpecified s t) (m : BitVec 7) :
    sameSpecified (s.noteErr m) (t.noteErr m) := by
  obtain ⟨x, w, fr, rfl, hfr⟩ := h.exists_eq
  exact sameSpecified_withUnspecified (s := s.noteErr m) hfr

theorem sameSpecified.setRx (h : sameSpecified s t) (b : List Byte) :
    sameSpecified (s.setRx b) (t.setRx b) := by
  obtain ⟨x, w, fr, rfl, hfr⟩ := h.exists_eq
  exact sameSpecified_withUnspecified (s := s.setRx b) hfr

theorem sameSpecified.setCmd (h : sameSpecified s t) (c : List HostEvent) :
    sameSpecified (s.setCmd c) (t.setCmd c) := by
  obtain ⟨x, w, fr, rfl, hfr⟩ := h.exists_eq
  exact sameSpecified_withUnspecified (s := s.setCmd c) hfr

/-- Working registers may be written with different values. -/
theorem sameSpecified.setX (h : sameSpecified s t) (x y : Regs) :
    sameSpecified (s.setX x) (t.setX y) := by
  obtain ⟨_, w, fr, rfl, hfr⟩ := h.exists_eq
  exact sameSpecified_withUnspecified (s := s.setX x) hfr

theorem sameSpecified.openWindow (h : sameSpecified s t) (buf : List Byte) :
    sameSpecified (s.openWindow buf) (t.openWindow buf) := by
  obtain ⟨x, w, fr, rfl, hfr⟩ := h.exists_eq
  exact sameSpecified_withUnspecified (s := s.openWindow buf) hfr

/-- A frame that is loaded is the same from then on. -/
theorem sameSpecified.loadFrame (h : sameSpecified s t) (f : Frame) :
    sameSpecified ((s.setFr f).setFrv true) ((t.setFr f).setFrv true) := by
  obtain ⟨x, w, fr, rfl, hfr⟩ := h.exists_eq
  exact sameSpecified_withUnspecified (s := (s.setFr f).setFrv true) fun _ => rfl

theorem sameSpecified.clearFrv (h : sameSpecified s t) :
    sameSpecified (s.setFrv false) (t.setFrv false) := by
  obtain ⟨x, w, fr, rfl, hfr⟩ := h.exists_eq
  exact sameSpecified_withUnspecified (s := s.setFrv false) nofun

theorem sameSpecified.takeError (h : sameSpecified s t) (u : Under) (e : ErrInfo) :
    sameSpecified (takeError u e s) (takeError u e t) := by
  cases u with
  | standAlone => exact h.emit _
  | session =>
    unfold Machine.takeError
    dsimp only
    split
    · exact ((h.setPhase _).noteErr _).emit _
    · exact (h.noteErr _).emit _

theorem sameSpecified.extractFrame (h : sameSpecified s t) (hd : Header) (p : List Byte) :
    sameSpecified (extractFrame hd p s) (extractFrame hd p t) := by
  have hrx : s.mem.rx = t.mem.rx := by obtain ⟨x, w, fr, rfl, -⟩ := h.exists_eq; rfl
  have hdrop : sameSpecified (s.dropRx (24 + hd.length.toNat)) (t.dropRx (24 + hd.length.toNat)) := by
    unfold State.dropRx
    rw [hrx]
    exact h.setRx _
  unfold Machine.extractFrame
  dsimp only
  split
  · exact hdrop.takeError _ _
  · exact (hdrop.loadFrame _).emit _

theorem sameSpecified.handshakeStep (h : sameSpecified s t) {f : Flags}
    (hf : f.frv = true → s.flags.frv = true) (rs : List Record) (c : HandshakeCmd) :
    sameSpecified (handshakeStep f rs c s) (handshakeStep f rs c t) := by
  obtain ⟨x, w, fr, rfl, hfr⟩ := h.exists_eq
  rw [handshakeStep_eq, handshakeStep_eq]
  exact sameSpecified_withUnspecified (hfr ∘ hf)

theorem sameSpecified.finishVersion (h : sameSpecified s t) :
    sameSpecified (finishVersion s) (finishVersion t) := by
  have hflags : s.flags = t.flags := by obtain ⟨x, w, fr, rfl, -⟩ := h.exists_eq; rfl
  unfold Machine.finishVersion
  rw [← hflags]
  refine h.handshakeStep ?_ _ _
  exact id

end

/-! ### Operations on such states -/

/-- What the first run answers, the second answers too, up to what is unspecified. -/
def SameAnswer (a b : Host.Outcome State Fault Refusal) : Prop :=
  ∀ s, a = .next s → ∃ t, b = .next t ∧ sameSpecified s t

theorem SameAnswer.next {s t : State} (h : sameSpecified s t) : SameAnswer (.next s) (.next t) := by
  rintro _ ⟨⟩
  exact ⟨t, rfl, h⟩

theorem SameAnswer.fault (f : Fault) (b : Host.Outcome State Fault Refusal) :
    SameAnswer (.fault f) b := by
  rintro _ ⟨⟩

/-- Both runs take the same branch. -/
theorem SameAnswer.ite {c : Prop} [Decidable c] {a a' b b' : Host.Outcome State Fault Refusal}
    (h : SameAnswer a b) (h' : SameAnswer a' b') :
    SameAnswer (if c then a else a') (if c then b else b') := by
  split
  · exact h
  · exact h'

theorem finishDecode_sameAnswer {α : Type} {R : Regs → Regs → Prop} {d d' : Decoded α}
    {s t : State} (u : Under) (rec : α → Record) (h : d.Same R d') (hst : sameSpecified s t) :
    SameAnswer (finishDecode u rec d s) (finishDecode u rec d' t) := by
  cases h with
  | ok a h => exact .next ((hst.setX _ _).emit _)
  | raise e h => exact .next ((hst.setX _ _).takeError u e)
  | outside f => exact .fault f _

section
variable {s t : State} {n : Word32} {c p : List Byte}

theorem execConnect_sameAnswer (h : sameSpecified s t) :
    SameAnswer (execConnect s) (execConnect t) := by
  obtain ⟨-, hphase, -⟩ := id h
  simp only [execConnect, ← hphase]
  exact .ite (.next (((h.setPhase _).emit _).emit _)) (.next (h.emit _))

theorem execFeed_sameAnswer (h : sameSpecified s t) (b : List Byte) :
    SameAnswer (execFeed b s) (execFeed b t) := by
  obtain ⟨hcfg, hphase, -, -, -, -, hrx, -⟩ := id h
  simp only [execFeed, State.appendRx, State.rxlen_eq, ← hcfg, ← hphase, ← hrx]
  cases phaseRefusal s.phase with
  | some r => exact .next (h.emit _)
  | none => exact .next ((h.setRx _).emit _)

theorem execExtract_sameAnswer (h : sameSpecified s t) :
    SameAnswer (execExtract s) (execExtract t) := by
  obtain ⟨hcfg, hphase, hflags, -, -, -, hrx, -⟩ := id h
  simp only [execExtract, State.rxlen_eq, ← hcfg, ← hphase, ← hflags, ← hrx]
  cases phaseRefusal s.phase with
  | some r => exact .next (h.emit _)
  | none =>
    refine .ite (.next (h.emit _)) (.ite (.next (h.emit _)) ?_)
    cases parseHeader s.mem.rx with
    | none => exact .fault _ _
    | some hd =>
      refine .ite (.next (h.takeError _ _)) (.ite (.next (h.takeError _ _))
        (.ite (.next (h.emit _)) ?_))
      cases memRead s.mem.rx 24 hd.length.toNat with
      | none => exact .fault _ _
      | some p => exact .next (h.extractFrame hd p)

theorem execMsgVersion_sameAnswer (h : sameSpecified s t) :
    SameAnswer (execMsgVersion n c p s) (execMsgVersion n c p t) := by
  obtain ⟨-, hphase, -⟩ := id h
  simp only [execMsgVersion, ← hphase]
  refine .ite (.next (h.emit _)) (.ite ?_ (.next h.finishVersion))
  cases readPeer p with
  | none => exact .fault _ _
  | some q => exact .next (h.setPeer q.1 q.2).finishVersion

theorem execMsgVerack_sameAnswer (h : sameSpecified s t) :
    SameAnswer (execMsgVerack n c p s) (execMsgVerack n c p t) := by
  obtain ⟨-, hphase, hflags, -⟩ := id h
  simp only [execMsgVerack, ← hphase, ← hflags]
  refine .ite (.next (h.emit _)) (.next (h.handshakeStep ?_ _ _))
  exact id

theorem execMsgBlock_sameAnswer (h : sameSpecified s t) :
    SameAnswer (execMsgBlock n c p s) (execMsgBlock n c p t) := by
  obtain ⟨-, hphase, -⟩ := id h
  simp only [execMsgBlock, ← hphase]
  exact .ite (finishDecode_sameAnswer _ _ (blockDecode_same p (openWindow_sameCursor s t p))
    (h.openWindow p)) (.next (h.emit _))

theorem execMsgTx_sameAnswer (h : sameSpecified s t) :
    SameAnswer (execMsgTx n c p s) (execMsgTx n c p t) := by
  obtain ⟨-, hphase, -⟩ := id h
  simp only [execMsgTx, ← hphase]
  exact .ite (finishDecode_sameAnswer _ _ (txDecode_same p (openWindow_sameCursor s t p))
    (h.openWindow p)) (.next (h.emit _))

theorem execMsgUnknown_sameAnswer (h : sameSpecified s t) {cmd : List Byte} :
    SameAnswer (execMsgUnknown cmd n c p s) (execMsgUnknown cmd n c p t) :=
  .next ((h.noteErr _).emit _)

theorem routeFrame_sameAnswer (h : sameSpecified s t) (f : Frame) :
    SameAnswer (routeFrame f s) (routeFrame f t) := by
  unfold routeFrame
  split
  · exact execMsgVersion_sameAnswer h
  · exact execMsgVerack_sameAnswer h
  · exact execMsgBlock_sameAnswer h
  · exact execMsgTx_sameAnswer h
  · exact execMsgUnknown_sameAnswer h

/-- ROUTE reads `FR` only with `FRV` set, when it is specified (R32). -/
theorem execRoute_sameAnswer (h : sameSpecified s t) : SameAnswer (execRoute s) (execRoute t) := by
  obtain ⟨-, hphase, hflags, -, -, -, -, -, -, hfr⟩ := id h
  simp only [execRoute, ← hphase, ← hflags]
  cases phaseRefusal s.phase with
  | some r => exact .next (h.emit _)
  | none =>
    cases hfrv : s.flags.frv with
    | false => exact .next (h.emit _)
    | true => exact hfr hfrv ▸ routeFrame_sameAnswer h.clearFrv s.mem.fr

theorem execClose_sameAnswer (h : sameSpecified s t) : SameAnswer (execClose s) (execClose t) := by
  obtain ⟨-, hphase, -⟩ := id h
  simp only [execClose, ← hphase]
  exact .next ((((h.setPhase _).setRx _).clearFrv).emit _)

theorem execVarint_sameAnswer (h : sameSpecified s t) (buf : List Byte) (o : Nat) :
    SameAnswer (execVarint buf o s) (execVarint buf o t) := by
  obtain ⟨hcfg, -⟩ := id h
  simp only [execVarint, ← hcfg, finishDecode_loadWindow]
  exact .ite (finishDecode_sameAnswer (R := fun _ _ => True) _ _
    (varIntDecode_same buf o rfl trivial fun _ => trivial) (h.openWindow buf)) (.next (h.emit _))

theorem execTxdec_sameAnswer (h : sameSpecified s t) (buf : List Byte) :
    SameAnswer (execTxdec buf s) (execTxdec buf t) := by
  obtain ⟨hcfg, -⟩ := id h
  simp only [execTxdec, ← hcfg]
  exact .ite (finishDecode_sameAnswer _ _ (txDecode_same buf (openWindow_sameCursor s t buf))
    (h.openWindow buf)) (.next (h.emit _))

theorem execBlkdec_sameAnswer (h : sameSpecified s t) (buf : List Byte) :
    SameAnswer (execBlkdec buf s) (execBlkdec buf t) := by
  obtain ⟨hcfg, -⟩ := id h
  simp only [execBlkdec, ← hcfg]
  exact .ite (finishDecode_sameAnswer _ _ (blockDecode_same buf (openWindow_sameCursor s t buf))
    (h.openWindow buf)) (.next (h.emit _))

theorem exec_sameAnswer (h : sameSpecified s t) (i : Instr) : SameAnswer (exec i s) (exec i t) := by
  cases i with
  | vi1 | vi3 | vi5 | vi9 => exact .next (h.setX _ _)
  | msgVersion n c p => exact execMsgVersion_sameAnswer (c := c) h
  | msgVerack n c p => exact execMsgVerack_sameAnswer (n := n) (c := c) (p := p) h
  | msgBlock n c p => exact execMsgBlock_sameAnswer (n := n) (c := c) h
  | msgTx n c p => exact execMsgTx_sameAnswer (n := n) (c := c) h
  | msgUnknown cmd n c p => exact execMsgUnknown_sameAnswer (cmd := cmd) (n := n) (c := c) (p := p) h
  | connect => exact execConnect_sameAnswer h
  | feed b => exact execFeed_sameAnswer h b
  | extract => exact execExtract_sameAnswer h
  | route => exact execRoute_sameAnswer h
  | close => exact execClose_sameAnswer h
  | varint buf o => exact execVarint_sameAnswer h buf o
  | txdec buf => exact execTxdec_sameAnswer h buf
  | blkdec buf => exact execBlkdec_sameAnswer h buf
  | illegal0 | illegal6 | illegal7 | illegalB | illegalC | illegalD | illegalE | illegalF =>
    exact .next (h.emit _)

end

/-- Settles O56: both states take the same event, and an operation answers alike on both. -/
theorem unspecifiedStateIsNeverRead : Obligations.UnspecifiedStateIsNeverRead := by
  intro s t s' h hs
  obtain ⟨hcfg, -, -, -, -, -, -, -, hcmd, -⟩ := id h
  have hstep := stepPerformsTheDecodedOperation t
  rcases step_cases hs with ⟨hc, rfl⟩ | ⟨rest, hc, rfl⟩ | ⟨w, rest, i, hc, hw, hi⟩
  · exact ⟨t, (hstep ⟨0, .nothing⟩ [] .illegal0).2.1 (hcmd ▸ hc), h⟩
  · refine ⟨_, (hstep ⟨0, .nothing⟩ rest .illegal0).2.2 (hcmd ▸ hc), ?_⟩
    rw [hcfg]
    exact .refl _
  · rw [(hstep w rest i).1 (hcmd ▸ hc) hw]
    exact exec_sameAnswer (h.setCmd rest) i s' hi

end Sys2Proof.Machine
end

section
/-! No operation reads outside a byte space (`spec/20_memory.md` R65, R72, R73): the tests an operation
makes before a read put the read inside, so a stand-alone decode answers in every state, and any
operation answers where the frame in `FR` has the payload it declares (R32). -/

namespace Sys2Proof.Machine

open Sys2Proof.Laws

/-! ### Stand-alone decodes (R73) -/

/-- A stand-alone decode that stays in its window writes the registers and emits one record, whether
it ends with a value or with an error (R231). -/
theorem finishDecode_standAlone {α : Type} {d : Decoded α} {n : Nat} (rec : α → Record)
    (hd : d.Ends n) (s : State) :
    ∃ x r, finishDecode .standAlone rec d s = .next ((s.setX x).emit r) := by
  cases d with
  | ok a x => exact ⟨x, rec a, rfl⟩
  | raise e x => exact ⟨x, .err e, rfl⟩
  | outside f => exact hd.elim

/-- An operand that fits is loaded and decoded, one record reporting how that ended. -/
theorem exec_standAlone_of_fits {s : State} {buf : List Byte} {i : Instr} (hi : StandAlone buf i)
    (hcap : withinCap s.cfg.wcap buf.length) :
    ∃ x r, exec i s = .next (((s.openWindow buf).setX x).emit r) := by
  have hfits := (fits_iff _ _).mpr hcap
  rcases hi with ⟨o, rfl⟩ | rfl | rfl
  · simp only [exec, execVarint, hfits, if_true, finishDecode_loadWindow]
    exact finishDecode_standAlone _ (varIntDecode_ends o rfl) _
  · simp only [exec, execTxdec, hfits, if_true]
    exact finishDecode_standAlone _ (txDecode_ends (openWindow_ready s buf)) _
  · simp only [exec, execBlkdec, hfits, if_true]
    exact finishDecode_standAlone _ (blockDecode_ends (openWindow_ready s buf)) _

/-- An operand that is too long is not loaded (R222). -/
theorem exec_standAlone_of_not_fits {s : State} {buf : List Byte} {i : Instr}
    (hi : StandAlone buf i) (hcap : ¬ withinCap s.cfg.wcap buf.length) :
    exec i s = .next (s.emit (.refused .tooLong)) := by
  have hfits : ¬ fits s.cfg.wcap buf.length = true := fun h => hcap ((fits_iff _ _).mp h)
  rcases hi with ⟨o, rfl⟩ | rfl | rfl
  · exact if_neg hfits
  · exact if_neg hfits
  · exact if_neg hfits

/-- In every state, `FR` of whatever size, a stand-alone decode answers. -/
theorem exec_standAlone_answersNext {s : State} {buf : List Byte} {i : Instr}
    (hi : StandAlone buf i) : answersNext (exec i s) = true := by
  by_cases hcap : withinCap s.cfg.wcap buf.length
  · obtain ⟨x, r, hexec⟩ := exec_standAlone_of_fits hi hcap
    rw [hexec]; rfl
  · rw [exec_standAlone_of_not_fits hi hcap]; rfl

/-- Settles O23: the two ways a stand-alone decode is answered, by whether its operand fits. -/
theorem decodesTouchOnlyTheirWindow : Obligations.DecodesTouchOnlyTheirWindow := by
  intro s buf o i hi
  have hi : StandAlone buf i := hi.imp_left fun h => ⟨o, h⟩
  by_cases hcap : withinCap s.cfg.wcap buf.length
  · obtain ⟨x, r, hexec⟩ := exec_standAlone_of_fits hi hcap
    exact ⟨x, buf, r, _, hexec, rfl, fun _ _ => rfl, fun _ => rfl, fun _ => rfl⟩
  · exact ⟨s.x, s.mem.w, _, _, exec_standAlone_of_not_fits hi hcap, rfl, fun h => absurd h hcap,
      fun _ => rfl, fun _ => rfl⟩

/-! ### Frames (R192 to R199) -/

/-- A decode that stays in its window answers, under whatever operation. -/
theorem finishDecode_answersNext {α : Type} {d : Decoded α} {n : Nat} (u : Under)
    (rec : α → Record) (hd : d.Ends n) (s : State) :
    answersNext (finishDecode u rec d s) = true := by
  cases d with
  | ok | raise => rfl
  | outside f => exact hd.elim

theorem readPeer_eq_some {p : List Byte} (h : 12 ≤ p.length) : ∃ q, readPeer p = some q := by
  simp only [readPeer, memRead_eq_some (show 0 + 4 ≤ p.length by omega),
    memRead_eq_some (show 4 + 8 ≤ p.length by omega)]
  exact ⟨_, rfl⟩

theorem frameSized_payload {n : Word32} {c p : List Byte} (h : frameSized n c p = true) :
    p.length = n.toNat := by
  simp only [frameSized, Bool.and_eq_true, beq_iff_eq] at h
  exact h.2

section
variable {n : Word32} {c p : List Byte} (s : State)

/-- The declared length is what is tested before the peer fields are read (R192), so it has to be the
payload's. -/
theorem execMsgVersion_answersNext (hp : p.length = n.toNat) :
    answersNext (execMsgVersion n c p s) = true := by
  unfold execMsgVersion
  split
  · rfl
  split
  next hlen =>
    obtain ⟨q, hq⟩ := readPeer_eq_some (hp ▸ hlen)
    simp only [hq]; rfl
  · rfl

theorem execMsgVerack_answersNext : answersNext (execMsgVerack n c p s) = true := by
  unfold execMsgVerack
  split <;> rfl

theorem execMsgBlock_answersNext : answersNext (execMsgBlock n c p s) = true := by
  unfold execMsgBlock
  split
  · exact finishDecode_answersNext _ _ (blockDecode_ends (openWindow_ready s p)) _
  · rfl

theorem execMsgTx_answersNext : answersNext (execMsgTx n c p s) = true := by
  unfold execMsgTx
  split
  · exact finishDecode_answersNext _ _ (txDecode_ends (openWindow_ready s p)) _
  · rfl

/-- Every command's handling answers on a frame with the payload it declares. -/
theorem routeFrame_answersNext {f : Frame} (hf : f.payload.length = f.length.toNat) :
    answersNext (routeFrame f s) = true := by
  unfold routeFrame
  split
  · exact execMsgVersion_answersNext s hf
  · exact execMsgVerack_answersNext s
  · exact execMsgBlock_answersNext s
  · exact execMsgTx_answersNext s
  · rfl

end

/-! ### Operations and steps (R65, R277) -/

/-- The header is read once 24 bytes are there and the payload once all it declares are (R161). -/
theorem execExtract_answersNext (s : State) : answersNext (execExtract s) = true := by
  unfold execExtract
  split
  · rfl
  split
  · rfl
  split
  · rfl
  next hlen =>
    obtain ⟨hd, hhd, -⟩ := parseHeader_some (not_lt.mp hlen)
    simp only [hhd]
    split
    · rfl
    split
    · rfl
    split
    · rfl
    next hpay => simp only [memRead_eq_some (not_lt.mp hpay)]; rfl

/-- ROUTE reads inside `FR` when its payload is of the length it declares (R32). -/
theorem execRoute_answersNext {s : State}
    (hfr : s.mem.fr.payload.length = s.mem.fr.length.toNat) :
    answersNext (execRoute s) = true := by
  unfold execRoute
  split
  · rfl
  split
  · exact routeFrame_answersNext _ hfr
  · rfl

/-- Every well-formed instruction answers, where the frame in `FR` has the payload it declares. -/
theorem exec_answersNext {s : State} {i : Instr}
    (hfr : s.mem.fr.payload.length = s.mem.fr.length.toNat) (hi : i.wellFormed = true) :
    answersNext (exec i s) = true := by
  cases i with
  | vi1 | vi3 | vi5 | vi9 => rfl
  | msgVersion n c p => exact execMsgVersion_answersNext (c := c) s (frameSized_payload hi)
  | msgVerack n c p => exact execMsgVerack_answersNext (n := n) (c := c) (p := p) s
  | msgBlock n c p => exact execMsgBlock_answersNext (n := n) (c := c) s
  | msgTx n c p => exact execMsgTx_answersNext (n := n) (c := c) s
  | msgUnknown => rfl
  | connect => simp only [exec, execConnect]; split <;> rfl
  | feed b => simp only [exec, execFeed]; split <;> rfl
  | extract => exact execExtract_answersNext s
  | route => exact execRoute_answersNext hfr
  | close => rfl
  | varint buf o => exact exec_standAlone_answersNext (.inl ⟨o, rfl⟩)
  | txdec buf => exact exec_standAlone_answersNext (.inr (.inl rfl))
  | blkdec buf => exact exec_standAlone_answersNext (.inr (.inr rfl))
  | illegal0 | illegal6 | illegal7 | illegalB | illegalC | illegalD | illegalE | illegalF => rfl

/-- The command port carries only well-formed instructions: no operand of an operation is sized. -/
theorem wellFormed_of_decodeOp {w : CmdWord} {i : Instr} (h : decodeOp w = .ok i) :
    i.wellFormed = true := by
  rcases decodeOp_cases h with
    rfl | ⟨b, rfl⟩ | rfl | rfl | rfl | ⟨b, o, rfl⟩ | ⟨b, rfl⟩ | ⟨b, rfl⟩ | hi
  on_goal 9 =>
    simp only [List.mem_cons, List.not_mem_nil, or_false] at hi
    rcases hi with rfl | rfl | rfl | rfl | rfl | rfl | rfl | rfl
  all_goals rfl

/-- What the host can put names an operation (R41). -/
theorem HostEvent.wellFormed_cmd_iff {w : CmdWord} :
    (HostEvent.cmd w).wellFormed = true ↔ ∃ i, decodeOp w = .ok i := by
  change (decodeOp w).toOption.isSome = true ↔ _
  cases decodeOp w with
  | ok i => exact iff_of_true rfl ⟨i, rfl⟩
  | error e => exact iff_of_false nofun nofun

/-- Settles O55: of the invariants only the sizes of `FR` are needed, since every other read is
guarded by the operation itself. -/
theorem noStepFaultsOrStops : Obligations.NoStepFaultsOrStops := by
  intro s hs hev
  rcases fetch_cases s with ⟨-, hf⟩ | ⟨rest, -, hf⟩ | ⟨w, rest, hc, hf⟩
  · simp only [step, hf]; rfl
  · simp only [step, hf]; rfl
  · obtain ⟨i, hw⟩ := HostEvent.wellFormed_cmd_iff.mp (hev _ rest hc)
    have hfr := ((memory_wf_iff _ _).mp ((inv_iff s).mp hs).1.mem).2
    simp only [Frame.sized, Bool.and_eq_true] at hfr
    simp only [step, hf, hw]
    exact exec_answersNext (frameSized_payload hfr.2) (wellFormed_of_decodeOp hw)

end Sys2Proof.Machine
end

section
/-! The encoders of `spec/30_encoding.md` against the decoders: the three formats VI, MH and OP, each in
both directions, and the command fields that select a frame's handling. -/

namespace Sys2Proof

open Sys2Proof.Machine

/-! ### Format VI (R91, R92) -/

/-- A first byte with the body it asks for is decoded, and nothing behind the body is read (R92). -/
theorem decodeVi_cons_append {p : Byte} {body : List Byte} (h : body.length = viBodyLen p)
    (t : List Byte) : decodeVi (p :: body ++ t) = .ok (viForm p body, t) := by
  simp [decodeVi, ← h]

theorem decodeVi_encodeVi_append {f : ViForm} (hf : f.wellFormed = true) (t : List Byte) :
    decodeVi (encodeVi f ++ t) = .ok (f, t) := by
  obtain ⟨p, body, hbytes, hbody, hform, -⟩ := encodeVi_split f hf
  rw [hbytes, decodeVi_cons_append hbody, hform]

/-- What is decoded stands at the head of the bytes. -/
theorem decodeVi_eq_ok {s r : List Byte} {f : ViForm} (h : decodeVi s = .ok (f, r)) :
    f.wellFormed = true ∧ s = encodeVi f ++ r := by
  rcases form_or_cut s with ⟨g, t, hg, rfl⟩ | hcut
  · rw [decodeVi_encodeVi_append hg] at h
    cases h
    exact ⟨hg, rfl⟩
  · cases s with
    | nil => cases h
    | cons p rest => simp [decodeVi, hcut p rest rfl] at h

/-- The row of a first byte that selects a body (R91): the value is the body's, whatever its size. -/
theorem viValue_viForm {p : Byte} {body : List Byte}
    (h : (p = 0xFD ∧ body.length = 2) ∨ (p = 0xFE ∧ body.length = 4) ∨
      (p = 0xFF ∧ body.length = 8)) :
    body.length = viBodyLen p ∧ (viValue (viForm p body)).value.toNat = leNat body ∧
      (viValue (viForm p body)).width = 1 + body.length := by
  have hlt := leNat_lt body
  rcases h with ⟨rfl, hl⟩ | ⟨rfl, hl⟩ | ⟨rfl, hl⟩
  all_goals
    rw [hl] at hlt
    refine ⟨hl, ?_, by rw [hl]; rfl⟩
    simp [viForm, viValue]
    omega

/-- Settles O6: the row of the one-byte form, and the three rows with a body. -/
theorem varIntFormsFollowTheTable : Obligations.VarIntFormsFollowTheTable := by
  intro p body t
  refine ⟨fun hp => ?_, fun hrow => ?_⟩
  · refine ⟨viForm p [], decodeVi_cons_append (body := []) (viBodyLen_vi1 hp).symm t, ?_⟩
    rw [viForm, if_pos hp]
    exact ⟨BitVec.toNat_setWidth_of_le (by decide), rfl⟩
  · obtain ⟨hlen, hvalue⟩ := viValue_viForm hrow
    exact ⟨viForm p body, decodeVi_cons_append hlen t, hvalue⟩

@[simp] theorem encode_toInstr (magic : List Byte) (f : ViForm) :
    encode magic f.toInstr = .vi (encodeVi f) := by cases f <;> rfl

@[simp] theorem toInstr_wellFormed (f : ViForm) : f.toInstr.wellFormed = f.wellFormed := by
  cases f <;> rfl

/-! ### Command fields (R96, R97) -/

/-- The zero bytes a name is padded with are trailing zero bytes. -/
theorem commandName_append_zeros (name : List Byte) (n : Nat) :
    commandName (name ++ List.replicate n 0) = commandName name := by
  simp [commandName]

/-- What trimming takes off a 12-byte field, padding puts back. -/
theorem pad12_commandName {c : List Byte} (hc : c.length = 12) : pad12 (commandName c) = c := by
  have hsplit : commandName c ++ c.rtakeWhile (· == 0) = c := by
    rw [commandName, List.rtakeWhile, ← List.reverse_append, List.takeWhile_append_dropWhile,
      List.reverse_reverse]
  have hzeros : c.rtakeWhile (· == 0) = List.replicate (12 - (commandName c).length) 0 := by
    have hlen := congrArg List.length hsplit
    rw [List.length_append] at hlen
    refine List.eq_replicate_iff.mpr ⟨by omega, fun b hb => ?_⟩
    simpa using List.mem_rtakeWhile_imp hb
  rw [pad12, ← hzeros, hsplit]

/-- Whole comparison is trimmed comparison, for a name that does not end in a zero byte. -/
theorem eq_pad12_iff {c name : List Byte} (hc : c.length = 12) (hname : commandName name = name) :
    c = pad12 name ↔ commandName c = name := by
  refine ⟨?_, ?_⟩
  · rintro rfl
    rw [pad12, commandName_append_zeros, hname]
  · rintro rfl
    exact (pad12_commandName hc).symm

/-- The name that selects a handling (R97); the fifth handling is that of every other name. -/
def MsgKind.name? : MsgKind → Option (List Byte)
  | .version => some nameVersion
  | .verack => some nameVerack
  | .block => some nameBlock
  | .tx => some nameTx
  | .unknown => none

theorem selectCommand_pad12 {k : MsgKind} {name : List Byte} (hk : k.name? = some name) :
    selectCommand (pad12 name) = k := by
  cases k with
  | unknown => cases hk
  | version | verack | block | tx => cases hk; decide

/-- A handling of a known command is selected by its padded name alone. -/
theorem eq_pad12_of_selectCommand {c name : List Byte}
    (hk : (selectCommand c).name? = some name) : c = pad12 name := by
  unfold selectCommand at hk
  split_ifs at hk with h h h h <;> cases hk
  all_goals exact h

theorem selectCommand_eq_iff {c name : List Byte} {k : MsgKind} (hk : k.name? = some name) :
    selectCommand c = k ↔ c = pad12 name :=
  ⟨fun h => eq_pad12_of_selectCommand (h ▸ hk), fun h => h ▸ selectCommand_pad12 hk⟩

/-- Settles O5: a field is the padded name exactly when its trimmed name is the name; a field of the
fifth handling is none of the four. -/
theorem commandFieldSelectsByTrimmedName : Obligations.CommandFieldSelectsByTrimmedName := by
  intro c hc
  have hversion := (selectCommand_eq_iff (k := .version) rfl).trans (eq_pad12_iff hc rfl)
  have hverack := (selectCommand_eq_iff (k := .verack) rfl).trans (eq_pad12_iff hc rfl)
  have hblock := (selectCommand_eq_iff (k := .block) rfl).trans (eq_pad12_iff hc rfl)
  have htx := (selectCommand_eq_iff (k := .tx) rfl).trans (eq_pad12_iff hc rfl)
  refine ⟨hversion, hverack, hblock, htx, ?_⟩
  simp only [List.mem_cons, List.not_mem_nil, or_false, ← hversion, ← hverack, ← hblock, ← htx]
  cases selectCommand c <;> decide

/-! ### Format MH (R95, R98) -/

/-- The instruction of a frame carries all of the frame: its row fixes the command it leaves out. -/
@[simp] theorem encode_frameInstr (magic : List Byte) (f : Frame) :
    encode magic (frameInstr f) = .mh (encodeFrame magic f) := by
  obtain ⟨c, n, k, p⟩ := f
  have hname := @eq_pad12_of_selectCommand c
  unfold frameInstr
  cases hsel : selectCommand c with
  | unknown => rfl
  | version | verack | block | tx =>
    rw [hsel] at hname
    rw [hname rfl]
    rfl

theorem frameInstr_wellFormed {f : Frame} (hf : f.sized = true) :
    (frameInstr f).wellFormed = true := by
  simp only [Frame.sized, Bool.and_eq_true, beq_iff_eq] at hf
  obtain ⟨hcommand, hsized⟩ := hf
  unfold frameInstr
  cases hsel : selectCommand f.command with
  | version | verack | block | tx => exact hsized
  | unknown => simp [Instr.wellFormed, hcommand, hsized, hsel]

/-- The declared length ends the frame, and nothing behind it is read (R98, R115). -/
theorem decodeMh_encodeFrame_append {magic : List Byte} {f : Frame} (hm : magic.length = 4)
    (hf : f.sized = true) (t : List Byte) :
    decodeMh magic (encodeFrame magic f ++ t) = .ok (frameInstr f, t) := by
  have hlen := encodeFrame_length magic f hm hf
  have hpayload := memRead_frame_payload magic f t hm hf
  simp only [Frame.sized, frameSized, Bool.and_eq_true, beq_iff_eq] at hf
  obtain ⟨hcommand, hchecksum, -⟩ := hf
  simp only [decodeMh, parseHeader_frame magic f t hm hcommand hchecksum, hpayload, ne_eq,
    not_true_eq_false, if_false, ← hlen, List.drop_left]

/-- What is decoded is a frame at the head of the bytes, as EXTRACT finds one at the head of `RX`. -/
theorem decodeMh_eq_ok {magic s r : List Byte} {i : Instr} (h : decodeMh magic s = .ok (i, r)) :
    ∃ f : Frame, f.sized = true ∧ i = frameInstr f ∧ s = encodeFrame magic f ++ r := by
  unfold decodeMh at h
  split at h
  · cases h
  next hd hhd =>
  split at h
  · cases h
  next hmagic =>
  split at h
  · cases h
  next payload hpayload =>
  cases h
  have hlen : 24 ≤ s.length := not_lt.mp fun hshort => by simp [parseHeader_none hshort] at hhd
  have hhead := frameAtHead_of_parseHeader
    (s := (State.resetWith { Config.standard with magic := magic }).setRx s)
    hlen hhd (not_not.mp hmagic) hpayload
  exact ⟨_, hhead.sized, rfl, hhead.rx⟩

/-! ### Format OP (R111, R113) -/

/-- The codes of R113. -/
def illegalCodes : List (BitVec 4) := [0x0, 0x6, 0x7, 0xB, 0xC, 0xD, 0xE, 0xF]

theorem opcode_eq {op : BitVec 4} {n : Nat} (h : op.toNat = n) : op = BitVec.ofNat 4 n := by
  simp [← h]

/-- A decoded operation word is the instruction's encoding, but that an illegal code may stand beside
any operand (log 11). -/
theorem encode_of_decodeOp {w : CmdWord} {i : Instr} (h : decodeOp w = .ok i) (magic : List Byte) :
    encode magic i = .op w ∨ (encode magic i = .op ⟨w.op, .nothing⟩ ∧ w.op ∈ illegalCodes) := by
  obtain ⟨op, o⟩ := w
  unfold decodeOp at h
  split at h
  case h_17 => cases h
  case h_1 hop ho | h_2 hop ho | h_3 hop ho | h_4 hop ho | h_5 hop ho | h_6 hop ho | h_7 hop ho
      | h_8 hop ho =>
    obtain rfl := opcode_eq hop
    obtain rfl := ho
    cases h
    exact .inl rfl
  case h_9 _ hop | h_10 _ hop | h_11 _ hop | h_12 _ hop | h_13 _ hop | h_14 _ hop | h_15 _ hop
      | h_16 _ hop =>
    obtain rfl := opcode_eq hop
    cases h
    exact .inr ⟨rfl, by simp [illegalCodes]⟩

/-- Settles O36: each code decodes by itself, and each of the eight meanings is the refusal. -/
theorem illegalCodesAreRefused : Obligations.IllegalCodesAreRefused := by
  intro p hp
  simp only [List.mem_cons, List.not_mem_nil, or_false] at hp
  rcases hp with rfl | rfl | rfl | rfl | rfl | rfl | rfl | rfl
  all_goals exact ⟨fun _ => rfl, fun s => Laws.refuse_eq .illegalOp s⟩

/-! ### Any format -/

theorem decode_vi_eq_ok_iff {magic s r : List Byte} {i : Instr} :
    decode magic (.vi s) = .ok (i, r) ↔ ∃ f, decodeVi s = .ok (f, r) ∧ f.toInstr = i := by
  rw [decode]
  cases decodeVi s with
  | error e => simp [Except.map]
  | ok p => simp [Except.map, Prod.ext_iff, and_comm]

theorem decode_op_eq_ok_iff {magic r : List Byte} {w : CmdWord} {i : Instr} :
    decode magic (.op w) = .ok (i, r) ↔ decodeOp w = .ok i ∧ r = [] := by
  rw [decode]
  cases decodeOp w with
  | error e => simp [Except.map]
  | ok j => simp [Except.map, eq_comm]

theorem decode_vi_append {f : ViForm} (hf : f.wellFormed = true) (magic t : List Byte) :
    decode magic (.vi (encodeVi f ++ t)) = .ok (f.toInstr, t) :=
  decode_vi_eq_ok_iff.mpr ⟨f, decodeVi_encodeVi_append hf t, rfl⟩

theorem decode_mh_append {magic : List Byte} {f : Frame} (hm : magic.length = 4)
    (hf : f.sized = true) (t : List Byte) :
    decode magic (.mh (encodeFrame magic f ++ t)) = .ok (frameInstr f, t) :=
  decodeMh_encodeFrame_append hm hf t

/-- A well-formed instruction is a VarInt form, a sized frame, or what an operation word of its own
decodes to. -/
theorem Instr.format_cases {i : Instr} (hi : i.wellFormed = true) :
    (∃ f : ViForm, f.wellFormed = true ∧ i = f.toInstr) ∨
    (∃ f : Frame, f.sized = true ∧ i = frameInstr f) ∨
    ∃ w, (∀ magic, encode magic i = .op w) ∧ decodeOp w = .ok i := by
  cases i with
  | vi1 p => exact .inl ⟨.vi1 p, hi, rfl⟩
  | vi3 b => exact .inl ⟨.vi3 b, hi, rfl⟩
  | vi5 b => exact .inl ⟨.vi5 b, hi, rfl⟩
  | vi9 b => exact .inl ⟨.vi9 b, hi, rfl⟩
  | msgVersion n c p => exact .inr (.inl ⟨⟨pad12 nameVersion, n, c, p⟩, hi, rfl⟩)
  | msgVerack n c p => exact .inr (.inl ⟨⟨pad12 nameVerack, n, c, p⟩, hi, rfl⟩)
  | msgBlock n c p => exact .inr (.inl ⟨⟨pad12 nameBlock, n, c, p⟩, hi, rfl⟩)
  | msgTx n c p => exact .inr (.inl ⟨⟨pad12 nameTx, n, c, p⟩, hi, rfl⟩)
  | msgUnknown cmd n c p =>
    obtain ⟨hsized, hsel⟩ : Frame.sized ⟨cmd, n, c, p⟩ = true ∧ selectCommand cmd = .unknown := by
      simpa [Instr.wellFormed, Frame.sized] using hi
    exact .inr (.inl ⟨⟨cmd, n, c, p⟩, hsized, by simp only [frameInstr, hsel]⟩)
  | _ => exact .inr (.inr ⟨_, fun _ => rfl, rfl⟩)

/-- Settles O1: in each format the decoder finds the instruction in its own encoding. -/
theorem decodeInvertsEncode : Obligations.DecodeInvertsEncode := by
  intro magic i hm hi
  rcases Instr.format_cases hi with ⟨f, hf, rfl⟩ | ⟨f, hf, rfl⟩ | ⟨w, henc, hdec⟩
  · simpa using decode_vi_append hf magic []
  · simpa using decode_mh_append hm hf []
  · rw [henc]
    exact decode_op_eq_ok_iff.mpr ⟨hdec, rfl⟩

/-- Settles O2: an instruction of the command port has no encoding in a stream. -/
theorem streamDecodingStopsAtTheEnd : Obligations.StreamDecodingStopsAtTheEnd := by
  intro magic t b i hm hi
  rcases Instr.format_cases hi with ⟨f, hf, rfl⟩ | ⟨f, hf, rfl⟩ | ⟨w, henc, -⟩
  · rw [encode_toInstr]
    refine ⟨?_, nofun⟩
    rintro ⟨⟩
    exact decode_vi_append hf magic t
  · rw [encode_frameInstr]
    refine ⟨nofun, ?_⟩
    rintro ⟨⟩
    exact decode_mh_append hm hf t
  · rw [henc]
    exact ⟨nofun, nofun⟩

/-- Settles O3: each decoder answers only what stands at the head of its input. -/
theorem decodedWordsReencode : Obligations.DecodedWordsReencode := by
  intro magic s r w i _
  refine ⟨fun h => ?_, fun h => ?_, fun h => ?_⟩
  · obtain ⟨f, hd, rfl⟩ := decode_vi_eq_ok_iff.mp h
    obtain ⟨hf, hs⟩ := decodeVi_eq_ok hd
    exact ⟨(toInstr_wellFormed f).trans hf, _, encode_toInstr magic f, hs⟩
  · obtain ⟨f, hf, rfl, hs⟩ := decodeMh_eq_ok h
    exact ⟨frameInstr_wellFormed hf, _, encode_frameInstr magic f, hs⟩
  · obtain ⟨hd, hr⟩ := decode_op_eq_ok_iff.mp h
    exact ⟨wellFormed_of_decodeOp hd, hr, encode_of_decodeOp hd magic⟩

/-! ### Words of the tables -/

/-- A bare 96-bit number whose bytes are a padded name is the field of an empty frame (log 9). -/
theorem decodeTableWord_command {w : Nat} {name : List Byte} (h : beBytes 12 w = pad12 name) :
    decodeTableWord 96 w = some (frameInstr ⟨pad12 name, 0, [0, 0, 0, 0], []⟩) := by
  simp [decodeTableWord, tableEncoding, h]

/-- Settles O4: the VarInt words are encodings, the command numbers spell the padded names, and the
operation codes are read off R111. -/
theorem wordsOfTheTablesDecode : Obligations.WordsOfTheTablesDecode := by
  refine ⟨?_, ?_, ?_, ?_, ?_, ?_, ?_, ?_, rfl, rfl, rfl, rfl, rfl, rfl, rfl, rfl, rfl, rfl⟩
  · exact decodeVi_encodeVi_append (f := .vi1 0x2a) rfl [0xfd]
  · exact decodeVi_encodeVi_append (f := .vi3 0x0100) rfl []
  · exact decodeVi_encodeVi_append (f := .vi5 0x12345678) rfl [0xaa]
  · exact decodeVi_encodeVi_append (f := .vi9 5000000000) rfl []
  · exact decodeTableWord_command (name := nameVersion) (by decide)
  · exact decodeTableWord_command (name := nameVerack) (by decide)
  · exact decodeTableWord_command (name := nameBlock) (by decide)
  · exact decodeTableWord_command (name := nameTx) (by decide)

end Sys2Proof
end

section
/-! The reference layouts of `spec/30_encoding.md` R101 to R105 stand in the wire relations, and TXDEC
and BLKDEC deliver what stands at the head of their operand. -/

namespace Sys2Proof.Machine

open Sys2Proof.Laws

/-! ### Reference layouts are wire layouts -/

theorem viWire_varIntEncode (v : Word64) : ViWire (varIntEncode v) v := varIntEncode_form v

/-- A count below `2^64` is what its VarInt counts (R93). -/
theorem countWire_varIntEncode {n : Nat} (hn : n < 2 ^ 64) :
    CountWire (varIntEncode (BitVec.ofNat 64 n)) n :=
  ⟨_, viWire_varIntEncode _, by simpa using Nat.mod_eq_of_lt hn⟩

theorem scriptWire_scriptBytes {s : List Byte} (hs : s.length < 2 ^ 64) :
    ScriptWire (scriptBytes s) s :=
  ⟨_, countWire_varIntEncode hs, rfl⟩

theorem txInWire_txInputBytes {i : TxInput} (hi : i.wellFormed = true) :
    TxInWire (txInputBytes i) i := by
  obtain ⟨hhash, hscript⟩ : i.prevHash.length = 32 ∧ i.script.length < 2 ^ 64 := by
    simpa only [TxInput.wellFormed, Bool.and_eq_true, beq_iff_eq, decide_eq_true_eq] using hi
  exact ⟨_, scriptWire_scriptBytes hscript, hhash, rfl⟩

theorem txOutWire_txOutputBytes {o : TxOutput} (ho : o.wellFormed = true) :
    TxOutWire (txOutputBytes o) o :=
  ⟨_, scriptWire_scriptBytes (of_decide_eq_true ho), rfl⟩

/-- Items laid out one after another. -/
theorem manyWire_flatMap {α : Type} {W : List Byte → α → Prop} {bytes : α → List Byte} :
    ∀ {as : List α}, (∀ a ∈ as, W (bytes a) a) → ManyWire W (as.flatMap bytes) as
  | [], _ => rfl
  | a :: as, h =>
    ⟨bytes a, as.flatMap bytes, h a List.mem_cons_self,
      manyWire_flatMap fun c hc => h c (List.mem_cons_of_mem a hc), List.flatMap_cons⟩

theorem txWire_txBytes {t : Transaction} (ht : t.wellFormed = true) : TxWire (txBytes t) t := by
  simp only [Transaction.wellFormed, Bool.and_eq_true, decide_eq_true_eq, List.all_eq_true] at ht
  obtain ⟨⟨⟨hins, houts⟩, hin⟩, hout⟩ := ht
  exact ⟨_, _, _, _, countWire_varIntEncode hins,
    manyWire_flatMap fun i hi => txInWire_txInputBytes (hin i hi), countWire_varIntEncode houts,
    manyWire_flatMap fun o ho => txOutWire_txOutputBytes (hout o ho), rfl⟩

theorem blockWire_blockBytes {k : Block} (hk : k.wellFormed = true) :
    BlockWire (blockBytes k) k := by
  simp only [Block.wellFormed, Bool.and_eq_true, beq_iff_eq, decide_eq_true_eq,
    List.all_eq_true] at hk
  obtain ⟨⟨⟨hprev, hroot⟩, htxs⟩, htx⟩ := hk
  exact ⟨_, _, countWire_varIntEncode htxs, manyWire_flatMap fun t ht => txWire_txBytes (htx t ht),
    hprev, hroot, rfl⟩

/-! ### Delivery (R140, R150) -/

/-- TXDEC delivers the transaction at the head of its operand, with the bytes it occupies (R140,
R144). -/
theorem exec_txdec_of_txWire {s : State} {t : Transaction} {b r : List Byte} (ht : TxWire b t)
    (hcap : withinCap s.cfg.wcap (b ++ r).length) :
    ∃ x, exec (.txdec (b ++ r)) s =
      .next (((s.openWindow (b ++ r)).setX x).emit (.entity (.tx t) b.length)) := by
  obtain ⟨x, hdec, -⟩ := txDecode_complete (openWindow_ready s (b ++ r)) rfl ht
  refine ⟨x, ?_⟩
  simp only [exec, execTxdec, (fits_iff _ _).mpr hcap, if_true, hdec]
  rfl

/-- BLKDEC delivers the block at the head of its operand, with the bytes it occupies (R150, R153). -/
theorem exec_blkdec_of_blockWire {s : State} {k : Block} {b r : List Byte} (hk : BlockWire b k)
    (hcap : withinCap s.cfg.wcap (b ++ r).length) :
    ∃ x, exec (.blkdec (b ++ r)) s =
      .next (((s.openWindow (b ++ r)).setX x).emit (.entity (.block k) b.length)) := by
  obtain ⟨x, hdec, -⟩ := blockDecode_complete (openWindow_ready s (b ++ r)) rfl hk
  refine ⟨x, ?_⟩
  simp only [exec, execBlkdec, (fits_iff _ _).mpr hcap, if_true, hdec]
  rfl

/-- Settles O16: a reference layout is a wire layout, and what stands on the wire is delivered. -/
theorem referenceLayoutsDecodeBack : Obligations.ReferenceLayoutsDecodeBack := by
  intro s t k r
  refine ⟨fun ht hcap => ?_, fun hk hcap => ?_⟩
  · obtain ⟨x, hexec⟩ := exec_txdec_of_txWire (txWire_txBytes ht) hcap
    exact ⟨_, hexec, rfl⟩
  · obtain ⟨x, hexec⟩ := exec_blkdec_of_blockWire (blockWire_blockBytes hk) hcap
    exact ⟨_, hexec, rfl⟩

end Sys2Proof.Machine
end

section
/-! The VarInt unit (`spec/40_varint.md`): the reference encoder against all encodings of a value, what
`VarIntDecode` answers on each, and operation VARINT by what stands at its offset. -/

namespace Sys2Proof.Machine

open Sys2Proof.Laws

/-! ### Encodings of one value (R93, R94, R133) -/

/-- The form that stands for a value in a width, read back from what `viValue` makes of it. -/
def formOfWidth (v : VarInt) : ViForm :=
  match v.width with
  | 1 => .vi1 (v.value.setWidth 8)
  | 3 => .vi3 (v.value.setWidth 16)
  | 5 => .vi5 (v.value.setWidth 32)
  | _ => .vi9 v.value

theorem formOfWidth_leftInverse : Function.LeftInverse formOfWidth viValue
  | .vi1 p => congrArg ViForm.vi1 (BitVec.setWidth_setWidth_of_le p (by decide))
  | .vi3 b => congrArg ViForm.vi3 (BitVec.setWidth_setWidth_of_le b (by decide))
  | .vi5 b => congrArg ViForm.vi5 (BitVec.setWidth_setWidth_of_le b (by decide))
  | .vi9 _ => rfl

/-- Two encodings of a value in one width are the same bytes. -/
theorem ViWire.eq_of_length_eq {b b' : List Byte} {v : Word64} (h : ViWire b v) (h' : ViWire b' v)
    (hlen : b.length = b'.length) : b = b' := by
  obtain ⟨f, -, rfl, hv⟩ := h
  obtain ⟨g, -, rfl, hv'⟩ := h'
  rw [encodeVi_length, encodeVi_length] at hlen
  have hfg : viValue f = viValue g := congrArg₂ VarInt.mk (hv.trans hv'.symm) hlen
  rw [formOfWidth_leftInverse.injective hfg]

/-- The width the reference encoder chooses (R133). -/
theorem varIntEncode_length (v : Word64) :
    (varIntEncode v).length =
      if v.toNat ≤ 0xFC then 1 else if v.toNat ≤ 0xFFFF then 3
      else if v.toNat ≤ 0xFFFFFFFF then 5 else 9 := by
  simp only [varIntEncode, apply_ite List.length, List.length_cons, List.length_nil, leBytes_length]

/-- The values each width can hold (R91): a one-byte form none from 0xFD on. -/
theorem viValue_range {f : ViForm} (hf : f.wellFormed = true) :
    ((viValue f).width = 1 ∧ (viValue f).value.toNat ≤ 0xFC) ∨
      ((viValue f).width = 3 ∧ (viValue f).value.toNat ≤ 0xFFFF) ∨
      ((viValue f).width = 5 ∧ (viValue f).value.toNat ≤ 0xFFFFFFFF) ∨ (viValue f).width = 9 := by
  have hle {n : Nat} (b : BitVec n) (hn : n ≤ 64) : (b.setWidth 64).toNat ≤ 2 ^ n - 1 := by
    rw [BitVec.toNat_setWidth_of_le hn]
    exact Nat.le_pred_of_lt b.isLt
  cases f with
  | vi1 p =>
    have hp : p.toNat ≤ 0xFC := of_decide_eq_true hf
    exact .inl ⟨rfl, (BitVec.toNat_setWidth_of_le (by decide)).trans_le hp⟩
  | vi3 b => exact .inr (.inl ⟨rfl, hle b (by decide)⟩)
  | vi5 b => exact .inr (.inr (.inl ⟨rfl, hle b (by decide)⟩))
  | vi9 b => exact .inr (.inr (.inr rfl))

/-- A form holds only values that the reference encoder gives no more bytes (R133, R134). -/
theorem varIntEncode_length_le_width {f : ViForm} (hf : f.wellFormed = true) :
    (varIntEncode (viValue f).value).length ≤ (viValue f).width := by
  have hrange := viValue_range hf
  rw [varIntEncode_length]
  split_ifs <;> omega

/-- No encoding of a value is shorter than the canonical one (R134). -/
theorem varIntEncode_length_le {b : List Byte} {v : Word64} (h : ViWire b v) :
    (varIntEncode v).length ≤ b.length := by
  obtain ⟨f, hf, rfl, rfl⟩ := h
  rw [encodeVi_length]
  exact varIntEncode_length_le_width hf

/-- The canonical encoding is the one shortest encoding (R94, R134). -/
theorem varIntEncode_eq_iff {b : List Byte} {v : Word64} (h : ViWire b v) :
    varIntEncode v = b ↔ ∀ b', ViWire b' v → b.length ≤ b'.length := by
  constructor
  · rintro rfl b' h'
    exact varIntEncode_length_le h'
  · intro hmin
    have hcanon := viWire_varIntEncode v
    exact hcanon.eq_of_length_eq h (le_antisymm (varIntEncode_length_le h) (hmin _ hcanon))

theorem varIntEncode_length_lt {b : List Byte} {v : Word64} (h : ViWire b v)
    (hne : varIntEncode v ≠ b) : (varIntEncode v).length < b.length :=
  lt_of_le_of_ne (varIntEncode_length_le h) fun hlen =>
    hne ((viWire_varIntEncode v).eq_of_length_eq h hlen)

/-! ### `VarIntDecode` (R131, R134, R135) -/

/-- At the head of the window any encoding of a value decodes to the value and its own length. -/
theorem varIntDecode_of_viWire {b t : List Byte} {v : Word64} {x : Regs} (h : ViWire b v)
    (hx : x.wlen = (b ++ t).length) :
    varIntDecode (b ++ t) 0 x =
      .ok ⟨v, b.length⟩ { x with val := v, wid := BitVec.ofNat 4 b.length } := by
  obtain ⟨f, hf, rfl, rfl⟩ := h
  rw [varIntDecode_form hx f hf t rfl, encodeVi_length]
  rfl

theorem varIntDecode_of_noVi {w : List Byte} {o : Nat} {x : Regs} (hx : x.wlen = w.length)
    (h : NoVi (w.drop o)) : varIntDecode w o x = .raise (truncatedAt o) x := by
  rcases form_or_cut (w.drop o) with ⟨f, r, hf, hform⟩ | hcut
  · exact absurd hform (h f r hf)
  · exact varIntDecode_raise hx hcut

/-- Settles O7: decoding any encoding, and comparing it with the canonical one. -/
theorem varIntRoundTripIsCanonical : Obligations.VarIntRoundTripIsCanonical := by
  intro v t x
  refine ⟨varIntDecode_of_viWire (viWire_varIntEncode v), fun b => varIntEncode_length_le,
    fun b h hx => ?_⟩
  rw [List.take_left]
  exact ⟨varIntDecode_of_viWire h hx, varIntEncode_eq_iff h, varIntEncode_length_lt h⟩

/-! ### The wire forms and VARINT (R130, R131) -/

theorem exec_toInstr (f : ViForm) (s : State) : exec f.toInstr s = .next (takeVarInt f s) := by
  cases f <;> rfl

/-- Settles O8: each form writes its value and its width. -/
theorem wireFormsWriteValueAndWidth : Obligations.WireFormsWriteValueAndWidth := fun s p b2 b4 b8 =>
  ⟨exec_toInstr (.vi1 p) s, exec_toInstr (.vi3 b2) s, exec_toInstr (.vi5 b4) s,
    exec_toInstr (.vi9 b8) s⟩

/-- VARINT with an operand that fits: the window is loaded and decoded at the offset. -/
theorem exec_varint_of_fits {s : State} {buf : List Byte} (o : Nat)
    (hcap : withinCap s.cfg.wcap buf.length) :
    exec (.varint buf o) s =
      finishDecode .standAlone .varIntResult (varIntDecode buf o (s.loadWindow buf).x)
        (s.loadWindow buf) :=
  if_pos ((fits_iff _ _).mpr hcap)

/-- VARINT takes the form that stands at its offset, then reports it. -/
theorem exec_varint_of_form {s : State} {buf r : List Byte} {o : Nat} {f : ViForm}
    (hcap : withinCap s.cfg.wcap buf.length) (hf : f.wellFormed = true)
    (hform : buf.drop o = encodeVi f ++ r) :
    exec (.varint buf o) s =
      .next ((takeVarInt f (s.loadWindow buf)).emit (.varIntResult (viValue f))) := by
  rw [exec_varint_of_fits o hcap, varIntDecode_form rfl f hf r hform]
  rfl

/-- Settles O9: the form stands at the offset because the bytes before it are as many. -/
theorem varintAnswersTheFormAtTheOffset : Obligations.VarintAnswersTheFormAtTheOffset := by
  intro s pre t f hf hcap
  have hform : (pre ++ encodeVi f ++ t).drop pre.length = encodeVi f ++ t := by
    rw [List.append_assoc, List.drop_left]
  exact exec_varint_of_form hcap hf hform

/-- Settles O10: where no form stands `VarIntDecode` raises and leaves the registers. -/
theorem varintRaisesWhereNoFormStands : Obligations.VarintRaisesWhereNoFormStands := by
  intro s buf o hcap hno
  rw [exec_varint_of_fits o hcap, varIntDecode_of_noVi rfl hno]
  rfl

/-- Settles O11: a decoded form stands at the offset, and VARINT takes it as its instruction does. -/
theorem varintRunsTheDecodedForm : Obligations.VarintRunsTheDecodedForm := by
  intro s buf r o f hcap hdec
  obtain ⟨hf, hform⟩ := decodeVi_eq_ok hdec
  exact ⟨_, exec_toInstr f (s.loadWindow buf), exec_varint_of_form hcap hf hform⟩

end Sys2Proof.Machine
end

section
/-! The transaction decoder (`spec/41_transaction.md`): TXDEC delivers what stands on the wire and
nothing else, and where the decode fails at a field it raises that field's kind at that field's
offset. Each read has two sides: it answers on its layout (`Complete`, proved with the reads), and
it raises on the bytes that fail (`Fails`, proved here). -/

namespace Sys2Proof.Machine

open Sys2Proof.Laws

/-! ### Reads that raise -/

/-- A decode raises kind `k` at offset `o`, with no cause and no index (R223). -/
def Decoded.RaisesAt {α : Type} (k : ErrKind) (o : Nat) (d : Decoded α) : Prop :=
  ∃ x, d = .raise { kind := k, errOff := o } x

/-- A read raises wherever the bytes at the cursor fail in the sense of `Cut`, as far behind the
cursor as `Cut` says. -/
def Fails {α : Type} (Cut : List Byte → ErrKind → Nat → Prop) (w : List Byte) (x : Regs)
    (d : Decoded α) : Prop :=
  ∀ k o, Cut (w.drop x.off) k o → d.RaisesAt k (x.off + o)

section
variable {α β : Type} {w b r : List Byte} {x : Regs} {k : ErrKind} {o : Nat} {d : Decoded α}

/-- What a read raises, the function that made it raises (R15). -/
theorem Decoded.RaisesAt.bind (h : d.RaisesAt k o) (f : α → Regs → Decoded β) :
    (d.bind f).RaisesAt k o := by
  obtain ⟨x, rfl⟩ := h
  exact ⟨x, rfl⟩

/-- Where the layout of a read stands at the cursor, the sequence raises what its rest raises behind
that layout. -/
theorem Complete.bind_raises {V : List Byte → α → Prop} {a : α} (hd : Complete V w x d)
    (hx : Ready w x) (hs : w.drop x.off = b ++ r) (hv : V b a) {f : α → Regs → Decoded β}
    (hf : ∀ y, Ready w y → y.off = x.off + b.length → w.drop y.off = r → (f a y).RaisesAt k o) :
    (d.bind f).RaisesAt k o := by
  obtain ⟨y, he, hm, ho, hr⟩ := hd.step hs hv f
  rw [he]
  exact hf y (hx.moved hm) ho hr

/-! ### Fixed-width reads and scripts (R63, R142) -/

/-- A read of more bytes than are left raises at the cursor. -/
theorem readBytes_raisesAt {n : Nat} (hx : Ready w x) (h : (w.drop x.off).length < n) :
    (readBytes w n x).RaisesAt .truncatedInput x.off := by
  rw [List.length_drop] at h
  have hoff := hx.off
  exact ⟨x, readBytes_raise (by rw [hx.wlen]; omega)⟩

theorem readU32_raisesAt (hx : Ready w x) (h : (w.drop x.off).length < 4) :
    (readU32 w x).RaisesAt .truncatedInput x.off :=
  (readBytes_raisesAt hx h).bind _

theorem readVarInt_of_noVi (hx : Ready w x) (h : NoVi (w.drop x.off)) :
    readVarInt w x = .raise (truncatedAt x.off) x := by
  rw [readVarInt, varIntDecode_of_noVi hx.wlen h, Decoded.bind_raise]

theorem readVarInt_raisesAt (hx : Ready w x) (h : NoVi (w.drop x.off)) :
    (readVarInt w x).RaisesAt .truncatedInput x.off :=
  ⟨x, readVarInt_of_noVi hx h⟩

theorem readScript_of_noVi (hx : Ready w x) (h : NoVi (w.drop x.off)) :
    readScript w x = .raise (truncatedAt x.off) x := by
  rw [readScript, readVarInt_of_noVi hx h, Decoded.bind_raise]

/-- A declared length above the bytes that remain behind the VarInt raises there (R142). -/
theorem readScript_of_tooLong {n : Word64} (hx : Ready w x) (hs : w.drop x.off = b ++ r)
    (hn : ViWire b n) (hlong : r.length < n.toNat) :
    ∃ y, readScript w x = .raise (malformedAt (x.off + b.length)) y ∧ y.off = x.off + b.length := by
  unfold readScript
  obtain ⟨y, he, hm, ho, hr⟩ := (readVarInt_complete hx).step hs hn
    fun n x => if n.toNat > x.wlen - x.off then Decoded.raise (malformedAt x.off) x
      else readBytes w n.toNat x
  have hremain : y.wlen - y.off = r.length := by
    rw [hm.wlen, hx.wlen, ← List.length_drop, hr]
  refine ⟨y, ?_, ho⟩
  rw [he, if_pos (by omega), ho]

/-- A declared length within the bytes that remain makes them a script. -/
theorem scriptWire_take {n : Nat} (hn : CountWire b n) (h : n ≤ r.length) :
    ScriptWire (b ++ r.take n) (r.take n) :=
  ⟨b, by rwa [List.length_take_of_le h], rfl⟩

end

/-- Settles O18: no length, a length that fits, and one that does not. -/
theorem scriptLengthsAreCheckedFirst : Obligations.ScriptLengthsAreCheckedFirst := by
  intro w x hw hoff
  have hx : Ready w x := ⟨hw, hoff⟩
  refine ⟨readScript_of_noVi hx, fun l r n hs hn =>
    ⟨fun hfit => ?_, readScript_of_tooLong hx hs hn⟩⟩
  have hsplit : w.drop x.off = (l ++ r.take n.toNat) ++ r.drop n.toNat := by
    rw [List.append_assoc, List.take_append_drop, hs]
  obtain ⟨y, hread, -, ho⟩ :=
    readScript_complete hx _ _ _ hsplit (scriptWire_take ⟨n, hn, rfl⟩ hfit)
  refine ⟨y, hread, ?_⟩
  rw [ho, List.length_append, List.length_take_of_le hfit, Nat.add_assoc]

/-! ### Inputs and outputs (R149) -/

section
variable {w b : List Byte} {x : Regs}

theorem readScript_fails (hx : Ready w x) : Fails ScriptCut w x (readScript w x) := by
  intro k o hcut
  generalize hs : w.drop x.off = c at hcut
  cases hcut with
  | lengthCut hno => exact ⟨x, readScript_of_noVi hx (hs ▸ hno)⟩
  | tooLong hcount hlong =>
    obtain ⟨n, hn, rfl⟩ := hcount
    obtain ⟨y, hread, -⟩ := readScript_of_tooLong hx hs hn hlong
    exact ⟨y, hread⟩

/-- Any four bytes are a 32-bit word in wire order (R66). -/
theorem exists_word32_of_length (h : b.length = 4) : ∃ v : Word32, b = leBytes 4 v.toNat :=
  ⟨_, (leBytes_ofNat_leNat 4 32 b h (by decide)).symm⟩

/-- Any eight bytes are a 64-bit word in wire order (R66). -/
theorem exists_word64_of_length (h : b.length = 8) : ∃ v : Word64, b = leBytes 8 v.toNat :=
  ⟨_, (leBytes_ofNat_leNat 8 64 b h (by decide)).symm⟩

theorem readTxInput_fails (hx : Ready w x) : Fails TxInCut w x (readTxInput w x) := by
  intro k o hcut
  generalize hs : w.drop x.off = c at hcut
  cases hcut with
  | hash hshort => exact (readBytes_raisesAt hx (hs ▸ hshort)).bind _
  | index hh hshort =>
    refine (readBytes_complete 32 hx).bind_raises hx hs ⟨rfl, hh⟩ fun y hy hyo hyr => ?_
    rw [← hh, ← hyo]
    exact (readU32_raisesAt hy (hyr ▸ hshort)).bind _
  | @script h i r _ o hh hi hcut =>
    obtain ⟨idx, rfl⟩ := exists_word32_of_length hi
    rw [List.append_assoc] at hs
    refine (readBytes_complete 32 hx).bind_raises hx hs ⟨rfl, hh⟩ fun y hy hyo hyr => ?_
    refine (readU32_complete hy).bind_raises hy hyr rfl fun z hz hzo hzr => ?_
    have hoff : x.off + (36 + o) = z.off + o := by omega
    rw [hoff]
    exact (readScript_fails hz _ _ (hzr ▸ hcut)).bind _
  | @sequence h i sc r s hh hi hsc hshort =>
    obtain ⟨idx, rfl⟩ := exists_word32_of_length hi
    rw [List.append_assoc, List.append_assoc] at hs
    refine (readBytes_complete 32 hx).bind_raises hx hs ⟨rfl, hh⟩ fun y hy hyo hyr => ?_
    refine (readU32_complete hy).bind_raises hy hyr rfl fun z hz hzo hzr => ?_
    refine (readScript_complete hz).bind_raises hz hzr hsc fun u hu huo hur => ?_
    have hoff : x.off + (36 + sc.length) = u.off := by omega
    rw [hoff]
    exact (readU32_raisesAt hu (hur ▸ hshort)).bind _

theorem readTxOutput_fails (hx : Ready w x) : Fails TxOutCut w x (readTxOutput w x) := by
  intro k o hcut
  generalize hs : w.drop x.off = c at hcut
  cases hcut with
  | value hshort => exact ((readBytes_raisesAt hx (hs ▸ hshort)).bind _).bind _
  | @script v r _ o hv hcut =>
    obtain ⟨value, rfl⟩ := exists_word64_of_length hv
    refine (readU64_complete hx).bind_raises hx hs rfl fun y hy hyo hyr => ?_
    have hoff : x.off + (8 + o) = y.off + o := by omega
    rw [hoff]
    exact (readScript_fails hy _ _ (hyr ▸ hcut)).bind _

end

/-! ### The loops (R141, R145, R149) -/

/-- `n` items, one after another, fail at an item: fewer than `n` stand whole, and the next one
fails. -/
def ManyCut {α : Type} (W : List Byte → α → Prop) (Cut : List Byte → ErrKind → Nat → Prop) (n : Nat)
    (b : List Byte) (k : ErrKind) (o : Nat) : Prop :=
  ∃ l h r o', b = h ++ r ∧ ManyWire W h l ∧ l.length < n ∧ Cut r k o' ∧ o = h.length + o'

/-- What the two loops of `TxDecode` have in common: a turn reads one item, which answers on `W` and
raises on `Cut`, and counts a register down. -/
structure ItemLoop {α : Type} (W : List Byte → α → Prop) (Cut : List Byte → ErrKind → Nat → Prop)
    (w : List Byte) (fuel : Nat) (count : Regs → Word64) (less : Regs → Regs)
    (read : Regs → Decoded α) (loop : Regs → Decoded (List α)) : Prop where
  turn : ∀ x, Ready w x → w.length - x.off ≤ fuel → count x ≠ 0 →
    loop x = (read x).bind fun a y => (loop (less y)).bind fun as z => .ok (a :: as) z
  complete : ∀ x, Ready w x → Complete W w x (read x)
  fails : ∀ x, Ready w x → Fails Cut w x (read x)
  count_moved : ∀ x y, Moved x y → count y = count x
  count_less : ∀ x, count (less x) = count x - 1
  wlen_less : ∀ x, (less x).wlen = x.wlen
  off_less : ∀ x, (less x).off = x.off

theorem readInputs_itemLoop (w : List Byte) (fuel : Nat) :
    ItemLoop TxInWire TxInCut w fuel Regs.nin (fun x => { x with nin := x.nin - 1 }) (readTxInput w)
      (readInputs w fuel) where
  turn x hx hf h0 := by rw [readInputs_unroll w fuel x hx hf, if_neg h0]
  complete _ := readTxInput_complete
  fails _ := readTxInput_fails
  count_moved _ _ m := m.nin
  count_less _ := rfl
  wlen_less _ := rfl
  off_less _ := rfl

theorem readOutputs_itemLoop (w : List Byte) (fuel : Nat) :
    ItemLoop TxOutWire TxOutCut w fuel Regs.nout (fun x => { x with nout := x.nout - 1 })
      (readTxOutput w) (readOutputs w fuel) where
  turn x hx hf h0 := by rw [readOutputs_unroll w fuel x hx hf, if_neg h0]
  complete _ := readTxOutput_complete
  fails _ := readTxOutput_fails
  count_moved _ _ m := m.nout
  count_less _ := rfl
  wlen_less _ := rfl
  off_less _ := rfl

section
variable {α : Type} {W : List Byte → α → Prop} {Cut : List Byte → ErrKind → Nat → Prop}
  {w : List Byte} {fuel : Nat} {count : Regs → Word64} {less : Regs → Regs}
  {read : Regs → Decoded α} {loop : Regs → Decoded (List α)}

/-- A loop raises what its first failing item raises: it passes over the whole items before it. -/
theorem ItemLoop.raisesAt (hloop : ItemLoop W Cut w fuel count less read loop) {r : List Byte}
    {k : ErrKind} {o : Nat} (hcut : Cut r k o) (l : List α) :
    ∀ (x : Regs) (h : List Byte), Ready w x → w.length - x.off ≤ fuel → w.drop x.off = h ++ r →
      ManyWire W h l → l.length < (count x).toNat →
      (loop x).RaisesAt k (x.off + (h.length + o)) := by
  induction l with
  | nil =>
    rintro x _ hx hf hs rfl hlt
    have h0 : count x ≠ 0 := fun h => by simp [h] at hlt
    rw [List.nil_append] at hs
    rw [hloop.turn x hx hf h0, List.length_nil, Nat.zero_add]
    exact (hloop.fails x hx k o (hs ▸ hcut)).bind _
  | cons a l ih =>
    rintro x _ hx hf hs ⟨h, t, ha, hl, rfl⟩ hlt
    have h0 : count x ≠ 0 := fun h => by simp [h] at hlt
    rw [List.append_assoc] at hs
    obtain ⟨y, hread, hm, ho⟩ := hloop.complete x hx a h _ hs ha
    have hy := hx.moved hm
    have hless : Ready w (less y) :=
      ⟨(hloop.wlen_less y).trans hy.wlen, (hloop.off_less y).symm ▸ hy.off⟩
    have hrest := ih (less y) t hless (by rw [hloop.off_less]; omega)
      (by rw [hloop.off_less, ho]; exact drop_split hs) hl
      (by
        rw [hloop.count_less, hloop.count_moved x y hm, toNat_sub_one h0]
        rw [List.length_cons] at hlt
        omega)
    rw [hloop.off_less, ho] at hrest
    have hoff : x.off + ((h ++ t).length + o) = x.off + h.length + (t.length + o) := by
      rw [List.length_append]; omega
    rw [hloop.turn x hx hf h0, hread, Decoded.bind_ok, hoff]
    exact hrest.bind _

theorem ItemLoop.loop_fails (hloop : ItemLoop W Cut w fuel count less read loop) {x : Regs}
    (hx : Ready w x) (hf : w.length - x.off ≤ fuel) :
    Fails (ManyCut W Cut (count x).toNat) w x (loop x) := by
  rintro k _ ⟨l, h, r, o, hs, hl, hlt, hcut, rfl⟩
  exact hloop.raisesAt hcut l x h hx hf hs hl hlt

end

/-! ### `TxDecode` (R141, R149) -/

/-- `TxDecode` from the output count on, the version and the inputs read. -/
def decodeOutputPart (w : List Byte) (version : Word32) (inputs : List TxInput) (x : Regs) :
    Decoded (Transaction × Nat) :=
  (readVarInt w x).bind fun nout x =>
  (readOutputs w (x.wlen - x.off) { x with nout := nout }).bind fun outputs x =>
  (readU32 w x).bind fun lockTime x =>
  .ok ({ version, inputs, outputs, lockTime }, x.off - x.base) x

theorem txDecode_eq (w : List Byte) (x : Regs) :
    txDecode w x =
      (readU32 w { x with base := x.off }).bind fun version x =>
      (readVarInt w x).bind fun nin x =>
      (readInputs w (x.wlen - x.off) { x with nin := nin }).bind fun inputs x =>
      decodeOutputPart w version inputs x := rfl

section
variable {w : List Byte} {x : Regs} {k : ErrKind}

/-- Behind a whole version, input count and inputs, `TxDecode` raises what its rest raises. -/
theorem txDecode_raisesAt_of_outputPart {v ci is r : List Byte} {l : List TxInput} {o : Nat}
    (hx : Ready w x) (hs : w.drop x.off = v ++ ci ++ is ++ r) (hv : v.length = 4)
    (hci : CountWire ci l.length) (his : ManyWire TxInWire is l)
    (hrest : ∀ version y, Ready w y → y.off = x.off + (4 + ci.length + is.length) →
      w.drop y.off = r → (decodeOutputPart w version l y).RaisesAt k o) :
    (txDecode w x).RaisesAt k o := by
  obtain ⟨version, rfl⟩ := exists_word32_of_length hv
  obtain ⟨n, hci, hn⟩ := hci
  rw [List.append_assoc, List.append_assoc] at hs
  have hbase : Ready w { x with base := x.off } := ⟨hx.wlen, hx.off⟩
  rw [txDecode_eq]
  refine (readU32_complete hbase).bind_raises hbase hs rfl fun y hy hyo hyr => ?_
  refine (readVarInt_complete hy).bind_raises hy hyr hci fun z hz hzo hzr => ?_
  have hcounted : Ready w { z with nin := n } := ⟨hz.wlen, hz.off⟩
  obtain ⟨u, hread, hm, huo⟩ :=
    readInputs_complete w l (z.wlen - z.off) _ is r hcounted (by rw [hz.wlen]) hn hzr his
  have hu := hcounted.movedTx hm
  rw [hread, Decoded.bind_ok]
  refine hrest version u hu (by simp only at hyo huo; omega) ?_
  rw [huo]
  exact drop_split hzr

/-- `TxDecode` raises the kind and the offset of the first field that fails (R149). -/
theorem txDecode_fails (hx : Ready w x) : Fails TxCut w x (txDecode w x) := by
  intro k o hcut
  have hbase : Ready w { x with base := x.off } := ⟨hx.wlen, hx.off⟩
  generalize hs : w.drop x.off = c at hcut
  cases hcut with
  | version hshort => exact (readU32_raisesAt hbase (hs ▸ hshort)).bind _
  | inputCount hv hno =>
    obtain ⟨version, rfl⟩ := exists_word32_of_length hv
    refine (readU32_complete hbase).bind_raises hbase hs rfl fun y hy hyo hyr => ?_
    rw [← hv, ← hyo]
    exact (readVarInt_raisesAt hy (hyr ▸ hno)).bind _
  | @input v ci is r n l _ o hv hci his hlt hcut =>
    obtain ⟨version, rfl⟩ := exists_word32_of_length hv
    obtain ⟨n, hci, rfl⟩ := hci
    rw [List.append_assoc, List.append_assoc] at hs
    refine (readU32_complete hbase).bind_raises hbase hs rfl fun y hy hyo hyr => ?_
    refine (readVarInt_complete hy).bind_raises hy hyr hci fun z hz hzo hzr => ?_
    have hoff : x.off + (4 + ci.length + is.length + o) = z.off + (is.length + o) := by
      simp only [leBytes_length] at hyo
      omega
    rw [hoff]
    exact ((readInputs_itemLoop w _).loop_fails (x := { z with nin := n }) ⟨hz.wlen, hz.off⟩
      (by rw [hz.wlen]) _ _ ⟨l, is, r, o, hzr, his, hlt, hcut, rfl⟩).bind _
  | outputCount hv hci his hno =>
    refine txDecode_raisesAt_of_outputPart hx hs hv hci his fun version y hy hyo hyr => ?_
    rw [← hyo]
    exact (readVarInt_raisesAt hy (hyr ▸ hno)).bind _
  | @output v ci is co os r m l l' _ o hv hci his hco hos hlt hcut =>
    obtain ⟨m, hco, rfl⟩ := hco
    rw [List.append_assoc, List.append_assoc] at hs
    refine txDecode_raisesAt_of_outputPart hx hs hv hci his fun version y hy hyo hyr => ?_
    refine (readVarInt_complete hy).bind_raises hy hyr hco fun z hz hzo hzr => ?_
    have hoff : x.off + (4 + ci.length + is.length + co.length + os.length + o) =
        z.off + (os.length + o) := by omega
    rw [hoff]
    exact ((readOutputs_itemLoop w _).loop_fails (x := { z with nout := m }) ⟨hz.wlen, hz.off⟩
      (by rw [hz.wlen]) _ _ ⟨l', os, r, o, hzr, hos, hlt, hcut, rfl⟩).bind _
  | @lockTime v ci is co os r l l' hv hci his hco hos hshort =>
    obtain ⟨m, hco, hm⟩ := hco
    rw [List.append_assoc, List.append_assoc] at hs
    refine txDecode_raisesAt_of_outputPart hx hs hv hci his fun version y hy hyo hyr => ?_
    refine (readVarInt_complete hy).bind_raises hy hyr hco fun z hz hzo hzr => ?_
    have hcounted : Ready w { z with nout := m } := ⟨hz.wlen, hz.off⟩
    obtain ⟨u, hread, hmoved, huo⟩ :=
      readOutputs_complete w l' (z.wlen - z.off) _ os r hcounted (by rw [hz.wlen]) hm hzr hos
    have hu := hcounted.movedTx hmoved
    have hur : w.drop u.off = r := by rw [huo]; exact drop_split hzr
    have hoff : x.off + (4 + ci.length + is.length + co.length + os.length) = u.off := by
      simp only at huo
      omega
    rw [hread, Decoded.bind_ok, hoff]
    exact (readU32_raisesAt hu (hur ▸ hshort)).bind _

end

/-! ### TXDEC (R140, R144, R149) -/

/-- TXDEC with an operand that fits: the window is loaded and decoded from its start. -/
theorem exec_txdec_of_fits {s : State} {buf : List Byte} (hcap : withinCap s.cfg.wcap buf.length) :
    exec (.txdec buf) s =
      finishDecode .standAlone txRecord (txDecode buf (s.openWindow buf).x) (s.openWindow buf) :=
  if_pos ((fits_iff _ _).mpr hcap)

/-- Settles O12: `TxDecode` answers the transaction that stands at the start of the window. -/
theorem txdecDeliversTheTransaction : Obligations.TxdecDeliversTheTransaction := by
  intro s t b r ht hcap
  obtain ⟨x, hdec, -, ho⟩ := txDecode_complete (openWindow_ready s (b ++ r)) rfl ht
  refine ⟨x, ho.trans (Nat.zero_add _), ?_⟩
  rw [exec_txdec_of_fits hcap, hdec]
  rfl

/-- Settles O13: of the ways TXDEC can end only an answer of `TxDecode` emits an `Entity`. -/
theorem txdecDeliversOnlyWireTransactions : Obligations.TxdecDeliversOnlyWireTransactions := by
  intro s s' buf t c hexec hout
  by_cases hcap : withinCap s.cfg.wcap buf.length
  · rw [exec_txdec_of_fits hcap] at hexec
    have hsound := txDecode_sound (openWindow_ready s buf)
    rcases finishDecode_cases .standAlone txRecord (txDecode buf (s.openWindow buf).x)
      (s.openWindow buf) with ⟨⟨t', c'⟩, x, hdec, hend⟩ | ⟨e, x, -, hend⟩ | ⟨f, -, hend⟩
    · rw [hend] at hexec
      rw [hdec] at hsound
      obtain ⟨-, -, b, r, hs, ht, hc⟩ := hsound
      cases hexec
      have hrec : txRecord (t', c') = .entity (.tx t) c := by simpa using hout
      cases hrec
      exact ⟨b, r, hs, hc, ht⟩
    · rw [hend] at hexec
      cases hexec
      simp at hout
    · rw [hend] at hexec
      cases hexec
  · rw [exec_standAlone_of_not_fits (.inr (.inl rfl)) hcap] at hexec
    cases hexec
    simp at hout

/-- Settles O14: `TxDecode` raises at the first failing field, and TXDEC reports what it raises. -/
theorem txdecRaisesAtTheFirstFailingField : Obligations.TxdecRaisesAtTheFirstFailingField := by
  intro s buf k o hcut hcap
  obtain ⟨x, hdec⟩ := txDecode_fails (openWindow_ready s buf) k o hcut
  rw [State.openWindow_x, Nat.zero_add, ← State.openWindow_x] at hdec
  refine ⟨x, ?_⟩
  rw [exec_txdec_of_fits hcap, hdec]
  rfl

/-! ### Every window begins with a transaction or fails at a field (R149) -/

/-- Every byte sequence begins with a layout or fails. -/
def HeadOrCut {α : Type} (W : List Byte → α → Prop) (Cut : List Byte → ErrKind → Nat → Prop) :
    Prop :=
  ∀ b, (∃ h r a, b = h ++ r ∧ W h a) ∨ ∃ k o, Cut b k o

theorem short_or_split (n : Nat) (b : List Byte) :
    b.length < n ∨ ∃ h r, b = h ++ r ∧ h.length = n := by
  by_cases hlen : b.length < n
  · exact .inl hlen
  · exact .inr ⟨b.take n, b.drop n, (List.take_append_drop n b).symm,
      List.length_take_of_le (Nat.le_of_not_lt hlen)⟩

theorem noVi_or_count (b : List Byte) : NoVi b ∨ ∃ l r n, b = l ++ r ∧ CountWire l n := by
  by_cases hno : NoVi b
  · exact .inl hno
  · simp only [NoVi, not_forall, not_not] at hno
    obtain ⟨f, r, hf, hs⟩ := hno
    exact .inr ⟨encodeVi f, r, _, hs, _, ⟨f, hf, rfl, rfl⟩, rfl⟩

theorem script_headOrCut : HeadOrCut ScriptWire ScriptCut := by
  intro b
  rcases noVi_or_count b with hno | ⟨l, r, n, rfl, hn⟩
  · exact .inr ⟨_, _, .lengthCut hno⟩
  by_cases hlong : r.length < n
  · exact .inr ⟨_, _, .tooLong hn hlong⟩
  · refine .inl ⟨l ++ r.take n, r.drop n, r.take n, ?_, scriptWire_take hn (Nat.le_of_not_lt hlong)⟩
    rw [List.append_assoc, List.take_append_drop]

theorem txInput_headOrCut : HeadOrCut TxInWire TxInCut := by
  intro b
  rcases short_or_split 32 b with hshort | ⟨h, r, rfl, hh⟩
  · exact .inr ⟨_, _, .hash hshort⟩
  rcases short_or_split 4 r with hshort | ⟨i, r, rfl, hi⟩
  · exact .inr ⟨_, _, .index hh hshort⟩
  rw [← List.append_assoc]
  rcases script_headOrCut r with ⟨sc, r, s, rfl, hsc⟩ | ⟨k, o, hcut⟩
  · rw [← List.append_assoc]
    rcases short_or_split 4 r with hshort | ⟨q, r, rfl, hq⟩
    · exact .inr ⟨_, _, .sequence hh hi hsc hshort⟩
    · obtain ⟨idx, rfl⟩ := exists_word32_of_length hi
      obtain ⟨sequence, rfl⟩ := exists_word32_of_length hq
      exact .inl ⟨_, r, ⟨h, idx, s, sequence⟩, (List.append_assoc ..).symm, sc, hsc, hh, rfl⟩
  · exact .inr ⟨_, _, .script hh hi hcut⟩

theorem txOutput_headOrCut : HeadOrCut TxOutWire TxOutCut := by
  intro b
  rcases short_or_split 8 b with hshort | ⟨v, r, rfl, hv⟩
  · exact .inr ⟨_, _, .value hshort⟩
  rcases script_headOrCut r with ⟨sc, r, s, rfl, hsc⟩ | ⟨k, o, hcut⟩
  · obtain ⟨value, rfl⟩ := exists_word64_of_length hv
    exact .inl ⟨_, r, ⟨value, s⟩, (List.append_assoc ..).symm, sc, hsc, rfl⟩
  · exact .inr ⟨_, _, .script hv hcut⟩

/-- Either `n` items stand one after another, or one of them fails. -/
theorem HeadOrCut.many {α : Type} {W : List Byte → α → Prop}
    {Cut : List Byte → ErrKind → Nat → Prop} (hitem : HeadOrCut W Cut) (n : Nat) :
    HeadOrCut (fun b (l : List α) => ManyWire W b l ∧ l.length = n) (ManyCut W Cut n) := by
  induction n with
  | zero => exact fun b => .inl ⟨[], b, [], rfl, rfl, rfl⟩
  | succ n ih =>
    intro b
    rcases hitem b with ⟨h, r, a, rfl, ha⟩ | ⟨k, o, hcut⟩
    · rcases ih r with ⟨t, r, l, rfl, hl, hlen⟩ | ⟨k, _, l, t, r, o, rfl, hl, hlt, hcut, rfl⟩
      · exact .inl ⟨h ++ t, r, a :: l, (List.append_assoc ..).symm, ⟨h, t, ha, hl, rfl⟩,
          congrArg (· + 1) hlen⟩
      · exact .inr ⟨k, _, a :: l, h ++ t, r, o, (List.append_assoc ..).symm, ⟨h, t, ha, hl, rfl⟩,
          Nat.succ_lt_succ hlt, hcut, rfl⟩
    · exact .inr ⟨k, _, [], [], b, o, rfl, rfl, Nat.succ_pos n, hcut, rfl⟩

theorem tx_headOrCut : HeadOrCut TxWire TxCut := by
  intro b
  rcases short_or_split 4 b with hshort | ⟨v, r, rfl, hv⟩
  · exact .inr ⟨_, _, .version hshort⟩
  rcases noVi_or_count r with hno | ⟨ci, r, n, rfl, hci⟩
  · exact .inr ⟨_, _, .inputCount hv hno⟩
  rw [← List.append_assoc]
  rcases txInput_headOrCut.many n r with
    ⟨is, r, l, rfl, his, rfl⟩ | ⟨k, _, l, is, r, o, rfl, his, hlt, hcut, rfl⟩
  · rw [← List.append_assoc]
    rcases noVi_or_count r with hno | ⟨co, r, m, rfl, hco⟩
    · exact .inr ⟨_, _, .outputCount hv hci his hno⟩
    rw [← List.append_assoc]
    rcases txOutput_headOrCut.many m r with
      ⟨os, r, l', rfl, hos, rfl⟩ | ⟨k, _, l', os, r, o, rfl, hos, hlt, hcut, rfl⟩
    · rw [← List.append_assoc]
      rcases short_or_split 4 r with hshort | ⟨q, r, rfl, hq⟩
      · exact .inr ⟨_, _, .lockTime hv hci his hco hos hshort⟩
      · obtain ⟨version, rfl⟩ := exists_word32_of_length hv
        obtain ⟨lockTime, rfl⟩ := exists_word32_of_length hq
        exact .inl ⟨_, r, ⟨version, l, l', lockTime⟩, (List.append_assoc ..).symm,
          ci, is, co, os, hci, his, hco, hos, rfl⟩
    · rw [← List.append_assoc]
      exact .inr ⟨_, _, .output hv hci his hco hos hlt hcut⟩
  · rw [← List.append_assoc]
    exact .inr ⟨_, _, .input hv hci his hlt hcut⟩

/-- Settles O15: each field stands or fails, in wire order. -/
theorem everyWindowDecodesOrFails : Obligations.EveryWindowDecodesOrFails := tx_headOrCut

/-! ### The cursor invariant (R147) -/

theorem Decoded.leaves.mono {α : Type} {P Q : Regs → Prop} {d : Decoded α} (h : d.leaves P)
    (hPQ : ∀ x, P x → Q x) : d.leaves Q := by
  cases d with
  | ok a x => exact hPQ x h
  | raise e x => exact hPQ x h
  | outside f => exact h

/-- The cursor stays in a window of `n` bytes. -/
def Regs.cursorIn (n : Nat) (x : Regs) : Prop := x.cursorInWindow ∧ x.wlen = n

/-- A read moves the cursor forward only, not past the window, and leaves `BASE` (R147). -/
theorem Sound.leaves_cursorInWindow {α : Type} {W : List Byte → α → Prop} {w : List Byte} {x : Regs}
    {d : Decoded α} (h : Sound W w x d) (hx : x.cursorInWindow) : d.leaves Regs.cursorInWindow := by
  have hmoved {y : Regs} (m : Moved x y) : y.cursorInWindow :=
    ⟨m.base.le.trans (hx.1.trans m.le), m.inside⟩
  cases d with
  | ok a y => exact hmoved h.1
  | raise e y => exact hmoved h.1
  | outside f => exact h

/-- `TxDecode` puts `BASE` where the cursor was, and then moves it forward only (R141, R147). -/
theorem txDecode_leaves_cursorIn {w : List Byte} {x : Regs} (hx : Ready w x) :
    (txDecode w x).leaves (Regs.cursorIn w.length) := by
  have hmoved {y : Regs} (m : MovedBlk x y) : y.cursorIn w.length :=
    ⟨⟨m.base.le.trans m.le, m.inside⟩, m.wlen.trans hx.wlen⟩
  have h := txDecode_sound hx
  cases hd : txDecode w x with
  | ok p y => rw [hd] at h; exact hmoved h.1
  | raise e y => rw [hd] at h; exact hmoved h.1
  | outside f => rw [hd] at h; exact h

theorem blockDecode_leaves_cursorIn {w : List Byte} {x : Regs} (hx : Ready w x) (h0 : x.base = 0) :
    (blockDecode w x).leaves (Regs.cursorIn w.length) := by
  have h := blockDecode_sound hx
  cases hd : blockDecode w x with
  | ok p y =>
    rw [hd] at h
    obtain ⟨hwlen, hbase, ho, b, r, rfl, -, hc⟩ := h
    have hin : y.off ≤ y.wlen := by rw [ho, hc, hwlen, hx.wlen]; simp
    exact ⟨⟨hbase h0, hin⟩, hwlen.trans hx.wlen⟩
  | raise e y =>
    rw [hd] at h
    obtain ⟨hwlen, hbase, hin, -⟩ := h
    exact ⟨⟨hbase h0, hin⟩, hwlen.trans hx.wlen⟩
  | outside f => rw [hd] at h; exact h

/-- An operation that ends a decode ends with the registers the decode left, whether it reports a
value or takes an error. -/
theorem finishDecode_leaves {α : Type} {P : Regs → Prop} {d : Decoded α} (u : Under)
    (rec : α → Record) (s : State) (h : d.leaves P) :
    ∃ t, finishDecode u rec d s = .next t ∧ P t.x := by
  cases d with
  | ok a x => exact ⟨_, rfl, h⟩
  | raise e x =>
    refine ⟨_, rfl, ?_⟩
    cases u with
    | standAlone => exact h
    | session => rw [takeError_session]; exact h
  | outside f => exact h.elim

/-- Settles O17: the cursor reads keep the invariant, and each decode of an operand or a payload
starts with `OFF` and `BASE` at 0 and leaves its registers to the operation. -/
theorem cursorStaysInTheWindow : Obligations.CursorStaysInTheWindow := by
  refine ⟨fun w n x hw hx => ?_, fun s buf c n i hi => ?_⟩
  · have hready : Ready w x := ⟨hw, hw ▸ hx.2⟩
    exact ⟨(readBytes_sound n hready).leaves_cursorInWindow hx,
      (readVarInt_sound hready).leaves_cursorInWindow hx,
      (readScript_sound hready).leaves_cursorInWindow hx,
      (txDecode_leaves_cursorIn hready).mono fun _ h => h.1⟩
  · have htx (u : Under) := finishDecode_leaves u txRecord (s.openWindow buf)
      (txDecode_leaves_cursorIn (openWindow_ready s buf))
    have hblock (u : Under) := finishDecode_leaves u blockRecord (s.openWindow buf)
      (blockDecode_leaves_cursorIn (openWindow_ready s buf) rfl)
    rcases hi with ⟨rfl | rfl, hcap⟩ | ⟨rfl | rfl, hphase⟩
    · rw [exec_txdec_of_fits hcap]
      exact htx .standAlone
    · rw [exec, execBlkdec, if_pos ((fits_iff _ _).mpr hcap)]
      exact hblock .standAlone
    · rw [exec, execMsgTx, if_pos hphase]
      exact htx .session
    · rw [exec, execMsgBlock, if_pos hphase]
      exact hblock .session

end Sys2Proof.Machine
end

section
/-! The block decoder (`spec/42_block.md`): BLKDEC delivers what stands on the wire and nothing
else; a block with a short header or no count fails there, and one whose transaction fails reports
the inner failure with the transaction's index. -/

namespace Sys2Proof.Machine

open Sys2Proof.Laws

/-! ### Decodes that raise -/

/-- A decode raises the error `e`, whatever registers it leaves. -/
def Decoded.Raises {α : Type} (e : ErrInfo) (d : Decoded α) : Prop := ∃ x, d = .raise e x

/-- What a read raises, the function that made it raises (R15). -/
theorem Decoded.Raises.bind {α β : Type} {e : ErrInfo} {d : Decoded α} (h : d.Raises e)
    (f : α → Regs → Decoded β) : (d.bind f).Raises e := by
  obtain ⟨x, rfl⟩ := h
  exact ⟨x, rfl⟩

/-! ### The transactions of a block (R151, R152) -/

section
variable {w r : List Byte} {x : Regs} {k : ErrKind} {o : Nat}

theorem tryTx_of_txWire {b : List Byte} {t : Transaction} (i : Nat) (hx : Ready w x)
    (hs : w.drop x.off = b ++ r) (ht : TxWire b t) :
    ∃ y, tryTx w i x = .ok t y ∧ MovedBlk x y ∧ y.off = x.off + b.length := by
  obtain ⟨y, hdec, hmoved, ho⟩ := txDecode_complete hx hs ht
  exact ⟨y, by rw [tryTx, hdec], hmoved, ho⟩

/-- A transaction that fails is reported with its kind as the cause and its index (R152). -/
theorem tryTx_raises (i : Nat) (hx : Ready w x) (hcut : TxCut (w.drop x.off) k o) :
    (tryTx w i x).Raises (wrapTxError i { kind := k, errOff := x.off + o }) := by
  obtain ⟨y, hdec⟩ := txDecode_fails hx k o hcut
  exact ⟨y, by rw [tryTx, hdec]⟩

/-- The loop passes over the whole transactions, counting `i` up, and raises what the next one
raises. -/
theorem readTxs_raises {fuel : Nat} (hcut : TxCut r k o) (txs : List Transaction) :
    ∀ (i : Nat) (x : Regs) (h : List Byte), Ready w x → w.length - x.off ≤ fuel →
      w.drop x.off = h ++ r → ManyWire TxWire h txs → txs.length < x.ntx.toNat →
      (readTxs w fuel i x).Raises
        (wrapTxError (i + txs.length) { kind := k, errOff := x.off + h.length + o }) := by
  induction txs with
  | nil =>
    rintro i x _ hx hf hs rfl hlt
    have h0 : x.ntx ≠ 0 := fun h => by simp [h] at hlt
    rw [List.nil_append] at hs
    rw [readTxs_unroll w fuel i x hx hf, if_neg h0]
    exact (tryTx_raises i hx (hs ▸ hcut)).bind _
  | cons t txs ih =>
    rintro i x _ hx hf hs ⟨h, u, ht, hu, rfl⟩ hlt
    have h0 : x.ntx ≠ 0 := fun h => by simp [h] at hlt
    rw [List.append_assoc] at hs
    obtain ⟨y, htry, hmoved, ho⟩ := tryTx_of_txWire i hx hs ht
    have hy := hx.movedTxs hmoved.txs
    have hleft : txs.length < (y.ntx - 1).toNat := by
      rw [hmoved.ntx, toNat_sub_one h0]
      rw [List.length_cons] at hlt
      omega
    have hrest := ih (i + 1) { y with ntx := y.ntx - 1 } u ⟨hy.wlen, hy.off⟩ (by simp only; omega)
      (by simp only [ho]; exact drop_split hs) hu hleft
    have hindex : i + (t :: txs).length = i + 1 + txs.length := by rw [List.length_cons]; omega
    have hoff : x.off + (h ++ u).length + o = y.off + u.length + o := by
      rw [List.length_append]; omega
    rw [readTxs_unroll w fuel i x hx hf, if_neg h0, htry, Decoded.bind_ok, hindex, hoff]
    exact hrest.bind _

/-! ### `BlockDecode` (R151, R155) -/

/-- `BlockDecode` from the transaction count on, the header read. -/
def decodeBlockBody (w : List Byte) (header : BlockHeader) (x : Regs) : Decoded (Block × Nat) :=
  (readVarInt w x).bind fun ntx x =>
  (readTxs w (x.wlen - x.off) 0 { x with ntx := ntx }).bind fun txs x =>
  .ok ({ header, txs }, x.off) x

theorem blockDecode_of_short (hx : Ready w x) (hshort : w.length < 80) :
    blockDecode w x = .raise (truncatedAt 0) x :=
  if_pos (hx.wlen ▸ hshort)

theorem blockDecode_of_header {hd : BlockHeader} (hx : Ready w x) (hlen : 80 ≤ w.length)
    (hhd : readBlockHeader w = some hd) :
    blockDecode w x = decodeBlockBody w hd { x with off := 80 } := by
  rw [blockDecode, if_neg (by rw [hx.wlen]; omega), hhd]
  rfl

/-- A missing or cut count raises behind the header (R155). -/
theorem blockDecode_raises_of_noVi (hx : Ready w x) (hlen : 80 ≤ w.length)
    (hno : NoVi (w.drop 80)) : (blockDecode w x).Raises (truncatedAt 80) := by
  obtain ⟨hd, hhd, -⟩ := readBlockHeader_some hlen
  have hx80 : Ready w { x with off := 80 } := ⟨hx.wlen, hlen⟩
  rw [blockDecode_of_header hx hlen hhd]
  exact Decoded.Raises.bind ⟨_, readVarInt_of_noVi hx80 hno⟩ _

/-- A block whose transactions fail raises the inner failure, its offset counted from the block's
start (R152, R155). -/
theorem blockDecode_raises_of_txCut {hd : BlockHeader} {c ts : List Byte} {n : Nat}
    {txs : List Transaction} (hx : Ready w x) (hs : w = blockHeaderBytes hd ++ c ++ ts ++ r)
    (hprev : hd.prevBlock.length = 32) (hroot : hd.merkleRoot.length = 32) (hc : CountWire c n)
    (hts : ManyWire TxWire ts txs) (hlt : txs.length < n) (hcut : TxCut r k o) :
    (blockDecode w x).Raises
      (wrapTxError txs.length { kind := k, errOff := 80 + c.length + ts.length + o }) := by
  obtain ⟨ntx, hc, rfl⟩ := hc
  have hhead := blockHeaderBytes_length hprev hroot
  rw [List.append_assoc, List.append_assoc] at hs
  have hlen : 80 ≤ w.length := by rw [hs, List.length_append]; omega
  have hhd : readBlockHeader w = some hd := by rw [hs]; exact readBlockHeader_bytes hprev hroot
  have hcount : w.drop 80 = c ++ (ts ++ r) := by rw [hs, ← hhead, List.drop_left]
  have hx80 : Ready w { x with off := 80 } := ⟨hx.wlen, hlen⟩
  obtain ⟨y, hread, hmoved, ho⟩ := readVarInt_complete hx80 ntx c _ hcount hc
  have hoff : y.off = 80 + c.length := ho
  have hy := hx80.moved hmoved
  have hytxs : w.drop y.off = ts ++ r := by rw [hoff]; exact drop_split hcount
  have htxs := readTxs_raises (fuel := y.wlen - y.off) hcut txs 0 { y with ntx := ntx } ts
    ⟨hy.wlen, hy.off⟩ (by rw [hy.wlen]) hytxs hts hlt
  rw [Nat.zero_add] at htxs
  rw [blockDecode_of_header hx hlen hhd, decodeBlockBody, hread, Decoded.bind_ok, ← hoff]
  exact htxs.bind _

end

/-! ### BLKDEC (R150, R153) -/

/-- BLKDEC with an operand that fits: the window is loaded and decoded from its start. -/
theorem exec_blkdec_of_fits {s : State} {buf : List Byte} (hcap : withinCap s.cfg.wcap buf.length) :
    exec (.blkdec buf) s =
      finishDecode .standAlone blockRecord (blockDecode buf (s.openWindow buf).x)
        (s.openWindow buf) :=
  if_pos ((fits_iff _ _).mpr hcap)

/-- What `BlockDecode` raises, BLKDEC reports, and touches no status register (R150). -/
theorem exec_blkdec_of_raises {s : State} {buf : List Byte} {e : ErrInfo}
    (hcap : withinCap s.cfg.wcap buf.length)
    (h : (blockDecode buf (s.openWindow buf).x).Raises e) :
    ∃ x, exec (.blkdec buf) s =
      .next { s with mem := { s.mem with w := buf }, x := x, out := s.out ++ [.err e] } := by
  obtain ⟨x, hdec⟩ := h
  refine ⟨x, ?_⟩
  rw [exec_blkdec_of_fits hcap, hdec]
  rfl

/-- A stand-alone decode emits an `Entity` record only for a value it answers. -/
theorem ok_of_finishDecode_entity {α : Type} {rec : α → Record} {d : Decoded α} {s s' : State}
    {v : Entity} {c : Nat} (hend : finishDecode .standAlone rec d s = .next s')
    (hout : s'.out = s.out ++ [.entity v c]) :
    ∃ a x, d = .ok a x ∧ rec a = .entity v c := by
  cases d with
  | ok a x =>
    cases hend
    exact ⟨a, x, rfl, by simpa using hout⟩
  | raise e x =>
    cases hend
    simp [takeError] at hout
  | outside f => cases hend

/-- Settles O19: `BlockDecode` answers the block that stands at the start of the window. -/
theorem blkdecDeliversTheBlock : Obligations.BlkdecDeliversTheBlock := by
  intro s k b r hk hcap
  obtain ⟨x, hdec, -, ho⟩ := blockDecode_complete (openWindow_ready s (b ++ r)) rfl hk
  refine ⟨x, ho, ?_⟩
  rw [exec_blkdec_of_fits hcap, hdec]
  rfl

/-- Settles O20: an `Entity` record means that `BlockDecode` answered, and what it answers is on the
wire. -/
theorem blkdecDeliversOnlyWireBlocks : Obligations.BlkdecDeliversOnlyWireBlocks := by
  intro s s' buf k c hexec hout
  by_cases hcap : withinCap s.cfg.wcap buf.length
  · rw [exec_blkdec_of_fits hcap] at hexec
    obtain ⟨⟨k', c'⟩, x, hdec, hrec⟩ := ok_of_finishDecode_entity hexec hout
    cases hrec
    have hsound := blockDecode_sound (openWindow_ready s buf)
    rw [hdec] at hsound
    obtain ⟨-, -, -, b, r, hs, hk, hc⟩ := hsound
    exact ⟨b, r, hs, hc, hk⟩
  · rw [exec_standAlone_of_not_fits (.inr (.inr rfl)) hcap] at hexec
    cases hexec
    simp at hout

/-- Settles O22: `BlockDecode` raises the failing transaction's error wrapped, and BLKDEC reports
it. -/
theorem blocksReportTheInnerFailure : Obligations.BlocksReportTheInnerFailure := by
  intro s hd c ts r n o txs k hprev hroot hc hts hlt hcut hcap
  exact exec_blkdec_of_raises hcap
    (blockDecode_raises_of_txCut (openWindow_ready s _) rfl hprev hroot hc hts hlt hcut)

/-- Settles O21: a window short of a header, and one with a header and no count. -/
theorem shortBlocksRaiseAtHeaderOrCount : Obligations.ShortBlocksRaiseAtHeaderOrCount := by
  intro s buf hcap
  have hx := openWindow_ready s buf
  exact ⟨fun hshort => exec_blkdec_of_raises hcap ⟨_, blockDecode_of_short hx hshort⟩,
    fun hlen hno => exec_blkdec_of_raises hcap (blockDecode_raises_of_noVi hx hlen hno)⟩

end Sys2Proof.Machine
end

section
/-! The framer (`spec/43_framer.md`): what FEED and EXTRACT answer, one equation for each outcome of
EXTRACT's tests, and the re-entrancy law R164 by induction on the chunks. -/

namespace Sys2Proof.Machine

open Sys2Proof.Laws

/-! ### Headers (R95, R162) -/

/-- Where the magic and the length of a parsed header stood. -/
theorem parseHeader_fields {b : List Byte} {hd : Header} (h : parseHeader b = some hd) :
    24 ≤ b.length ∧ hd.magic = b.take 4 ∧ hd.length.toNat = leNat ((b.drop 16).take 4) := by
  unfold parseHeader at h
  split at h
  next magic command length checksum hmagic hcommand hlength hchecksum =>
    cases h
    obtain ⟨-, hmagic, -⟩ := memRead_some hmagic
    obtain ⟨-, hlength, hfour⟩ := memRead_some hlength
    obtain ⟨h24, -, -⟩ := memRead_some hchecksum
    have hlt := leNat_lt length
    rw [hfour] at hlt
    exact ⟨h24, hmagic, by rw [← hlength, BitVec.toNat_ofNat, Nat.mod_eq_of_lt (by omega)]⟩
  · cases h

/-! ### FEED (R160) -/

/-- Settles O25: `feedCount` is the number of bytes that fit. -/
theorem feedAppendsWhatFits : Obligations.FeedAppendsWhatFits := by
  intro s b k hlive hinf hcap
  have hk : feedCount s.cfg.rxcap s.rxlen b.length = k := by
    cases hc : s.cfg.rxcap with
    | none => exact (hinf hc).symm
    | some c => exact (hcap c hc).symm
  simp only [exec, execFeed, phaseRefusal_live hlive, hk]
  rfl

/-! ### The tests of EXTRACT, in their order (R161, R226) -/

section
variable {s : State} {hd : Header} {f : Frame} {rest : List Byte}

/-- Line 4: there is no header yet. -/
theorem execExtract_of_short (hlive : s.phase.live = true) (hfrv : s.flags.frv = false)
    (hshort : s.mem.rx.length < 24) : execExtract s = .next (s.emit .noFrameYet) := by
  simp [execExtract, phaseRefusal_live hlive, hfrv, hshort]

/-- Line 6: the magic is not the configured one. -/
theorem execExtract_of_wrongMagic (hlive : s.phase.live = true) (hfrv : s.flags.frv = false)
    (hhd : parseHeader s.mem.rx = some hd) (hmagic : hd.magic ≠ s.cfg.magic) :
    execExtract s = .next (takeError .session (framerError .invalidMagic 0) s) := by
  obtain ⟨hlen, -, -⟩ := parseHeader_fields hhd
  simp [execExtract, phaseRefusal_live hlive, hfrv, not_lt.mpr hlen, hhd, hmagic]

/-- Line 7: the declared frame can never fit. -/
theorem execExtract_of_tooLarge (hlive : s.phase.live = true) (hfrv : s.flags.frv = false)
    (hhd : parseHeader s.mem.rx = some hd) (hmagic : hd.magic = s.cfg.magic)
    (hcap : ¬ withinCap s.cfg.rxcap (24 + hd.length.toNat)) :
    execExtract s = .next (takeError .session (framerError .frameTooLarge 16) s) := by
  obtain ⟨hlen, -, -⟩ := parseHeader_fields hhd
  simp [execExtract, phaseRefusal_live hlive, hfrv, not_lt.mpr hlen, hhd, hmagic,
    Bool.eq_false_iff, hcap]

/-- Line 8: the payload is not all there. -/
theorem execExtract_of_cut (hlive : s.phase.live = true) (hfrv : s.flags.frv = false)
    (hhd : parseHeader s.mem.rx = some hd) (hmagic : hd.magic = s.cfg.magic)
    (hcap : withinCap s.cfg.rxcap (24 + hd.length.toNat))
    (hcut : s.mem.rx.length < 24 + hd.length.toNat) :
    execExtract s = .next (s.emit .noFrameYet) := by
  obtain ⟨hlen, -, -⟩ := parseHeader_fields hhd
  simp [execExtract, phaseRefusal_live hlive, hfrv, not_lt.mpr hlen, hhd, hmagic,
    (fits_iff _ _).mpr hcap, hcut]

/-- Line 9: a whole frame stands at the head, and its checksum decides what becomes of it. -/
theorem execExtract_of_frame (hlive : s.phase.live = true) (hfrv : s.flags.frv = false)
    (hhead : FrameAtHead s f rest) (hcap : withinCap s.cfg.rxcap (24 + f.length.toNat)) :
    execExtract s =
      .next (extractFrame ⟨s.cfg.magic, f.command, f.length, f.checksum⟩ f.payload s) := by
  have hsized := hhead.sized
  simp only [Frame.sized, frameSized, Bool.and_eq_true, beq_iff_eq] at hsized
  obtain ⟨hcommand, hchecksum, -⟩ := hsized
  have hhd := parseHeader_frame s.cfg.magic f rest hhead.magic hcommand hchecksum
  have hpayload := memRead_frame_payload s.cfg.magic f rest hhead.magic hhead.sized
  have hlen := encodeFrame_length s.cfg.magic f hhead.magic hhead.sized
  rw [← hhead.rx] at hhd hpayload
  have hwhole : 24 + f.length.toNat ≤ s.mem.rx.length := by
    rw [hhead.rx, List.length_append]; omega
  obtain ⟨hheader, -, -⟩ := parseHeader_fields hhd
  simp [execExtract, phaseRefusal_live hlive, hfrv, not_lt.mpr hheader, hhd,
    (fits_iff _ _).mpr hcap, not_lt.mpr hwhole, hpayload]

/-- Line 10: exactly the frame's bytes leave `RX`. -/
theorem FrameAtHead.dropRx (hhead : FrameAtHead s f rest) :
    s.dropRx (24 + f.length.toNat) = s.setRx rest := by
  rw [← encodeFrame_length s.cfg.magic f hhead.magic hhead.sized, State.dropRx, hhead.rx,
    List.drop_left]

end

/-! ### EXTRACT (R161 to R167) -/

/-- Settles O26: the frame at the head passes the checksum test. -/
theorem extractTakesTheWholeFrame : Obligations.ExtractTakesTheWholeFrame := by
  intro s f rest hlive hfrv hmagic hsized hsum hcap hrx
  have hhead : FrameAtHead s f rest := ⟨hmagic, hsized, hrx⟩
  refine (execExtract_of_frame hlive hfrv hhead hcap).trans ?_
  simp only [extractFrame, hhead.dropRx, hsum.symm, ne_eq, not_true_eq_false, if_false]
  rfl

/-- Settles O27: the frame at the head fails the checksum test, its bytes already dropped. -/
theorem extractDropsFramesWithWrongChecksum : Obligations.ExtractDropsFramesWithWrongChecksum := by
  intro s f rest hlive hfrv hmagic hsized hsum hcap hrx
  have hhead : FrameAtHead s f rest := ⟨hmagic, hsized, hrx⟩
  refine (execExtract_of_frame hlive hfrv hhead hcap).trans ?_
  simp only [extractFrame, hhead.dropRx, ne_eq, hsum.symm, not_false_eq_true, if_true]
  rfl

/-- Settles O28: the magic is tested as soon as a header is there. -/
theorem wrongMagicEndsTheSession : Obligations.WrongMagicEndsTheSession := by
  intro s hlive hfrv hlen hmagic
  obtain ⟨hd, hhd, -⟩ := parseHeader_some hlen
  obtain ⟨-, hm, -⟩ := parseHeader_fields hhd
  exact execExtract_of_wrongMagic hlive hfrv hhd (hm ▸ hmagic)

/-- Settles O29: the declared length is tested before the payload is waited for. -/
theorem oversizedFramesEndTheSession : Obligations.OversizedFramesEndTheSession := by
  intro s c hlive hfrv hlen hmagic hc hover
  obtain ⟨hd, hhd, -⟩ := parseHeader_some hlen
  obtain ⟨-, hm, hn⟩ := parseHeader_fields hhd
  rw [← hn] at hover
  exact execExtract_of_tooLarge hlive hfrv hhd (hm.trans hmagic)
    fun hcap => not_le.mpr hover (hcap c hc)

/-- Settles O30: no header, or a header that passes its tests and a payload cut short. -/
theorem incompleteFramesWait : Obligations.IncompleteFramesWait := by
  intro s hlive hfrv hwait
  rcases hwait with hshort | ⟨hlen, hmagic, hcap, hcut⟩
  · exact execExtract_of_short hlive hfrv hshort
  · obtain ⟨hd, hhd, -⟩ := parseHeader_some hlen
    obtain ⟨-, hm, hn⟩ := parseHeader_fields hhd
    rw [← hn] at hcap hcut
    exact execExtract_of_cut hlive hfrv hhd (hm.trans hmagic) hcap hcut

/-! ### Re-entrancy (R164) -/

/-- A session that is receiving the valid frame `f`: what has arrived stands in `RX`, and `rem` is
still to come. -/
structure Receiving (s : State) (f : Frame) (rem : List Byte) : Prop where
  live : s.phase.live = true
  frv : s.flags.frv = false
  magic : s.cfg.magic.length = 4
  sized : f.sized = true
  checksum : f.checksum = checksum f.payload
  cap : withinCap s.cfg.rxcap (24 + f.length.toNat)
  bytes : s.mem.rx ++ rem = encodeFrame s.cfg.magic f

/-- `s` with `d` accepted by a FEED. -/
def State.fed (s : State) (d : List Byte) : State := (s.appendRx d).emit (.fed d.length)

section
variable {s : State} {f : Frame} {d rem : List Byte}

theorem Receiving.length (h : Receiving s f rem) :
    s.mem.rx.length + rem.length = 24 + f.length.toNat := by
  rw [← List.length_append, h.bytes, encodeFrame_length _ _ h.magic h.sized]

/-- `RX` has room for the whole frame, so FEED accepts a chunk of it whole. -/
theorem Receiving.execFeed (h : Receiving s f (d ++ rem)) : execFeed d s = .next (s.fed d) := by
  have hlen := h.length
  rw [List.length_append] at hlen
  have hfeed := feedAppendsWhatFits s d d.length h.live (fun _ => rfl) fun c hc => by
    have := h.cap c hc
    omega
  rw [List.take_length] at hfeed
  exact hfeed

/-- The chunk accepted, the session receives the rest of the frame. -/
theorem Receiving.fed (h : Receiving s f (d ++ rem)) : Receiving (s.fed d) f rem :=
  { h with bytes := (List.append_assoc ..).trans h.bytes }

theorem Receiving.emit (h : Receiving s f rem) (r : Record) : Receiving (s.emit r) f rem :=
  { h with }

/-- While bytes are missing EXTRACT waits: what has come is a proper head of the frame, so a header
in it is the frame's own. -/
theorem Receiving.execExtract_waits (h : Receiving s f rem) (hrem : rem ≠ []) :
    execExtract s = .next (s.emit .noFrameYet) := by
  have hcut : s.mem.rx.length < 24 + f.length.toNat := by
    have := h.length
    have := List.length_pos_of_ne_nil hrem
    omega
  refine incompleteFramesWait s h.live h.frv ?_
  by_cases hshort : s.mem.rx.length < 24
  · exact .inl hshort
  · have hwhole : FrameAtHead (s.appendRx rem) f [] := ⟨h.magic, h.sized, by simp [h.bytes]⟩
    obtain ⟨hmagic, hwholeLength⟩ := hwhole.layout
    rw [encodeFrame_length _ _ hwhole.magic h.sized] at hwholeLength
    have hfield (o : Nat) (ho : o ≤ 16) :
        (s.mem.rx.drop o).take 4 = ((encodeFrame s.cfg.magic f).drop o).take 4 := by
      rw [← h.bytes, List.drop_append_of_le_length (by omega),
        List.take_append_of_le_length (by rw [List.length_drop]; omega)]
    have hlength : 24 + leNat ((s.mem.rx.drop 16).take 4) = 24 + f.length.toNat := by
      rw [hfield 16 (le_refl _)]
      exact hwholeLength.symm
    rw [hlength]
    exact .inr ⟨not_lt.mp hshort, (hfield 0 (by omega)).trans hmagic, h.cap, hcut⟩

/-- With the last byte there EXTRACT delivers the frame. -/
theorem Receiving.execExtract_delivers (h : Receiving s f []) :
    execExtract s = .next ((((s.setRx []).setFr f).setFrv true).emit (.gotFrame f)) :=
  extractTakesTheWholeFrame s f [] h.live h.frv h.magic h.sized h.checksum h.cap
    (by rw [List.append_nil, ← h.bytes, List.append_nil])

end

/-- One chunk of R164's host program. -/
theorem pump_cons {s s1 s2 : State} {c : List Byte} (cs : List (List Byte))
    (hfeed : execFeed c s = .next s1) (hextract : execExtract s1 = .next s2) :
    pump (c :: cs) s = pump cs s2 := by
  simp only [pump, hfeed, hextract]

/-- R164 from any point of the frame on: `RX` holds what came before. -/
theorem pump_of_receiving {f : Frame} {c : List Byte} (hc : c ≠ []) (cs : List (List Byte)) :
    ∀ s, Receiving s f (cs.flatten ++ c) →
      pump (cs ++ [c]) s =
        .next
          { s with
            mem := { s.mem with rx := [], fr := f }
            flags := { s.flags with frv := true }
            out := s.out ++ cs.flatMap (fun d => [.fed d.length, .noFrameYet]) ++
              [.fed c.length, .gotFrame f] } := by
  induction cs with
  | nil =>
    intro s h
    replace h : Receiving s f (c ++ []) := by simpa using h
    refine (pump_cons [] h.execFeed h.fed.execExtract_delivers).trans ?_
    simp [pump, State.fed, State.appendRx, State.setRx, State.setFr, State.setFrv, State.emit]
  | cons d cs ih =>
    intro s h
    rw [List.flatten_cons, List.append_assoc] at h
    have hrem : cs.flatten ++ c ≠ [] := by simp [hc]
    refine (pump_cons (cs ++ [c]) h.execFeed (h.fed.execExtract_waits hrem)).trans ?_
    rw [ih _ (h.fed.emit _)]
    simp [State.fed, State.appendRx, State.setRx, State.emit]

/-- Settles O33: the law from an empty `RX` on. -/
theorem framerIsReentrant : Obligations.FramerIsReentrant := by
  intro s f cs c hlive hfrv hempty hmagic hsized hsum hcap hc hbytes
  exact pump_of_receiving hc cs s
    ⟨hlive, hfrv, hmagic, hsized, hsum, hcap, by rw [hempty, List.nil_append, hbytes]⟩

end Sys2Proof.Machine
end

section
/-! The checksum function (`spec/44_checksum_sha256.md`): the sizes of a padded message, a hash and a
checksum, and the examples of R185. -/

namespace Sys2Proof.Machine

/-! ### Sizes (R175, R178, R184) -/

/-- The parts of R178: the message, the 0x80, the zero bytes and the bit length. -/
theorem shaPad_length (m : List Byte) :
    (shaPad m).length = m.length + 1 + (119 - m.length % 64) % 64 + 8 := by
  simp only [shaPad, List.length_append, List.length_singleton, List.length_replicate, beBytes_length]

theorem shaPad_length_mod (m : List Byte) : (shaPad m).length % 64 = 0 := by
  rw [shaPad_length]
  omega

theorem shaPad_length_lt (m : List Byte) : (shaPad m).length < m.length + 73 := by
  rw [shaPad_length]
  omega

theorem prefix_shaPad (m : List Byte) : m <+: shaPad m := by
  simp only [shaPad, List.append_assoc]
  exact List.prefix_append ..

@[simp] theorem hashBytes_length (p : HashWords) : (hashBytes p).length = 32 := by
  simp [hashBytes]

@[simp] theorem sha256_length (m : List Byte) : (sha256 m).length = 32 := hashBytes_length _

@[simp] theorem hash256_length (m : List Byte) : (hash256 m).length = 32 := sha256_length _

@[simp] theorem checksum_length (m : List Byte) : (checksum m).length = 4 := by
  simp [checksum]

/-- Settles O60: each size from its own lemma. -/
theorem hashesHaveTheirSizes : Obligations.HashesHaveTheirSizes := fun m =>
  ⟨sha256_length m, checksum_length m, shaPad_length_mod m, shaPad_length_lt m,
    (List.prefix_iff_eq_take.mp (prefix_shaPad m)).symm⟩

/-! ### Examples (R185)

Each compression is evaluated once: the double hash of the empty message starts from its hash. -/

theorem sha256_nil :
    sha256 [] =
      [0xe3, 0xb0, 0xc4, 0x42, 0x98, 0xfc, 0x1c, 0x14, 0x9a, 0xfb, 0xf4, 0xc8, 0x99, 0x6f, 0xb9, 0x24,
       0x27, 0xae, 0x41, 0xe4, 0x64, 0x9b, 0x93, 0x4c, 0xa4, 0x95, 0x99, 0x1b, 0x78, 0x52, 0xb8, 0x55] := by
  decide +kernel

theorem sha256_abc :
    sha256 [0x61, 0x62, 0x63] =
      [0xba, 0x78, 0x16, 0xbf, 0x8f, 0x01, 0xcf, 0xea, 0x41, 0x41, 0x40, 0xde, 0x5d, 0xae, 0x22, 0x23,
       0xb0, 0x03, 0x61, 0xa3, 0x96, 0x17, 0x7a, 0x9c, 0xb4, 0x10, 0xff, 0x61, 0xf2, 0x00, 0x15, 0xad] := by
  decide +kernel

theorem hash256_nil :
    hash256 [] =
      [0x5d, 0xf6, 0xe0, 0xe2, 0x76, 0x13, 0x59, 0xd3, 0x0a, 0x82, 0x75, 0x05, 0x8e, 0x29, 0x9f, 0xcc,
       0x03, 0x81, 0x53, 0x45, 0x45, 0xf5, 0x5c, 0xf4, 0x3e, 0x41, 0x98, 0x3f, 0x5d, 0x4c, 0x94, 0x56] := by
  rw [hash256, sha256_nil]
  decide +kernel

theorem checksum_nil : checksum [] = [0x5d, 0xf6, 0xe0, 0xe2] := by
  rw [checksum, hash256_nil]
  rfl

/-- Settles O59: the hashes by evaluation, the checksum from the double hash. -/
theorem checksumExamples : Obligations.ChecksumExamples :=
  ⟨sha256_nil, sha256_abc, hash256_nil, checksum_nil⟩

end Sys2Proof.Machine
end

section
/-! The phases of a session (`spec/45_dispatch_handshake.md` R194, R202, R204): every change of
`PHASE` is one of the moves listed by `PhaseMove`, and the move into Handshook carries its flags. -/

namespace Sys2Proof.Machine

open Sys2Proof.Laws

section
variable {s t : State}

/-- Handling a frame leaves the phase, or is a handshake frame outside Handshook: it notes its own
flag and leaves the other, and the phase follows both (R192 to R194). -/
theorem FrameEffect.phase (h : FrameEffect s t) :
    t.phase = s.phase ∨
    (s.phase ≠ .handshook ∧ t.phase = updatePhase t.flags s.phase ∧
      ((t.flags.gotVersion = true ∧ t.flags.gotVerack = s.flags.gotVerack) ∨
        (t.flags.gotVersion = s.flags.gotVersion ∧ t.flags.gotVerack = true))) := by
  cases h with
  | ignored reason => exact .inl rfl
  | unknown => exact .inl rfl
  | version hph =>
    rw [finishVersion, handshakeStep_eq]
    exact .inr ⟨hph, rfl, .inl ⟨rfl, rfl⟩⟩
  | versionPeer v sv hph =>
    rw [finishVersion, handshakeStep_eq]
    exact .inr ⟨hph, rfl, .inl ⟨rfl, rfl⟩⟩
  | verack hph =>
    rw [handshakeStep_eq]
    exact .inr ⟨hph, rfl, .inr ⟨rfl, rfl⟩⟩
  | entity p x e n hx => exact .inl rfl
  | failed p x e hx hk => exact .inl (by simp [takeError_session, decodeKind_nonfatal hk])

/-- The moves of R204 that an operation makes. The one into Handshook says what the flags were and
are. -/
inductive PhaseMove (s t : State) : Instr → Prop
  | opened : s.phase = .init → t.phase = .versionSent → PhaseMove s t .connect
  | firstFrame : s.phase = .versionSent → t.phase = .awaitingVerack → PhaseMove s t .route
  | secondFrame : s.phase = .awaitingVerack → t.phase = .handshook →
      s.flags.gotVersion ≠ s.flags.gotVerack → t.flags.gotVersion = true →
      t.flags.gotVerack = true → PhaseMove s t .route
  | failed : s.phase.live = true → t.phase = .error → PhaseMove s t .extract
  | closed : s.phase ≠ .error → t.phase = .closed → PhaseMove s t .close

/-- Whether a handshake frame is the first or the second is what R46 says of the phase it meets. -/
theorem FrameEffect.phaseMove (h : FrameEffect (s.setFrv false) t) (hlive : s.phase.live = true)
    (hflags : phaseMatchesFlags s.phase s.flags = true) (hne : t.phase ≠ s.phase) :
    PhaseMove s t .route := by
  rcases h.phase with hsame | ⟨hph, hupdate, hset⟩
  · exact absurd hsame hne
  simp only [State.setFrv_phase, State.setFrv_flags] at hph hupdate hset
  rw [updatePhase_of_flag hlive hph] at hupdate
  cases hp : s.phase with
  | init | closed | error => rw [hp] at hlive; cases hlive
  | handshook => exact absurd hp hph
  | versionSent =>
    obtain ⟨hversion, hverack⟩ : s.flags.gotVersion = false ∧ s.flags.gotVerack = false := by
      simpa [hp, phaseMatchesFlags] using hflags
    have hone : (t.flags.gotVersion && t.flags.gotVerack) = false := by
      rcases hset with ⟨-, hk⟩ | ⟨hv, -⟩
      · rw [hk, hverack, Bool.and_false]
      · rw [hv, hversion, Bool.false_and]
    exact .firstFrame hp (by simpa [hone] using hupdate)
  | awaitingVerack =>
    by_cases hboth : (t.flags.gotVersion && t.flags.gotVerack) = true
    · rw [if_pos hboth] at hupdate
      have hflags : s.flags.gotVersion ≠ s.flags.gotVerack := by
        simpa [hp, phaseMatchesFlags] using hflags
      obtain ⟨hversion, hverack⟩ := Bool.and_eq_true_iff.mp hboth
      exact .secondFrame hp hupdate hflags hversion hverack
    · rw [if_neg hboth] at hupdate
      exact absurd (hupdate.trans hp.symm) hne

/-- Outside the live phases EXTRACT is refused, and a refusal moves nothing (R222, R235). -/
theorem live_of_execExtract (h : execExtract s = .next t) (hne : t.phase ≠ s.phase) :
    s.phase.live = true := by
  unfold execExtract at h
  split at h
  · cases h; exact absurd rfl hne
  next hlive => exact (phaseRefusal_eq_none_iff _).mp hlive

/-- Every operation that changes the phase makes a listed move. -/
theorem OpEffect.phaseMove {i : Instr} (h : OpEffect s i t) (hexec : exec i s = .next t)
    (hs : s.inv = true) (hne : t.phase ≠ s.phase) : PhaseMove s t i := by
  obtain ⟨-, hst⟩ := (inv_iff s).mp hs
  cases h with
  | refused | fed | waiting | delivered | decoded => exact absurd rfl hne
  | connected hph => exact .opened hph rfl
  | unframed k o hfrv hk =>
    exact .failed (live_of_execExtract hexec hne) (by simp [takeError_session, framerError, hk])
  | dropped f rest hhead =>
    exact absurd (by simp [takeError_session, framerError, ErrKind.fatal]) hne
  | routed hlive hframe => exact hframe.phaseMove hlive hst.flags hne
  | closed =>
    by_cases hp : s.phase = .error
    · exact absurd ((if_pos hp).trans hp.symm) hne
    · exact .closed hp (if_neg hp)

/-- Every step that changes the phase is a reset or makes a listed move. -/
theorem step_phaseMove (hs : s.inv = true) (h : step s = .next t) (hne : t.phase ≠ s.phase) :
    (resets s ∧ t.phase = .init) ∨
      ∃ i, performs s i ∧ PhaseMove (s.setCmd s.cmd.tail) t i := by
  rcases step_cases h with ⟨-, rfl⟩ | ⟨rest, hc, rfl⟩ | ⟨w, rest, i, hc, hw, hi⟩
  · exact absurd rfl hne
  · exact .inl ⟨⟨rest, hc⟩, rfl⟩
  · have hexec : exec i (s.setCmd s.cmd.tail) = .next t := by rw [hc]; exact hi
    have hop := execEffect_of_decodeOp hw (exec_effect hexec)
    exact .inr ⟨i, ⟨w, rest, hc, hw⟩, hop.phaseMove hexec hs hne⟩

end

/-- Settles O48: the list of moves, each at its operation. -/
theorem phaseMovesOnlyAsListed : Obligations.PhaseMovesOnlyAsListed := by
  intro s t hs h hne
  rcases step_phaseMove hs h hne with hreset | ⟨i, hi, hmove⟩
  · exact .inl hreset
  · cases hmove with
    | opened hp ht => exact .inr (.inl ⟨hi, hp, ht⟩)
    | firstFrame hp ht => exact .inr (.inr (.inl ⟨hi, hp, ht⟩))
    | secondFrame hp ht => exact .inr (.inr (.inr (.inl ⟨hi, hp, ht⟩)))
    | failed hp ht => exact .inr (.inr (.inr (.inr (.inl ⟨hi, hp, ht⟩))))
    | closed hp ht => exact .inr (.inr (.inr (.inr (.inr ⟨hi, hp, ht⟩))))

/-- Settles O46: of the moves only that of the second handshake frame ends in Handshook. -/
theorem handshookNeedsBothFrames : Obligations.HandshookNeedsBothFrames := by
  intro s t hs h ht hp
  have hne : t.phase ≠ s.phase := fun hsame => hp (hsame.symm.trans ht)
  rcases step_phaseMove hs h hne with ⟨-, hinit⟩ | ⟨i, hi, hmove⟩
  · exact absurd (hinit.symm.trans ht) nofun
  · cases hmove with
    | secondFrame _ _ hone hversion hverack => exact ⟨hi, hone, hversion, hverack⟩
    | opened _ h' | firstFrame _ h' | failed _ h' | closed _ h' =>
      exact absurd (h'.symm.trans ht) nofun

end Sys2Proof.Machine
end

section
/-! The dispatch gate and the session operations (`spec/45_dispatch_handshake.md`): CONNECT and
CLOSE, what each kind of frame does, and ROUTE as the run of its frame's instruction. -/

namespace Sys2Proof.Machine

open Sys2Proof.Laws

/-! ### CONNECT and CLOSE (R190, R200) -/

/-- Settles O37: CONNECT tests the phase only. -/
theorem connectOpensTheSession : Obligations.ConnectOpensTheSession := by
  refine ⟨rfl, fun s => ⟨fun hinit => ?_, fun hph => if_neg hph⟩⟩
  refine (if_pos hinit).trans ?_
  simp [State.setPhase, State.emit]

/-- Settles O38: CLOSE has no test. -/
theorem closeEndsTheSession : Obligations.CloseEndsTheSession := ⟨rfl, fun _ => rfl⟩

/-! ### Handshake frames (R192 to R194, R199) -/

/-- The peer fields stand at fixed offsets of a payload that has them (R28, R106). -/
theorem readPeer_eq {p : List Byte} (h : 12 ≤ p.length) :
    readPeer p = some (BitVec.ofNat 32 (leNat (p.take 4)),
      BitVec.ofNat 64 (leNat ((p.drop 4).take 8))) := by
  simp only [readPeer, memRead_eq_some (show 0 + 4 ≤ p.length by omega),
    memRead_eq_some (show 4 + 8 ≤ p.length by omega), List.drop_zero]

/-- The phase after a `version` frame turns on the other flag only (R194). -/
theorem updatePhase_of_gotVersion {f : Flags} (p : Phase) (h : f.gotVersion = true) :
    updatePhase f p =
      if f.gotVerack then .handshook else if p = .versionSent then .awaitingVerack else p := by
  rw [updatePhase, h, Bool.true_and]

/-- The same after a `verack` frame. -/
theorem updatePhase_of_gotVerack {f : Flags} (p : Phase) (h : f.gotVerack = true) :
    updatePhase f p =
      if f.gotVersion then .handshook else if p = .versionSent then .awaitingVerack else p := by
  rw [updatePhase, h, Bool.and_true]

/-- A counted `version` frame, `ph` being the phase that follows it (R192, R194). -/
theorem finishVersion_eq {s : State} {ph : Phase}
    (h : ph = if s.flags.gotVerack then .handshook
      else if s.phase = .versionSent then .awaitingVerack else s.phase) :
    finishVersion s =
      { s with
        flags := { s.flags with gotVersion := true }
        phase := ph
        out := s.out ++ [.verackReq, .handshake .version ph] } := by
  rw [finishVersion, handshakeStep_eq, updatePhase_of_gotVersion s.phase rfl, ← h]
  simp

section
variable {s : State} {n : Word32} {c p : List Byte}

theorem execMsgVersion_of_long (hph : s.phase ≠ .handshook) (hlen : 12 ≤ n.toNat)
    (hp : p.length = n.toNat) :
    execMsgVersion n c p s =
      .next (finishVersion (s.setPeer (BitVec.ofNat 32 (leNat (p.take 4)))
        (BitVec.ofNat 64 (leNat ((p.drop 4).take 8))))) := by
  simp only [execMsgVersion, hph, hlen, readPeer_eq (hp ▸ hlen), if_false, if_true]

theorem execMsgVersion_of_short (hph : s.phase ≠ .handshook) (hlen : n.toNat < 12) :
    execMsgVersion n c p s = .next (finishVersion s) := by
  simp only [execMsgVersion, hph, not_le.mpr hlen, if_false]

end

/-- Settles O41: the peer fields, where the payload has them, and then the handshake step. -/
theorem versionFramesRecordThePeer : Obligations.VersionFramesRecordThePeer := by
  intro s n c p ph hph hp hnext
  refine ⟨fun hlen => ?_, fun hlen => ?_⟩
  · refine (execMsgVersion_of_long (c := c) hph (hp ▸ hlen) hp).trans ?_
    rw [finishVersion_eq (s := s.setPeer _ _) hnext]
    rfl
  · refine (execMsgVersion_of_short (c := c) hph (hp ▸ hlen)).trans ?_
    rw [finishVersion_eq hnext]

/-- Settles O42: the handshake step, with no request. -/
theorem verackFramesAreNoted : Obligations.VerackFramesAreNoted := by
  intro s n c p ph hph hnext
  refine (if_neg hph).trans ?_
  rw [handshakeStep_eq, updatePhase_of_gotVerack s.phase rfl, ← hnext, List.append_nil]

/-! ### Dropped frames (R197 to R199) -/

/-- Settles O43: the gate and the late handshake frames are the phase test of each form. -/
theorem droppedFramesChangeOnlyTheTraceAndErrorMask :
    Obligations.DroppedFramesChangeOnlyTheTraceAndErrorMask := by
  intro s n cmd c p
  exact ⟨fun hph => ⟨if_neg hph, if_neg hph⟩, fun hph => ⟨if_pos hph, if_pos hph⟩, rfl⟩

/-! ### ROUTE (R191) -/

/-- Handling a frame is running the instruction its command field selects (R97, log 17). -/
theorem routeFrame_eq_exec (f : Frame) (s : State) : routeFrame f s = exec (frameInstr f) s := by
  unfold routeFrame frameInstr
  cases selectCommand f.command <;> rfl

/-- ROUTE with a frame there: the frame is consumed and handled. -/
theorem execRoute_of_frame {s : State} (hlive : s.phase.live = true) (hfrv : s.flags.frv = true) :
    execRoute s = routeFrame s.mem.fr (s.setFrv false) := by
  simp only [execRoute, phaseRefusal_live hlive, hfrv, if_true]

/-- Settles O39: ROUTE hands the frame on, with `FRV` cleared. -/
theorem routeRunsTheFramesInstruction : Obligations.RouteRunsTheFramesInstruction :=
  fun s hlive hfrv => (execRoute_of_frame hlive hfrv).trans (routeFrame_eq_exec s.mem.fr _)

theorem next_of_answersNext {o : Host.Outcome State Fault Refusal} (h : answersNext o = true) :
    ∃ t, o = .next t := by
  cases o with
  | next t => exact ⟨t, rfl⟩
  | fault | refused => cases h

/-- ROUTE of a frame with the payload it declares answers, with an effect of that frame. -/
theorem execRoute_routes {s : State} (hlive : s.phase.live = true) (hfrv : s.flags.frv = true)
    (hfr : s.mem.fr.sized = true) :
    ∃ t, execRoute s = .next t ∧ FrameEffect (s.setFrv false) t := by
  simp only [Frame.sized, Bool.and_eq_true] at hfr
  obtain ⟨t, ht⟩ := next_of_answersNext
    (routeFrame_answersNext (s.setFrv false) (frameSized_payload hfr.2))
  exact ⟨t, (execRoute_of_frame hlive hfrv).trans ht, routeFrame_effect ht⟩

section
variable {s t : State}

/-- Handling a frame writes neither `FR` nor `FRV` (R32). -/
theorem FrameEffect.fr_frv (h : FrameEffect s t) :
    t.mem.fr = s.mem.fr ∧ t.flags.frv = s.flags.frv := by
  cases h with
  | ignored | unknown | entity => exact ⟨rfl, rfl⟩
  | version | versionPeer => rw [finishVersion, handshakeStep_eq]; exact ⟨rfl, rfl⟩
  | verack => rw [handshakeStep_eq]; exact ⟨rfl, rfl⟩
  | failed => rw [takeError_session]; exact ⟨rfl, rfl⟩

/-- No frame ends the session (R215, R232). -/
theorem FrameEffect.live (h : FrameEffect s t) (hlive : s.phase.live = true) :
    t.phase.live = true := by
  rcases h.phase with hsame | ⟨hph, hupdate, -⟩
  · rw [hsame]; exact hlive
  · rw [hupdate, updatePhase_of_flag hlive hph]
    split <;> rfl

end

/-- Settles O40: the effect of the frame, field by field. -/
theorem routeConsumesEveryFrame : Obligations.RouteConsumesEveryFrame := by
  intro s hlive hfrv hfr
  obtain ⟨t, hroute, hframe⟩ := execRoute_routes hlive hfrv hfr
  obtain ⟨hfr, hfrv⟩ := hframe.fr_frv
  obtain ⟨hcfg, hcmd⟩ := hframe.cfg_cmd
  obtain ⟨rs, r, hout, hr, hrs⟩ := hframe.out
  exact ⟨t, hroute, hfrv, hframe.rx, hfr, hcfg, hcmd, hframe.live hlive, rs, r, hout, hrs, hr⟩

/-! ### Routed decodes (R195, R196, R231, R232) -/

/-- In Handshook the two decoding forms run their decoder over the payload (R195, R196). -/
theorem exec_msgTx_of_handshook {s : State} (n : Word32) (c p : List Byte)
    (hph : s.phase = .handshook) :
    exec (.msgTx n c p) s =
      finishDecode .session txRecord (txDecode p (s.openWindow p).x) (s.openWindow p) :=
  if_pos hph

theorem exec_msgBlock_of_handshook {s : State} (n : Word32) (c p : List Byte)
    (hph : s.phase = .handshook) :
    exec (.msgBlock n c p) s =
      finishDecode .session blockRecord (blockDecode p (s.openWindow p).x) (s.openWindow p) :=
  if_pos hph

/-- Settles O44: the decoders answer what stands at the head of the payload. -/
theorem routedEntitiesAreDelivered : Obligations.RoutedEntitiesAreDelivered := by
  intro s n c b r t k hph
  refine ⟨fun ht => ?_, fun hk => ?_⟩
  · obtain ⟨x, hdec, -⟩ := txDecode_complete (openWindow_ready s (b ++ r)) rfl ht
    exact ⟨x, by rw [exec_msgTx_of_handshook n c _ hph, hdec]; rfl⟩
  · obtain ⟨x, hdec, -⟩ := blockDecode_complete (openWindow_ready s (b ++ r)) rfl hk
    exact ⟨x, by rw [exec_msgBlock_of_handshook n c _ hph, hdec]; rfl⟩

/-- A decode reported under the session differs from the stand-alone one by the bits its error sets,
of which `P` holds, and by none when it has a value. -/
theorem finishDecode_session_standAlone {α : Type} {P : ErrInfo → BitVec 7 → Prop} {d : Decoded α}
    {k : Nat} {rec : α → Record} (hrec : ∀ a, ∃ e n, rec a = .entity e n) (hd : d.Ends k)
    (herr : ∀ e x, d = .raise e x → P e (errBits e)) (s : State) :
    ∃ t r m, finishDecode .standAlone rec d s = .next t ∧ t.out = s.out ++ [r] ∧
      finishDecode .session rec d s = .next { t with errSeen := s.errSeen ||| m } ∧
      ((∃ e, r = .err e ∧ P e m) ∨ (∃ e n, r = .entity e n ∧ m = 0)) := by
  cases d with
  | ok a x =>
    obtain ⟨e, n, he⟩ := hrec a
    refine ⟨(s.setX x).emit (rec a), rec a, 0, rfl, rfl, ?_, .inr ⟨e, n, he, rfl⟩⟩
    simp [finishDecode, State.setX, State.emit]
  | raise e x =>
    refine ⟨(s.setX x).emit (.err e), .err e, errBits e, rfl, rfl, ?_,
      .inl ⟨e, rfl, herr e x rfl⟩⟩
    simp [finishDecode, takeError_session, decodeKind_nonfatal hd.2, State.setX, State.emit]
  | outside f => exact hd.elim

/-- The bits of an error of a transaction: its own kind's (R196). -/
theorem errBits_of_plainError {e : ErrInfo} (h : PlainError e) :
    (e.kind = .truncatedInput ∧ errBits e = 0x02) ∨
      (e.kind = .malformedVarInt ∧ errBits e = 0x04) := by
  obtain ⟨hkind, hcause, -⟩ := h
  rcases hkind with hk | hk
  · exact .inl ⟨hk, by rw [errBits, hk, hcause]; rfl⟩
  · exact .inr ⟨hk, by rw [errBits, hk, hcause]; rfl⟩

/-- The bits of an error of a block: bit 1, and bit 2 for that cause (R195). -/
theorem errBits_of_blockError {e : ErrInfo} (h : BlockError e) :
    e.kind = .truncatedInput ∧
      (e.cause = some .malformedVarInt ∧ errBits e = 0x06 ∨
        e.cause ≠ some .malformedVarInt ∧ errBits e = 0x02) := by
  obtain ⟨hkind, -⟩ := h
  refine ⟨hkind, ?_⟩
  by_cases hcause : e.cause = some .malformedVarInt
  · exact .inl ⟨hcause, by rw [errBits, hkind, if_pos hcause]; rfl⟩
  · exact .inr ⟨hcause, by rw [errBits, hkind, if_neg hcause]; rfl⟩

/-- Settles O45: both operations end the same decode of the same window. -/
theorem routedDecodesAgreeWithStandAlone : Obligations.RoutedDecodesAgreeWithStandAlone := by
  intro s n c p hph hinf
  have hx := openWindow_ready s p
  have hcap : withinCap s.cfg.wcap p.length := by rw [hinf]; exact nofun
  constructor
  · rw [exec_txdec_of_fits hcap, exec_msgTx_of_handshook n c p hph]
    refine finishDecode_session_standAlone (fun a => ⟨.tx a.1, a.2, rfl⟩) (txDecode_ends hx)
      (fun e x hdec => ?_) (s.openWindow p)
    have hsound := txDecode_sound hx
    rw [hdec] at hsound
    exact errBits_of_plainError hsound.2
  · rw [exec_blkdec_of_fits hcap, exec_msgBlock_of_handshook n c p hph]
    refine finishDecode_session_standAlone (fun a => ⟨.block a.1, a.2, rfl⟩) (blockDecode_ends hx)
      (fun e x hdec => ?_) (s.openWindow p)
    have hsound := blockDecode_sound hx
    rw [hdec] at hsound
    obtain ⟨-, -, -, herr⟩ := hsound
    exact errBits_of_blockError herr

/-! ### The gate (R198, R202) -/

/-- The last record of `OUT` is the last operation's result (R36, R37). -/
theorem result_of_out {t : State} {l : List Record} {r : Record} (h : t.out = l ++ [r]) :
    t.result = some r := by
  rw [State.result, h, List.getLast?_concat]

theorem handshakeStep_result (f : Flags) (rs : List Record) (c : HandshakeCmd) (s : State) :
    ∃ p, (handshakeStep f rs c s).result = some (.handshake c p) :=
  ⟨_, result_of_out (by rw [handshakeStep_eq])⟩

section
variable {s t : State}

/-- Before Handshook a `version` frame is always counted (R192). -/
theorem finishVersion_of_execMsgVersion {n : Word32} {c p : List Byte} (hph : s.phase ≠ .handshook)
    (h : execMsgVersion n c p s = .next t) : ∃ u, t = finishVersion u := by
  rw [execMsgVersion, if_neg hph] at h
  split at h
  · split at h
    · cases h
    · cases h; exact ⟨_, rfl⟩
  · cases h; exact ⟨_, rfl⟩

/-- Before Handshook a frame's result is a handshake step or that it was ignored: `block` and `tx`
frames stop at the gate. -/
theorem routeFrame_result {f : Frame} (hph : s.phase ≠ .handshook)
    (h : routeFrame f s = .next t) :
    (∃ c p, t.result = some (.handshake c p)) ∨ ∃ reason, t.result = some (.ignored reason) := by
  unfold routeFrame at h
  split at h
  · obtain ⟨u, rfl⟩ := finishVersion_of_execMsgVersion hph h
    exact .inl ⟨.version, handshakeStep_result _ _ _ u⟩
  · rw [execMsgVerack, if_neg hph] at h
    cases h
    exact .inl ⟨.verack, handshakeStep_result _ _ _ s⟩
  · rw [execMsgBlock, if_neg hph] at h
    cases h
    exact .inr ⟨.gated, result_of_out rfl⟩
  · rw [execMsgTx, if_neg hph] at h
    cases h
    exact .inr ⟨.gated, result_of_out rfl⟩
  · cases h
    exact .inr ⟨.unknownCommand, result_of_out rfl⟩

end

/-- Settles O47: an entity is no result that a frame has before Handshook, and no refusal. -/
theorem entitiesAreRoutedOnlyInHandshook : Obligations.EntitiesAreRoutedOnlyInHandshook := by
  intro s t e c h hout
  have hentity := result_of_out hout
  by_contra hph
  replace h : execRoute s = .next t := h
  unfold execRoute at h
  split at h
  · cases h
    simp at hout
  split at h
  · rcases routeFrame_result (s := s.setFrv false) hph h with ⟨k, p, hr⟩ | ⟨reason, hr⟩
    · simp [hentity] at hr
    · simp [hentity] at hr
  · cases h
    simp at hout

end Sys2Proof.Machine
end

section
/-! The pseudo-operation DATA (`spec/45_dispatch_handshake.md` R201, `spec/70_reset_and_hazards.md`
R275): what one turn of each of its loops does, and the two inductions on their counts. A turn of
the drain loop that goes on takes at least the 24 bytes of a header, and when the loop ends there is
room in `RX` again, so every FEED after the first accepts a byte. -/

namespace Sys2Proof.Machine

open Sys2Proof.Laws

/-! ### Stretches of a run -/

/-- Between `s` and `t` the bytes `a` were accepted behind those that waited in `RX`, and whole
frames left from the head of that stream, the valid ones delivered. -/
structure Stretch (a : List Byte) (s t : State) : Prop where
  cfg : t.cfg = s.cfg
  trace : ∃ rs gone, t.out = s.out ++ rs ∧ fedBytes rs = a.length ∧
    s.mem.rx ++ a = gone ++ t.mem.rx ∧ FrameStream s.cfg.magic gone (deliveredFrames rs)

/-- A session between two turns of DATA: a live phase and no frame unrouted. -/
structure Idle (s : State) : Prop where
  live : s.phase.live = true
  frv : s.flags.frv = false
  cfg : s.cfg.wf = true
  mem : Memory.wf s.cfg s.mem = true

/-- `RX` is not full. -/
def State.HasRoom (s : State) : Prop := ∀ c, s.cfg.rxcap = some c → s.mem.rx.length < c

/-- EXTRACT has answered `None`. -/
structure Waiting (s : State) : Prop extends Idle s where
  result : s.result = some .noFrameYet
  room : s.HasRoom

section
variable {s t u : State} {a b : List Byte}

theorem Stretch.trans (h : Stretch a s t) (g : Stretch b t u) : Stretch (a ++ b) s u := by
  obtain ⟨rs, gone, hout, hfed, hrx, hstream⟩ := h.trace
  obtain ⟨rs', gone', hout', hfed', hrx', hstream'⟩ := g.trace
  refine ⟨g.cfg.trans h.cfg, rs ++ rs', gone ++ gone', ?_, ?_, ?_, ?_⟩
  · rw [hout', hout, List.append_assoc]
  · rw [fedBytes_append, hfed, hfed', List.length_append]
  · rw [← List.append_assoc, hrx, List.append_assoc, hrx', List.append_assoc]
  · rw [deliveredFrames_append]
    exact hstream.append (h.cfg ▸ hstream')

/-- Nothing is accepted and nothing leaves. -/
theorem stretch_of_rx_eq {rs : List Record} (hcfg : t.cfg = s.cfg) (hrx : t.mem.rx = s.mem.rx)
    (hout : t.out = s.out ++ rs) (hfed : fedBytes rs = 0) (hframes : deliveredFrames rs = []) :
    Stretch [] s t :=
  ⟨hcfg, rs, [], hout, hfed, by simp [hrx], hframes ▸ .nil⟩

theorem stretch_takeError (e : ErrInfo) (s : State) : Stretch [] s (takeError .session e s) := by
  rw [takeError_session]
  exact stretch_of_rx_eq rfl rfl rfl rfl rfl

theorem stretch_fed (a : List Byte) (s : State) : Stretch a s (s.fed a) :=
  ⟨rfl, [.fed a.length], [], rfl, rfl, rfl, .nil⟩

/-! ### ROUTE (R191) -/

/-- No record of a routed frame counts bytes or delivers a frame. -/
theorem FrameEffect.stretch (h : FrameEffect s t) : Stretch [] s t := by
  have hquiet : ∃ rs, t.out = s.out ++ rs ∧ fedBytes rs = 0 ∧ deliveredFrames rs = [] := by
    cases h with
    | ignored | unknown | entity => exact ⟨_, rfl, rfl, rfl⟩
    | version | versionPeer =>
      rw [finishVersion, handshakeStep_eq]
      exact ⟨_, List.append_assoc .., rfl, rfl⟩
    | verack => rw [handshakeStep_eq]; exact ⟨_, List.append_assoc .., rfl, rfl⟩
    | failed => rw [takeError_session]; exact ⟨_, rfl, rfl, rfl⟩
  obtain ⟨rs, hout, hfed, hframes⟩ := hquiet
  exact stretch_of_rx_eq h.cfg_cmd.1 h.rx hout hfed hframes

theorem FrameEffect.idle (h : FrameEffect s t) (hs : Idle s) : Idle t := by
  obtain ⟨hcfg, -⟩ := h.cfg_cmd
  obtain ⟨hfr, hfrv⟩ := h.fr_frv
  have hmem := hs.mem
  rw [memory_wf_iff] at hmem
  refine ⟨h.live hs.live, hfrv.trans hs.frv, hcfg ▸ hs.cfg, ?_⟩
  rw [memory_wf_iff, hcfg, h.rx, hfr]
  exact hmem

/-! ### EXTRACT (R161) -/

theorem Idle.magic (h : Idle s) : s.cfg.magic.length = 4 := by
  have hcfg := h.cfg
  simp only [Config.wf, Bool.and_eq_true, beq_iff_eq] at hcfg
  exact hcfg.1.1

/-- A buffer that holds less than a header is not full (R7). -/
theorem Idle.hasRoom_of_short (h : Idle s) (hshort : s.mem.rx.length < 24) : s.HasRoom := by
  intro c hc
  have hcfg := h.cfg
  simp only [Config.wf, hc, Bool.and_eq_true, decide_eq_true_eq] at hcfg
  omega

/-- Everything an EXTRACT of DATA can do: it is never refused, and it waits only where more bytes
can come. -/
inductive ExtractTurn (s : State) : State → Prop
  | waits : s.HasRoom → ExtractTurn s (s.emit .noFrameYet)
  | fails (k : ErrKind) (o : Nat) : k.fatal = true →
      ExtractTurn s (takeError .session (framerError k o) s)
  | drops {f : Frame} {rest : List Byte} : FrameAtHead s f rest →
      f.checksum ≠ checksum f.payload →
      ExtractTurn s (takeError .session (framerError .checksumMismatch 20) (s.setRx rest))
  | delivers {f : Frame} {rest : List Byte} : FrameAtHead s f rest →
      f.checksum = checksum f.payload →
      ExtractTurn s ((((s.setRx rest).setFr f).setFrv true).emit (.gotFrame f))

theorem Idle.extractTurn (h : Idle s) : ∃ t, execExtract s = .next t ∧ ExtractTurn s t := by
  by_cases hshort : s.mem.rx.length < 24
  · exact ⟨_, execExtract_of_short h.live h.frv hshort, .waits (h.hasRoom_of_short hshort)⟩
  have hlen := not_lt.mp hshort
  obtain ⟨hd, hhd, -⟩ := parseHeader_some hlen
  by_cases hmagic : hd.magic = s.cfg.magic
  swap
  · exact ⟨_, execExtract_of_wrongMagic h.live h.frv hhd hmagic, .fails _ _ rfl⟩
  by_cases hcap : withinCap s.cfg.rxcap (24 + hd.length.toNat)
  swap
  · exact ⟨_, execExtract_of_tooLarge h.live h.frv hhd hmagic hcap, .fails _ _ rfl⟩
  by_cases hcut : s.mem.rx.length < 24 + hd.length.toNat
  · exact ⟨_, execExtract_of_cut h.live h.frv hhd hmagic hcap hcut,
      .waits fun c hc => hcut.trans_le (hcap c hc)⟩
  have hhead := frameAtHead_of_parseHeader hlen hhd hmagic (memRead_eq_some (not_lt.mp hcut))
  by_cases hsum : hd.checksum = checksum ((s.mem.rx.drop 24).take hd.length.toNat)
  · exact ⟨_, extractTakesTheWholeFrame s _ _ h.live h.frv h.magic hhead.sized hsum hcap hhead.rx,
      .delivers hhead hsum⟩
  · refine ⟨_, (extractDropsFramesWithWrongChecksum s _ _ h.live h.frv h.magic hhead.sized hsum hcap
      hhead.rx).trans ?_, .drops hhead hsum⟩
    rw [takeError_session]
    rfl

theorem FrameAtHead.rest_length {f : Frame} {rest : List Byte} (h : FrameAtHead s f rest) :
    rest.length + 24 ≤ s.mem.rx.length := by
  rw [h.rx, List.length_append, encodeFrame_length _ _ h.magic h.sized]
  omega

/-! ### The drain loop (R201) -/

section
variable {n : Nat} {removed : Bool}

theorem drain_of_stop (hextract : execExtract s = .next t) (hturn : drainTurn t.result = .stop) :
    drain (n + 1) removed s = .next (t, removed) := by
  simp only [drain, hextract, hturn]

theorem drain_of_again (hextract : execExtract s = .next t) (hturn : drainTurn t.result = .again) :
    drain (n + 1) removed s = drain n true t := by
  simp only [drain, hextract, hturn]

theorem drain_of_route (hextract : execExtract s = .next t) (hturn : drainTurn t.result = .route)
    (hroute : execRoute t = .next u) : drain (n + 1) removed s = drain n true u := by
  simp only [drain, hextract, hturn, hroute]

end

/-- The result record of a taken error decides the turn by its kind. -/
theorem drainTurn_takeError (e : ErrInfo) (s : State) :
    drainTurn (takeError .session e s).result =
      if e.kind = .checksumMismatch then .again else .stop := by
  rw [result_of_out (l := s.out) (r := .err e) (by rw [takeError_session])]
  rfl

theorem Idle.dropped {f : Frame} {rest : List Byte} (h : Idle s) (hhead : FrameAtHead s f rest) :
    Idle (takeError .session (framerError .checksumMismatch 20) (s.setRx rest)) := by
  rw [takeError_session]
  exact ⟨h.live, h.frv, h.cfg, hhead.rest_wf h.mem⟩

theorem FrameAtHead.stretch_dropped {f : Frame} {rest : List Byte} (hhead : FrameAtHead s f rest)
    (hsum : f.checksum ≠ checksum f.payload) :
    Stretch [] s (takeError .session (framerError .checksumMismatch 20) (s.setRx rest)) := by
  rw [takeError_session]
  refine ⟨rfl, [.err (framerError .checksumMismatch 20)], encodeFrame s.cfg.magic f ++ [], rfl, rfl,
    ?_, .dropped hhead.sized hsum .nil⟩
  simpa using hhead.rx

/-- `s` after frame `f` was delivered and `FRV` cleared again, as the handling of the frame
meets it. -/
def State.consumed (s : State) (f : Frame) (rest : List Byte) : State :=
  ((((s.setRx rest).setFr f).setFrv true).emit (.gotFrame f)).setFrv false

theorem Idle.consumed {f : Frame} {rest : List Byte} (h : Idle s) (hhead : FrameAtHead s f rest) :
    Idle (s.consumed f rest) :=
  ⟨h.live, rfl, h.cfg, setFr_wf (s := s.setRx rest) (hhead.rest_wf h.mem) hhead.sized⟩

theorem FrameAtHead.stretch_consumed {f : Frame} {rest : List Byte} (hhead : FrameAtHead s f rest)
    (hsum : f.checksum = checksum f.payload) : Stretch [] s (s.consumed f rest) := by
  refine ⟨rfl, [.gotFrame f], encodeFrame s.cfg.magic f ++ [], rfl, rfl, ?_,
    .valid hhead.sized hsum .nil⟩
  rw [List.append_nil, List.append_nil]
  exact hhead.rx

/-- One turn of the drain loop: it stops, or takes a frame and goes on. -/
theorem Idle.drain_turn (h : Idle s) (n : Nat) (removed : Bool) :
    (∃ t, drain (n + 1) removed s = .next (t, removed) ∧ Stretch [] s t ∧ t.mem.rx = s.mem.rx ∧
      (t.phase = .error ∨ Waiting t)) ∨
    (∃ t, drain (n + 1) removed s = drain n true t ∧ Stretch [] s t ∧ Idle t ∧
      t.mem.rx.length + 24 ≤ s.mem.rx.length) := by
  obtain ⟨t, hextract, hturn⟩ := h.extractTurn
  cases hturn with
  | waits hroom =>
    have hresult : (s.emit .noFrameYet).result = some .noFrameYet := result_of_out rfl
    exact .inl ⟨_, drain_of_stop hextract (by rw [hresult]; rfl),
      stretch_of_rx_eq (rs := [.noFrameYet]) rfl rfl rfl rfl rfl, rfl,
      .inr ⟨⟨h.live, h.frv, h.cfg, h.mem⟩, hresult, hroom⟩⟩
  | fails k o hk =>
    have hstop : k ≠ .checksumMismatch := by rintro rfl; cases hk
    refine .inl ⟨_, drain_of_stop hextract ?_, stretch_takeError _ s, ?_, .inl ?_⟩
    · rw [drainTurn_takeError]
      exact if_neg hstop
    · rw [takeError_session]
    · rw [takeError_session]
      exact if_pos hk
  | drops hhead hsum =>
    refine .inr ⟨_, drain_of_again hextract (drainTurn_takeError _ _), hhead.stretch_dropped hsum,
      h.dropped hhead, ?_⟩
    rw [takeError_session]
    exact hhead.rest_length
  | @delivers f rest hhead hsum =>
    obtain ⟨u, hroute, hframe⟩ := execRoute_routes
      (s := (((s.setRx rest).setFr f).setFrv true).emit (.gotFrame f)) h.live rfl hhead.sized
    have hframe : FrameEffect (s.consumed f rest) u := hframe
    refine .inr ⟨u, drain_of_route hextract (by rw [result_of_out rfl]; rfl) hroute,
      (hhead.stretch_consumed hsum).trans hframe.stretch, hframe.idle (h.consumed hhead), ?_⟩
    rw [hframe.rx]
    exact hhead.rest_length

/-- The loop ends by itself when its count covers what `RX` can hold of headers. -/
theorem Idle.drain_ends (n : Nat) : ∀ (s : State) (removed : Bool), Idle s →
    s.mem.rx.length < 24 * n →
    ∃ t removed', drain n removed s = .next (t, removed') ∧ Stretch [] s t ∧
      (t.phase = .error ∨ Waiting t) ∧
      (removed' = false → removed = false ∧ t.mem.rx = s.mem.rx) := by
  induction n with
  | zero => intro s removed _ hlen; omega
  | succ n ih =>
    intro s removed h hlen
    rcases h.drain_turn n removed with ⟨t, hdrain, hst, hrx, hend⟩ | ⟨t, hdrain, hst, ht, hrx⟩
    · exact ⟨t, removed, hdrain, hst, hend, fun hr => ⟨hr, hrx⟩⟩
    · obtain ⟨u, removed', hdrain', hst', hend, hr⟩ := ih t true ht (by omega)
      exact ⟨u, removed', hdrain.trans hdrain', hst.trans hst', hend,
        fun hfalse => absurd (hr hfalse).1 nofun⟩

/-! ### FEED (R160) -/

/-- FEED accepts what there is room for: all of `b`, or enough to fill `RX`. -/
theorem Idle.execFeed_accepts (h : Idle s) (b : List Byte) :
    ∃ k, k ≤ b.length ∧ execFeed b s = .next (s.fed (b.take k)) ∧ Idle (s.fed (b.take k)) ∧
      (k < b.length → ¬ (s.fed (b.take k)).HasRoom) ∧ (s.HasRoom → b ≠ [] → 0 < k) := by
  have hk := feedCount_le s.cfg.rxcap s.rxlen b.length
  refine ⟨feedCount s.cfg.rxcap s.rxlen b.length, hk, ?_, ⟨h.live, h.frv, h.cfg, appendRx_wf h.mem⟩,
    ?_, ?_⟩
  · simp only [execFeed, phaseRefusal_live h.live, State.fed, List.length_take, Nat.min_eq_left hk]
  · intro hlt hroom
    cases hc : s.cfg.rxcap with
    | none => simp [hc, feedCount] at hlt
    | some c =>
      have hless := hroom c hc
      simp only [hc, feedCount, State.rxlen_eq] at hlt
      simp only [State.fed, State.emit_rx, State.appendRx_rx, hc, feedCount, State.rxlen_eq,
        List.length_append, List.length_take] at hless
      omega
  · intro hroom hb
    have hpos := List.length_pos_of_ne_nil hb
    cases hc : s.cfg.rxcap with
    | none => exact hpos
    | some c =>
      have hless := hroom c hc
      simp only [feedCount, State.rxlen_eq]
      omega

/-! ### The feeds of DATA (R201) -/

/-- How DATA may end: after some of `b` in Error, or after all of it with nothing left to take. -/
def DataEnds (b : List Byte) (s t : State) : Prop :=
  ∃ k, Stretch (b.take k) s t ∧ (t.phase = .error ∨ (b.length ≤ k ∧ Waiting t))

theorem DataEnds.of_drop {k : Nat} (h : Stretch (b.take k) s t) (g : DataEnds (b.drop k) t u) :
    DataEnds b s u := by
  obtain ⟨k', hst, hend⟩ := g
  refine ⟨k + k', List.take_add ▸ h.trans hst, hend.imp_right fun ⟨hk, hw⟩ => ⟨?_, hw⟩⟩
  rw [List.length_drop] at hk
  omega

/-- In Error a further FEED is refused, and DATA ends. -/
theorem dataEvent_of_error (n : Nat) (b : List Byte) (herr : s.phase = .error) :
    ∃ t, dataEvent n b s = .next t ∧ DataEnds b s t := by
  cases n with
  | zero => exact ⟨s, rfl, 0, stretch_of_rx_eq (rs := []) rfl rfl (by simp) rfl rfl, .inl herr⟩
  | succ n =>
    have hfeed : execFeed b s = .next (s.emit (.refused .sessionEnded)) := by
      simp [execFeed, herr, phaseRefusal]
    have hresult : (s.emit (.refused .sessionEnded)).result = some (.refused .sessionEnded) :=
      result_of_out rfl
    exact ⟨s.emit (.refused .sessionEnded), by simp only [dataEvent, hfeed, hresult], 0,
      stretch_of_rx_eq (rs := [.refused .sessionEnded]) rfl rfl rfl rfl rfl, .inl herr⟩

/-- One feed of DATA, with its drain loop: it ends the event, or there is room for more of it. -/
theorem Idle.dataEvent_turn (h : Idle s) (n : Nat) (b : List Byte) :
    (∃ t, dataEvent (n + 1) b s = .next t ∧ DataEnds b s t) ∨
    (∃ k t, dataEvent (n + 1) b s = dataEvent n (b.drop k) t ∧ Stretch (b.take k) s t ∧ Idle t ∧
      t.HasRoom ∧ k < b.length ∧ (s.HasRoom → 0 < k)) := by
  obtain ⟨k, hk, hfeed, hidle, hfull, hpos⟩ := h.execFeed_accepts b
  obtain ⟨t, removed, hdrain, hst, hend, hremoved⟩ :=
    hidle.drain_ends ((s.fed (b.take k)).rxlen / 24 + 1) _ false (by rw [State.rxlen_eq]; omega)
  have hst : Stretch (b.take k) s t := by
    simpa using (stretch_fed (b.take k) s).trans hst
  have hresult : (s.fed (b.take k)).result = some (.fed k) := by
    rw [State.fed, List.length_take, Nat.min_eq_left hk]
    exact result_of_out rfl
  have hturn : dataEvent (n + 1) b s =
      if k < b.length && removed then dataEvent n (b.drop k) t else .next t := by
    simp only [dataEvent, hfeed, hresult, hdrain]
  by_cases hmore : (decide (k < b.length) && removed) = true
  · rw [if_pos hmore] at hturn
    rcases hend with herr | hwait
    · obtain ⟨u, hu, hends⟩ := dataEvent_of_error n (b.drop k) herr
      exact .inl ⟨u, hturn.trans hu, hends.of_drop hst⟩
    · simp only [Bool.and_eq_true, decide_eq_true_eq] at hmore
      have hb : b ≠ [] := List.ne_nil_of_length_pos (by omega)
      exact .inr ⟨k, t, hturn, hst, hwait.toIdle, hwait.room, hmore.1, fun hroom => hpos hroom hb⟩
  · rw [if_neg hmore] at hturn
    refine .inl ⟨t, hturn, k, hst, hend.imp_right fun hwait => ⟨?_, hwait⟩⟩
    by_contra hlt
    have hlt := not_le.mp hlt
    have hkept : removed = false := by simpa [hlt] using hmore
    refine hfull hlt fun c hc => ?_
    have := hwait.room c (hst.cfg ▸ hc)
    rwa [(hremoved hkept).2] at this

/-- With room in `RX` every feed accepts a byte, so as many feeds as bytes are enough. -/
theorem dataEvent_ends (n : Nat) : ∀ (s : State) (b : List Byte), Idle s → s.HasRoom →
    b.length < n → ∃ t, dataEvent n b s = .next t ∧ DataEnds b s t := by
  induction n with
  | zero => intro s b _ _ hlen; omega
  | succ n ih =>
    intro s b h hroom hlen
    rcases h.dataEvent_turn n b with hend | ⟨k, t, hturn, hst, ht, hroom', hk, hpos⟩
    · exact hend
    · have hk0 := hpos hroom
      obtain ⟨u, hu, hends⟩ := ih t (b.drop k) ht hroom' (by rw [List.length_drop]; omega)
      exact ⟨u, hturn.trans hu, hends.of_drop hst⟩

/-- DATA ends: only its first feed can find `RX` full. -/
theorem Idle.data_ends (h : Idle s) (b : List Byte) : ∃ t, data b s = .next t ∧ DataEnds b s t := by
  rcases h.dataEvent_turn (b.length + 1) b with hend | ⟨k, t, hturn, hst, ht, hroom, -⟩
  · exact hend
  · obtain ⟨u, hu, hends⟩ := dataEvent_ends (b.length + 1) t (b.drop k) ht hroom
      (by rw [List.length_drop]; omega)
    exact ⟨u, hturn.trans hu, hends.of_drop hst⟩

end

/-- Settles O34: what the stretch from the start to the end of DATA says. -/
theorem dataDeliversTheWholeEvent : Obligations.DataDeliversTheWholeEvent := by
  intro s b hlive hfrv hcfg hmem
  obtain ⟨t, hdata, k, hst, hend⟩ := (Idle.mk hlive hfrv hcfg hmem).data_ends b
  obtain ⟨rs, gone, hout, hfed, hrx, hstream⟩ := hst.trace
  rw [List.length_take] at hfed
  refine ⟨t, rs, gone, hdata, hout, ?_, hstream, hend.imp_right fun ⟨hk, hwait⟩ => ?_⟩
  · rw [hfed, ← List.take_eq_take_min]
    exact hrx
  · exact ⟨hwait.result, hwait.frv, hfed.trans (Nat.min_eq_right hk)⟩

end Sys2Proof.Machine
end

section
/-! The operations that are not performed (`spec/60_exceptions.md` R222, R235): one rule per test of
the table, each ending in the refusal that changes nothing but `OUT`. -/

namespace Sys2Proof.Machine

open Sys2Proof.Laws

section
variable {s : State}

/-- FEED, EXTRACT and ROUTE test the phase before anything else, so outside the live phases they
report its refusal whatever `FRV` holds (R235). -/
theorem exec_session_of_phaseRefusal {b : List Byte} {i : Instr} {r : RefuseReason}
    (hi : i = .feed b ∨ i = .extract ∨ i = .route) (hr : phaseRefusal s.phase = some r) :
    exec i s = .next (s.emit (.refused r)) := by
  rcases hi with rfl | rfl | rfl
  · simp only [exec, execFeed, hr, refuse_eq]
  · simp only [exec, execExtract, hr, refuse_eq]
  · simp only [exec, execRoute, hr, refuse_eq]

/-- An unrouted frame in `FR` holds EXTRACT back. -/
theorem execExtract_of_busy (hlive : s.phase.live = true) (hfrv : s.flags.frv = true) :
    execExtract s = .next (s.emit (.refused .frameBusy)) := by
  simp only [execExtract, phaseRefusal_live hlive, hfrv, if_true, refuse_eq]

/-- ROUTE needs an unrouted frame in `FR`. -/
theorem execRoute_of_noFrame (hlive : s.phase.live = true) (hfrv : s.flags.frv = false) :
    execRoute s = .next (s.emit (.refused .noFrame)) := by
  simp only [execRoute, phaseRefusal_live hlive, hfrv, Bool.false_eq_true, if_false, refuse_eq]

end

/-- Settles O35: each line of the table is the rule of its test. -/
theorem refusedOperationsChangeOnlyTheTrace : Obligations.RefusedOperationsChangeOnlyTheTrace := by
  rintro s b o i r (⟨hi, hph, rfl⟩ | ⟨hi, hph, rfl⟩ | ⟨rfl, hlive, hfrv, rfl⟩ |
    ⟨rfl, hlive, hfrv, rfl⟩ | ⟨rfl, hph, rfl⟩ | ⟨hi, hcap, rfl⟩)
  · exact exec_session_of_phaseRefusal hi (by rw [hph]; rfl)
  · refine exec_session_of_phaseRefusal hi ?_
    rcases hph with hph | hph <;> rw [hph] <;> rfl
  · exact execExtract_of_busy hlive hfrv
  · exact execRoute_of_noFrame hlive hfrv
  · exact (connectOpensTheSession.2 s).2 hph
  · exact exec_standAlone_of_not_fits (hi.imp_left fun h => ⟨o, h⟩) hcap

end Sys2Proof.Machine
end
